-- ==== Sys2Proof/Word.lean ====
section
/-! DEFINITION. The word types of HDE: bytes, 32-bit register words, 9-bit symbols, 4-bit selectors. -/

namespace Sys2Proof

/-- A byte of `SRCMEM` or `OUTMEM` (R60, R61). -/
abbrev Byte := BitVec 8

/-- A 32-bit register word, bit 0 least significant (R30, R65). -/
abbrev Word := BitVec 32

/-- A 9-bit symbol (R82). Only `0x000..0x111` can be produced (R84). -/
abbrev Symbol := BitVec 9

/-- The 4-bit selector of a symbol code (R80). -/
abbrev Selector := BitVec 4

end Sys2Proof
end

