-- ==== Sys2Proof/Config.lean ====
section
/-! DEFINITION. The parameters of an HDE (R5, R27): the shape of the constants, the constants the spec leaves OPEN as
uninterpreted constants, the values the spec decides, the free values, and the spec's test configuration TC. -/

namespace Sys2Proof

/-- `NSYM`: the number of symbols, and of directory indices (R6). -/
abbrev nsym : Nat := 0x112

/-- A Huffman table descriptor: 16 slots of `(len, base)`. A length is at most 24 (R24, R102, R120 (a), R129). -/
structure Table where
  len  : Vector (Fin 25) 16
  base : Vector Nat 16
deriving DecidableEq, Repr, Inhabited

/-- The cumulative base of slot `s`: the sum of `2^len[j]` over `j < s` (R24, R120 (b)). -/
def cumulativeBase (len : Vector (Fin 25) 16) (s : Nat) : Nat :=
  ((len.toList.take s).map fun l => 2 ^ l.val).sum

/-- The well-formed descriptor with the given lengths (R120). -/
def Table.ofLengths (len : Vector (Fin 25) 16) : Table :=
  { len := len, base := Vector.ofFn fun s => cumulativeBase len s.val }

/-- The symbol directory: which symbol each index stands for, and how often each symbol was decoded. `FREQ` is indexed by
symbol, `ASSIGN` by index (R25, R140). The counters are natural numbers (R146). -/
structure Directory where
  ASSIGN : Vector Symbol nsym
  FREQ   : Vector Nat nsym
deriving DecidableEq, Repr, Inhabited

/-- The `ASSIGN` array of a permutation of `0x000..0x111`. -/
def assignOfPerm (σ : Equiv.Perm (Fin nsym)) : Vector Symbol nsym :=
  Vector.ofFn fun i => BitVec.ofNat 9 (σ i).val

/-- The identity assignment: index `i` stands for symbol `i`. -/
def identityAssign : Vector Symbol nsym :=
  { toArray := ((List.range nsym).map (BitVec.ofNat 9)).toArray, size_toArray := by simp }

/-- An entry of the LengthTable: `0 <= extraBits <= 24`, `base < 2^31` (R199). -/
structure LengthEntry where
  extraBits : Fin 25
  base      : Fin (2 ^ 31)
deriving DecidableEq, Repr, Inhabited

/-- An entry of the DistanceTable: `0 <= extraBits <= 23`, `base < 2^23` (R200). -/
structure DistanceEntry where
  extraBits : Fin 24
  base      : Fin (2 ^ 23)
deriving DecidableEq, Repr, Inhabited

/-- `P_LENGTH_TABLE` together with `P_LEN_INDEX` (R5, R199): under `SELECTOR` a table of 16 entries indexed by the selector
of the iteration, under `SYMBOL_OFFSET` a table of 8 entries indexed by `symbol - 0x108`. -/
inductive LengthTable where
  | selector     (entries : Vector LengthEntry 16)
  | symbolOffset (entries : Vector LengthEntry 8)
deriving DecidableEq, Repr

/-- `P_LEN_CODING`: how the zero count of a unary group gives a slot length (R123). -/
inductive LenCoding where
  | delta
  | absolute
deriving DecidableEq, Repr

/-- `P_ITER_CAP` where it is a function of `UL` (R170), as plain data: the value listed for `UL`, else `scale * UL + offset`.
Every function of a 32-bit `UL` can be written so (log 26). -/
structure IterCap where
  listed : List (Nat × Nat)
  scale  : Nat
  offset : Nat
deriving DecidableEq, Repr

/-- `P_ITER_CAP(UL)` (R170). -/
def IterCap.limit (c : IterCap) (ul : Nat) : Nat := (c.listed.lookup ul).getD (c.scale * ul + c.offset)

/-- The constants and parameters of one HDE (R5, R27). They are part of the state because R27 allows them to be registers
loaded once before the first START; no rule writes them. -/
structure Params where
  /-- `P_DEFAULT_TABLE` (R121). -/
  defaultTable     : Table
  /-- `P_LENGTH_TABLE`, `P_LEN_INDEX` (R199). -/
  lengthTable      : LengthTable
  /-- `P_DISTANCE_TABLE` (R200). -/
  distanceTable    : Vector DistanceEntry 8
  /-- `P_INIT_DIRECTORY` (R140). -/
  initDirectory    : Directory
  /-- `P_LEN_CODING` (R123). -/
  lenCoding        : LenCoding
  /-- `P_UNDERFLOW_DRAIN` (R104). -/
  underflowDrain   : Bool
  /-- `P_SEGMENT_THRESHOLD` (R166). -/
  segmentThreshold : Nat
  /-- `P_MAX_CODE_LEN`: the widest read, and the longest slot length a table may hold (R102, R124). More than 24 would break
  the staging register's bound, so R102 rules it out. -/
  maxCodeLen       : Fin 25
  /-- `P_ITER_CAP` (R170): `none` is no cap. -/
  iterCap          : Option IterCap
  /-- `P_SRC_SIZE` (R60). -/
  srcSize          : Nat
  /-- `P_OUT_CAPACITY` (R61). -/
  outCapacity      : Nat
deriving DecidableEq, Repr

namespace Config

/-! ### The OPEN parameters (R5, D29): uninterpreted, so that no proof can rest on a value (log 4). -/

/-- The slot lengths of `P_DEFAULT_TABLE`; its bases follow from them by R120 (b). -/
opaque defaultLengths : Vector (Fin 25) 16

/-- The entries of `P_LENGTH_TABLE` under `P_LEN_INDEX = SELECTOR`. -/
opaque lengthEntries : Vector LengthEntry 16

/-- The entries of `P_DISTANCE_TABLE`. -/
opaque distanceEntries : Vector DistanceEntry 8

/-- The permutation `A0` of `P_INIT_DIRECTORY` (R140). -/
opaque initAssign : Equiv.Perm (Fin nsym)

/-- The counters `F0` of `P_INIT_DIRECTORY` (R140). -/
opaque initFreq : Vector Nat nsym

/-- `P_SRC_SIZE`, at most `2^32` (R5). -/
opaque srcSize : Fin (2 ^ 32 + 1)

/-- `P_OUT_CAPACITY`, at most `2^32 - 1` (R5). -/
opaque outCapacity : Fin (2 ^ 32)

/-- The assignment `P_REORDER` returns. R143 (a): whatever the argument, it is a permutation of `0x000..0x111`, which is
all that the type says of it (log 20). -/
opaque reorderAssign : Directory → Equiv.Perm (Fin nsym)

/-- The counters `P_REORDER` returns: nothing is known of them (R143). -/
opaque reorderFreq : Directory → Vector Nat nsym

/-- `P_REORDER` (R143): a total function of `(ASSIGN, FREQ)`, fixed logic and not state (R27). -/
def reorder (d : Directory) : Directory :=
  { ASSIGN := assignOfPerm (reorderAssign d), FREQ := reorderFreq d }

/-! ### The values the spec decides (R5; log 5) -/

/-- The parameters of the hardware: the OPEN constants, and the spec's values `SELECTOR`, `DELTA`, `true`, `2`, `24` and no
iteration cap. -/
def params : Params :=
  { defaultTable     := Table.ofLengths defaultLengths
    lengthTable      := .selector lengthEntries
    distanceTable    := distanceEntries
    initDirectory    := { ASSIGN := assignOfPerm initAssign, FREQ := initFreq }
    lenCoding        := .delta
    underflowDrain   := true
    segmentThreshold := 2
    maxCodeLen       := 24
    iterCap          := none
    srcSize          := srcSize.val
    outCapacity      := outCapacity.val }

/-! ### Free values: what the spec calls "any value" (R37, R71, R261; log 8) -/

/-- The word that the `k`-th draw of the run yields. -/
opaque freeWord : Nat → Word

/-- The byte that the `k`-th draw of the run yields. -/
opaque freeByte : Nat → Byte

/-- What `INFO` shows of an iteration count at or above 2^32: R222 bounds `ITER` only for some `P_SRC_SIZE` and gives no value
beyond 32 bits (DESIGN CHOICE; log 27). -/
opaque wideIteration : Nat → Word

/-! ### The test configuration TC (95_test_vectors.md section 1). It is NOT the hardware's configuration. -/

/-- The lengths of TC's default table. -/
def tcLengths : Vector (Fin 25) 16 := #v[4, 4, 4, 4, 4, 4, 4, 4, 4, 4, 4, 4, 4, 4, 5, 5]

/-- TC's directory: the identity, all counters 0. -/
def tcDirectory : Directory :=
  { ASSIGN := identityAssign, FREQ := Vector.replicate nsym 0 }

/-- TC: invented parameter values that the spec's test vectors use. -/
def tc : Params :=
  { defaultTable     := Table.ofLengths tcLengths
    lengthTable      := .selector (Vector.replicate 16 { extraBits := 2, base := 8 })
    distanceTable    := Vector.ofFn fun i => { extraBits := Fin.ofNat 24 i.val, base := Fin.ofNat (2 ^ 23) i.val }
    initDirectory    := tcDirectory
    lenCoding        := .delta
    underflowDrain   := true
    segmentThreshold := 2
    maxCodeLen       := 24
    iterCap          := none
    srcSize          := 4096
    outCapacity      := 4096 }

end Config

end Sys2Proof
end

