-- ==== Sys2Proof/Syntax.lean ====
section
/-! DEFINITION. The instructions: what the dispatch receives (`Instr`, R163), an instruction with all the fields it has in
the stream (`StreamInstr`, R85), and the notation of the spec's test programs (`AsmLine`, R90). -/

namespace Sys2Proof

/-- One constructor for each row of spec/opcode_table.json, with the operands R163's `dispatch(sym, sel)` hands it: the
fields of the 9-bit symbol, and for MATCH_LONG the selector of its iteration. The trailing fields (R85) are read from the
stream by the instruction's own rule (R192 to R194, R122), so they are no operands here (log 1). -/
inductive Instr where
  /-- LIT (R164): `0bbbbbbbb`. -/
  | lit (b : Byte)
  /-- MATCH_SHORT (R192): `100000kkk`. -/
  | matchShort (k : BitVec 3)
  /-- MATCH_LONG (R193): `100001kkk`, decoded under selector `sel`. -/
  | matchLong (k : BitVec 3) (sel : Selector)
  /-- TABLE_SWAP (R165): `100010000`. -/
  | tableSwap
  /-- END_SEGMENT (R166): `100010001`. -/
  | endSegment
deriving DecidableEq, Repr

/-- The distance fields of a match, in stream order: `ds:3`, `hi:8`, `lo:db` (R85, R87). The width `db` of `lo` depends on
the DistanceTable, so that it is below `2^db` is a well-formedness check. -/
structure DistanceFields where
  ds : BitVec 3
  hi : BitVec 8
  lo : Nat
deriving DecidableEq, Repr

/-- An instruction with every field it has in the stream (R85). -/
inductive StreamInstr where
  | lit (b : Byte)
  | matchShort (k : BitVec 3) (dist : DistanceFields)
  | matchLong (k : BitVec 3) (lx : Nat) (dist : DistanceFields)
  /-- The 16 zero counts of the unary groups (R88). -/
  | tableSwap (zeros : Vector Nat 16)
  | endSegment
deriving DecidableEq, Repr

/-- The symbol an instruction is coded by: the fixed bits of its opcode-table row, with its fields in place (R82). -/
def StreamInstr.symbol : StreamInstr → Symbol
  | .lit b           => 0#1 ++ b
  | .matchShort k _  => 0b100000#6 ++ k
  | .matchLong k _ _ => 0b100001#6 ++ k
  | .tableSwap _     => 0x110
  | .endSegment      => 0x111

/-- A line of the spec's assembler notation (R90): an instruction, or filler bits that no instruction reads. -/
inductive AsmLine where
  | instr (i : StreamInstr)
  | pad (bits : List Bool)
deriving DecidableEq, Repr

end Sys2Proof
end

