-- ==== Sys2Proof/Decode.lean ====
section
/-! DEFINITION. Decoding and encoding of the stream (R80 to R90): bit strings in stream order, the symbol decoder, the
decoder of a whole instruction from a list of bits, and the encoder written from the same tables. The machine itself reads
its bits through the cursor (Machine/Reader.lean); these functions say what those bits mean. -/

namespace Sys2Proof

/-! ### Bit strings (R7): the leftmost bit is the first the reader takes, the most significant -/

/-- The `w` low bits of `n`, most significant first. -/
def bitsOf : (w n : Nat) → List Bool
  | 0,     _ => []
  | w + 1, n => n.testBit w :: bitsOf w n

/-- The unsigned number a bit string stands for, first bit most significant (R100). -/
def valueOf (bits : List Bool) : Nat :=
  bits.foldl (fun acc b => 2 * acc + b.toNat) 0

/-- The bits of a byte string: bytes in order, bit 7 of each first (R10; log 11). -/
def bitsOfBytes (bytes : List Byte) : List Bool :=
  bytes.flatMap fun b => bitsOf 8 b.toNat

/-- The first `n` bits as a number, and the rest; none if there are fewer. -/
def takeBits (n : Nat) (bits : List Bool) : Option (Nat × List Bool) :=
  if n ≤ bits.length then some (valueOf (bits.take n), bits.drop n) else none

/-! ### Table parameters -/

/-- Slot length of a selector. -/
def Table.lenAt (t : Table) (sel : Selector) : Nat := (t.len[sel.toNat]'sel.isLt).val

/-- Base of a selector's slot. -/
def Table.baseAt (t : Table) (sel : Selector) : Nat := t.base[sel.toNat]'sel.isLt

/-- `length_of(lrun, z)` (R122). -/
def LenCoding.lengthOf (c : LenCoding) (lrun z : Nat) : Nat :=
  match c with
  | .delta    => lrun + z
  | .absolute => z

/-- The LengthTable entry of a long match: indexed by the selector, or by `k = symbol - 0x108` (R193, R199). -/
def LengthTable.entry (lt : LengthTable) (k : BitVec 3) (sel : Selector) : LengthEntry :=
  match lt with
  | .selector entries     => entries[sel.toNat]'sel.isLt
  | .symbolOffset entries => entries[k.toNat]'k.isLt

/-- The DistanceTable entry of a distance selector (R194). -/
def Params.distanceEntry (p : Params) (ds : BitVec 3) : DistanceEntry := p.distanceTable[ds.toNat]'ds.isLt

/-- `db = DT[ds].extraBits + 1`: the width of the low part of a distance (R85, R194). -/
def Params.lowWidth (p : Params) (ds : BitVec 3) : Nat := (p.distanceEntry ds).extraBits.val + 1

/-! ### The decoder -/

/-- Why bits are no instruction. -/
inductive DecodeError where
  /-- The bits end inside the instruction. -/
  | truncated
  /-- The only illegal encoding: an index at or above `0x112` (R83), with the bits after its code. -/
  | outOfSync (idx : Nat) (rest : List Bool)
  /-- A symbol `0x112..0x1FF`, which no permutation of `0x000..0x111` yields (R84). -/
  | unreachableSymbol (sym : Symbol)
  /-- A table description with a slot length above `P_MAX_CODE_LEN` (R124), with the bits after the zero that makes it so. -/
  | tableFormat (slot : Nat) (rest : List Bool)
deriving DecidableEq, Repr

/-- The dispatch on the symbol class, in R163's order. -/
def decodeSymbol (sym : Symbol) (sel : Selector) : Except DecodeError Instr :=
  if sym < 0x100 then .ok (.lit (sym.extractLsb' 0 8))
  else if sym = 0x110 then .ok .tableSwap
  else if sym = 0x111 then .ok .endSegment
  else if sym < 0x108 then .ok (.matchShort (sym.extractLsb' 0 3))
  else if sym < 0x110 then .ok (.matchLong (sym.extractLsb' 0 3) sel)
  else .error (.unreachableSymbol sym)

/-- The symbol code at the head of a bit string (R80, R83, R141): the symbol, the selector it was coded under, and the bits
after the code. -/
def decodeCode (t : Table) (d : Directory) (bits : List Bool) : Except DecodeError (Symbol × Selector × List Bool) :=
  match takeBits 4 bits with
  | none => .error .truncated
  | some (selector, bits₁) =>
    let sel := BitVec.ofNat 4 selector
    match takeBits (t.lenAt sel) bits₁ with
    | none => .error .truncated
    | some (off, bits₂) =>
      let idx := t.baseAt sel + off
      if h : idx < nsym then .ok (d.ASSIGN[idx], sel, bits₂) else .error (.outOfSync idx bits₂)

/-- The instruction at the head of a bit string, as the dispatch receives it, and the bits after its symbol code. -/
def decodeInstr (t : Table) (d : Directory) (bits : List Bool) : Except DecodeError (Instr × List Bool) :=
  match decodeCode t d bits with
  | .error e => .error e
  | .ok (sym, sel, rest) =>
    match decodeSymbol sym sel with
    | .error e => .error e
    | .ok i => .ok (i, rest)

/-- The distance fields `ds:3`, `hi:8`, `lo:db` (R85). -/
def decodeDistance (p : Params) (bits : List Bool) : Except DecodeError (DistanceFields × List Bool) :=
  match takeBits 3 bits with
  | none => .error .truncated
  | some (ds, bits₁) =>
    match takeBits 8 bits₁ with
    | none => .error .truncated
    | some (hi, bits₂) =>
      match takeBits (p.lowWidth (BitVec.ofNat 3 ds)) bits₂ with
      | none => .error .truncated
      | some (lo, bits₃) => .ok ({ ds := BitVec.ofNat 3 ds, hi := BitVec.ofNat 8 hi, lo := lo }, bits₃)

/-- One unary group `0^z 1` of slot `slot` (R88): `z` zeros have been taken already. -/
def decodeGroup (p : Params) (lrun slot : Nat) : (z : Nat) → List Bool → Except DecodeError (Nat × List Bool)
  | _, [] => .error .truncated
  | z, true :: bits => .ok (z, bits)
  | z, false :: bits =>
    if p.lenCoding.lengthOf lrun (z + 1) > p.maxCodeLen.val then .error (.tableFormat slot bits)
    else decodeGroup p lrun slot (z + 1) bits

/-- The zero counts of `slots` unary groups from slot `slot` on (R88, R122). -/
def decodeGroups (p : Params) : (slots slot lrun : Nat) → List Bool → Except DecodeError (List Nat × List Bool)
  | 0, _, _, bits => .ok ([], bits)
  | slots + 1, slot, lrun, bits =>
    match decodeGroup p lrun slot 0 bits with
    | .error e => .error e
    | .ok (z, bits₁) =>
      match decodeGroups p slots (slot + 1) (p.lenCoding.lengthOf lrun z) bits₁ with
      | .error e => .error e
      | .ok (zs, bits₂) => .ok (z :: zs, bits₂)

/-- The whole instruction at the head of a bit string, with all its trailing fields (R85), and the bits after it. -/
def decodeStream (p : Params) (t : Table) (d : Directory) (bits : List Bool) :
    Except DecodeError (StreamInstr × List Bool) :=
  match decodeInstr t d bits with
  | .error e => .error e
  | .ok (.lit b, rest) => .ok (.lit b, rest)
  | .ok (.matchShort k, rest) =>
    match decodeDistance p rest with
    | .error e => .error e
    | .ok (f, rest') => .ok (.matchShort k f, rest')
  | .ok (.matchLong k sel, rest) =>
    match takeBits (p.lengthTable.entry k sel).extraBits.val rest with
    | none => .error .truncated
    | some (lx, rest₁) =>
      match decodeDistance p rest₁ with
      | .error e => .error e
      | .ok (f, rest₂) => .ok (.matchLong k lx f, rest₂)
  | .ok (.tableSwap, rest) =>
    match decodeGroups p 16 0 0 rest with
    | .error e => .error e
    | .ok (zs, rest') => .ok (.tableSwap (Vector.ofFn fun s => zs.getD s.val 0), rest')
  | .ok (.endSegment, rest) => .ok (.endSegment, rest)

/-! ### The encoder -/

/-- The symbol of an instruction (R82): the inverse of `decodeSymbol`. -/
def encodeSymbol : Instr → Symbol
  | .lit b         => 0#1 ++ b
  | .matchShort k  => 0b100000#6 ++ k
  | .matchLong k _ => 0b100001#6 ++ k
  | .tableSwap     => 0x110
  | .endSegment    => 0x111

/-- The index a symbol has in the directory (R89). -/
def Directory.indexOf (d : Directory) (y : Symbol) : Option Nat :=
  d.ASSIGN.toList.findIdx? (· == y)

/-- The slot whose range holds an index (R89, R120). -/
def Table.slotOf (t : Table) (idx : Nat) : Option Selector :=
  ((List.range 16).map (BitVec.ofNat 4)).find? fun s => t.baseAt s ≤ idx && idx < t.baseAt s + 2 ^ t.lenAt s

/-- The selector a symbol is coded under, if it has a code (R89). -/
def selectorOf (t : Table) (d : Directory) (y : Symbol) : Option Selector :=
  (d.indexOf y).bind t.slotOf

/-- The code of a symbol under a table and a directory (R89); none if the symbol has no code. -/
def encodeCode (t : Table) (d : Directory) (y : Symbol) : Option (List Bool) :=
  match d.indexOf y with
  | none => none
  | some i =>
    match t.slotOf i with
    | none => none
    | some s => some (bitsOf 4 s.toNat ++ bitsOf (t.lenAt s) (i - t.baseAt s))

/-- The distance fields in stream order (R85). -/
def encodeDistance (p : Params) (f : DistanceFields) : List Bool :=
  bitsOf 3 f.ds.toNat ++ bitsOf 8 f.hi.toNat ++ bitsOf (p.lowWidth f.ds) f.lo

/-- The unary groups `0^z 1` of a table description (R88). -/
def encodeGroups (zs : List Nat) : List Bool :=
  zs.flatMap fun z => List.replicate z false ++ [true]

/-- The trailing fields of an instruction coded under selector `sel` (R85). -/
def encodeTrailing (p : Params) (sel : Selector) : StreamInstr → List Bool
  | .lit _            => []
  | .matchShort _ f   => encodeDistance p f
  | .matchLong k lx f => bitsOf (p.lengthTable.entry k sel).extraBits.val lx ++ encodeDistance p f
  | .tableSwap zs     => encodeGroups zs.toList
  | .endSegment       => []

/-- `encode`: the bits of a whole instruction, its symbol code and then its trailing fields (R85, R89). -/
def encode (p : Params) (t : Table) (d : Directory) (i : StreamInstr) : Option (List Bool) :=
  match selectorOf t d i.symbol with
  | none => none
  | some sel => (encodeCode t d i.symbol).map (· ++ encodeTrailing p sel i)

/-- The bits of a line of R90's notation. -/
def AsmLine.encode (p : Params) (t : Table) (d : Directory) : AsmLine → Option (List Bool)
  | .instr i  => Sys2Proof.encode p t d i
  | .pad bits => some bits

/-- R90's pseudo-instruction `ALIGN`: the filler up to the next byte boundary after `n` bits. -/
def AsmLine.align (n : Nat) : AsmLine := .pad (List.replicate ((8 - n % 8) % 8) false)

/-! ### The opcode table's words (log 10) -/

/-- The table under which the code of symbol `y` is the 9 bits of `y` itself: 5 offset bits in every slot, so slot `s`
covers the indices `32*s .. 32*s + 31`. -/
def wordTable : Table := Table.ofLengths (Vector.replicate 16 5)

/-- The stream that spec/opcode_table.json's numbering of an instruction stands for: the 9-bit symbol in bits 8 to 0, then
the bits above it in ascending order, then zeros. -/
def tableWordBits (nbits w : Nat) : List Bool :=
  bitsOf 9 w ++ ((List.range (nbits - 9)).map fun j => w.testBit (9 + j)) ++ List.replicate 512 false

/-- The instruction the decoder reads from a table word, under `wordTable` and the identity directory. -/
def decodeTableWord (nbits w : Nat) : Option Instr :=
  match decodeInstr wordTable Config.tcDirectory (tableWordBits nbits w) with
  | .ok (i, _) => some i
  | .error _   => none

/-- Bytes from bits, bit 7 of a byte first (R10): the first `n` bytes of a bit string. -/
def bytesOfBits (n : Nat) (bits : List Bool) : List Byte :=
  (List.range n).map fun i => BitVec.ofNat 8 (valueOf ((bits.drop (8 * i)).take 8))

end Sys2Proof
end

