-- ==== Sys2Proof/WellFormed.lean ====
section
/-! DEFINITION. Well-formedness, as decidable propositions: of a table descriptor (R120), a directory (R25), the constants
(R263), and an instruction with its trailing fields under the table and directory it is coded for (R85, R88, R89). -/

namespace Sys2Proof

/-- R120 (b), R24: every base is the sum of `2^len[j]` over the slots before it. (R120 (a), `len <= 24`, is in the type.) -/
abbrev Table.WF (t : Table) : Prop :=
  ∀ s : Fin 16, t.base[s] = cumulativeBase t.len s.val

/-- The 274 symbols `0x000..0x111` in order. -/
def symbols : List Symbol := (List.range nsym).map (BitVec.ofNat 9)

/-- R25: `ASSIGN` is a permutation of `0x000..0x111`. -/
abbrev Directory.WF (d : Directory) : Prop := d.ASSIGN.toList.Perm symbols

/-- Every length of a table is within `P_MAX_CODE_LEN` (R5, R124). -/
abbrev Table.LengthsFit (t : Table) (p : Params) : Prop := ∀ l ∈ t.len.toList, l ≤ p.maxCodeLen

/-- The widths of the reads that the LengthTable asks for. -/
def LengthTable.widths : LengthTable → List Nat
  | .selector entries     => entries.toList.map fun e => e.extraBits.val
  | .symbolOffset entries => entries.toList.map fun e => e.extraBits.val

/-- `P_MAX_CODE_LEN` is the widest read (R5, R102): no field is wider, be it a fixed one (at most 8 bits, R85), the extra bits
of a length or the low part of a distance. With the spec's value 24 the
types of the tables say it already. -/
abbrev Params.WidthsFit (p : Params) : Prop :=
  8 ≤ p.maxCodeLen.val ∧ (∀ w ∈ p.lengthTable.widths, w ≤ p.maxCodeLen.val) ∧
  ∀ e ∈ p.distanceTable.toList, e.extraBits.val + 1 ≤ p.maxCodeLen.val

/-- The constraints on the constants and sizes that are not in their types already (R5, R102, R121, R140, R263). -/
abbrev Params.WF (p : Params) : Prop :=
  p.defaultTable.WF ∧ p.defaultTable.LengthsFit p ∧ p.WidthsFit ∧ p.initDirectory.WF ∧
  p.srcSize ≤ 2 ^ 32 ∧ p.outCapacity ≤ 2 ^ 32 - 1

/-- Index `idx` lies in slot `sel` of a table (R120). -/
abbrev Table.Covers (t : Table) (sel : Selector) (idx : Nat) : Prop :=
  t.baseAt sel ≤ idx ∧ idx < t.baseAt sel + 2 ^ t.lenAt sel

/-- Symbol `y` is coded under selector `sel` (R89): some index stands for it, and that index lies in the slot. -/
abbrev CodedUnder (t : Table) (d : Directory) (y : Symbol) (sel : Selector) : Prop :=
  ∃ i : Fin nsym, d.ASSIGN[i] = y ∧ t.Covers sel i.val

/-- The low part of a distance fits its `db` bits (R85). -/
abbrev DistanceFields.WF (p : Params) (f : DistanceFields) : Prop := f.lo < 2 ^ p.lowWidth f.ds

/-- The slot lengths that zero counts stand for (R122). -/
def slotLengths (c : LenCoding) : (lrun : Nat) → List Nat → List Nat
  | _, [] => []
  | lrun, z :: zs => c.lengthOf lrun z :: slotLengths c (c.lengthOf lrun z) zs

/-- No slot length exceeds `P_MAX_CODE_LEN` (R124). -/
abbrev GroupsFit (p : Params) (zs : List Nat) : Prop := ∀ l ∈ slotLengths p.lenCoding 0 zs, l ≤ p.maxCodeLen.val

/-- The trailing fields of an instruction fit their widths (R85, R88). -/
abbrev StreamInstr.FieldsFit (p : Params) (sel : Selector) : StreamInstr → Prop
  | .lit _            => True
  | .matchShort _ f   => f.WF p
  | .matchLong k lx f => lx < 2 ^ (p.lengthTable.entry k sel).extraBits.val ∧ f.WF p
  | .tableSwap zs     => GroupsFit p zs.toList
  | .endSegment       => True

/-- An instruction is well-formed under the table and directory it is coded for: its symbol has a code, and its fields fit. -/
def StreamInstr.WF (p : Params) (t : Table) (d : Directory) (i : StreamInstr) : Prop :=
  ∃ sel, CodedUnder t d i.symbol sel ∧ i.FieldsFit p sel

end Sys2Proof
end

