-- ==== Sys2Proof/Machine/State.lean ====
section
/-! DEFINITION. The state of an HDE and its host (10_state.md), the reasons a step can stop, and the state after reset (R38). -/

namespace Sys2Proof.Machine

/-- The conditions the engine reports (R220). Codes 9 to 15 are never produced. -/
inductive Condition where
  | none
  | outOfSyncSymbol
  | outputBufferExhausted
  | streamDesyncAtEnd
  | prematureEOF
  | backRefOutOfRange
  | tableFormatFault
  | configFault
  | iterationCapExceeded
deriving DecidableEq, Repr

/-- `ESTATE` (R28). TABLE_SWAP, BACK_REFERENCE and END_OF_STREAM are sub-states inside one iteration. -/
inductive EState where
  | idle
  | decoding
  | tableSwap
  | backReference
  | endOfStream
  | done
  | error
deriving DecidableEq, Repr

/-- What the host can do (R233). A register access carries its width in bytes, since an access that is not an aligned
32-bit one is a move the host can try and the block refuses (R66). R66 leaves the width and the alignment of a host access to
`SRCMEM` and `OUTMEM` to the platform: here every such access is one byte, a DESIGN CHOICE (log 25). -/
inductive HostAction where
  | writeReg (offset width : Nat) (value : Word)
  | readReg (offset width : Nat)
  | writeSrc (address : Nat) (value : Byte)
  | writeOut (offset : Nat) (value : Byte)
  | readOut (offset : Nat)
  | hardReset
deriving DecidableEq, Repr

/-- Whose turn it is: R20 gives HDE two agents, and R272 (b) lets the host act between two iterations (log 3). -/
inductive Turn where
  | engine
  | host (action : HostAction)
deriving DecidableEq, Repr

/-- The state of one HDE. Fields in capitals are the spec's registers under the spec's names. A natural-number field is a
count, an index or an offset, on which the rules compute without wrap (R8; log 17). -/
structure State where
  /-- `CTRL.LENIENT` (R31). -/
  LENIENT         : Bool
  /-- Host register 0x08 (R33). -/
  SRC_OFFSET      : Word
  /-- Host register 0x0C (R33). -/
  SRC_LENGTH      : Word
  /-- Host register 0x10 (R33). -/
  UNPACKED_LENGTH : Word
  /-- Latched `SRC_OFFSET`: the address in `SRCMEM` of source byte 0 (R22). -/
  OFF    : Nat
  /-- Latched `SRC_LENGTH`: the number of source bytes (R22). -/
  END    : Nat
  /-- The index of the next source byte not yet staged (R22). -/
  POS    : Nat
  /-- The staging register (R22). -/
  S      : Word
  /-- The number of valid staged bits, `S[V-1:0]` (R22). -/
  V      : Nat
  /-- The soft-fault flag (R23). -/
  SOFT   : Bool
  /-- The condition of the call (R23, R220). -/
  COND   : Condition
  /-- The value recorded with `COND` (R23, R222). -/
  INFO   : Word
  /-- Latched `CTRL.LENIENT` (R23). -/
  LEN    : Bool
  /-- The current Huffman table (R24). -/
  T      : Table
  /-- The symbol directory: `ASSIGN` and `FREQ` (R25). -/
  DIR    : Directory
  /-- The write offset (R26). -/
  WO     : Nat
  /-- Latched `UNPACKED_LENGTH` (R26). -/
  UL     : Nat
  /-- The engine's state (R28). -/
  ESTATE : EState
  /-- The iterations begun in the current call (R29). -/
  ITER   : Nat
  /-- The source memory (R60): its bytes that are not 0, in rising address order. -/
  SRCMEM : List Host.Cell
  /-- The output memory (R61): its bytes that are not 0, in rising offset order. -/
  OUTMEM : List Host.Cell
  /-- The constants and parameters (R5, R27). -/
  params : Params
  /-- The MODEL's own: the turns to come; when there are none left, every turn is the engine's (log 3). -/
  agenda : List Turn
  /-- The MODEL's own: what the host's latest read returned (log 3). -/
  lastRead : Word
  /-- The MODEL's own: how many free values have been drawn (log 8). -/
  draws  : Nat
deriving DecidableEq, Repr

/-- Why a step stops with a fault: an access to an address that does not exist. No instruction raises one on every path,
and none raises one in a call that START admitted (R64). -/
inductive Fault where
  /-- Raised by an engine read of, or a host write to, an address of `SRCMEM` at or above `P_SRC_SIZE` (R60; log 14). Safe:
  the model stops where the spec gives no behaviour. -/
  | srcNonexistent (address : Nat)
  /-- Raised by an engine or host access to an offset of `OUTMEM` at or above `P_OUT_CAPACITY` (R61; log 14). Safe, as above. -/
  | outNonexistent (offset : Nat)
  /-- Raised by a host access outside the 64-byte register block (R30, R62; log 16). Safe, as above. -/
  | registerNonexistent (offset : Nat)
deriving DecidableEq, Repr

/-- Why a step is refused: a case the spec tells a model to refuse, or says cannot arise. -/
inductive Refusal where
  /-- An instruction without a meaning yet. Raised by no arm of this model. Safe. -/
  | notModelled (mnemonic : String)
  /-- Raised by the decode step on a symbol `0x112..0x1FF` (R84 "a model needs no behaviour for them"; log 12). Safe: only a
  directory that is no permutation yields one. -/
  | unreachableSymbol (sym : Symbol)
  /-- Raised by START when the constants break their constraints (R263 "a model need not give it meaning"; log 13). Safe. -/
  | invalidConstants
  /-- Raised by a host register access that is not an aligned 32-bit one (R66 "refused: a model gives it no meaning"; log 16).
  Safe. -/
  | misalignedRegister (offset width : Nat)
  /-- Raised by a host write to the running call's source or output range (R71, R266; log 15). Safe for claims about hosts
  that keep R71, the only hosts the spec admits. -/
  | memoryWriteWhileBusy (address : Nat)
  /-- Raised by the engine's turn when `ESTATE` is a sub-state, which no iteration leaves behind (R28, R272; log 2). Safe. -/
  | midIteration
deriving DecidableEq, Repr

/-- The state after hardware reset at power-on (R38, R260). The spec gives no value to the per-call registers `OFF`, `END`,
`POS`, `S`, `V`, `LEN`, `T`, `DIR`, `WO`, `UL`, which no rule reads before START loads them: they hold 0, and `T` and `DIR`
the plainest values that meet R24 and R25 (log 6, DESIGN CHOICE). Both memories list nothing (log 7). -/
def State.reset : State :=
  { LENIENT := true, SRC_OFFSET := 0, SRC_LENGTH := 0, UNPACKED_LENGTH := 0
    OFF := 0, END := 0, POS := 0, S := 0, V := 0
    SOFT := false, COND := .none, INFO := 0, LEN := false
    T := Table.ofLengths (Vector.replicate 16 0)
    DIR := { ASSIGN := identityAssign, FREQ := Vector.replicate nsym 0 }
    WO := 0, UL := 0, ESTATE := .idle, ITER := 0
    SRCMEM := [], OUTMEM := []
    params := Config.params
    agenda := [], lastRead := 0, draws := 0 }

end Sys2Proof.Machine
end

