-- ==== Sys2Proof/Machine/Ops.lean ====
section
/-! DEFINITION. The shared operations: byte memory, the named updates of the state, the engine's computations, and ending a
call: `raise` and `finish` (R167, R223), with START's load of the per-call state (R39) as the way out of an ended call (R227). -/

namespace Sys2Proof.Machine

/-! ### Byte memory: a list of (address, byte) pairs in one canonical form -/

/-- What an address that is not listed reads as (log 7, DESIGN CHOICE). -/
def Memory.unlisted : Byte := 0

/-- The byte at an address. -/
def Memory.read : List Host.Cell → Nat → Byte
  | [], _ => Memory.unlisted
  | (k, b) :: rest, a => if k = a then b else Memory.read rest a

/-- The memory with one byte replaced; the canonical form is kept, so a byte equal to the unlisted one is not listed. -/
def Memory.write : List Host.Cell → Nat → Byte → List Host.Cell
  | [], a, v => if v = Memory.unlisted then [] else [(a, v)]
  | (k, b) :: rest, a, v =>
    if a < k then (if v = Memory.unlisted then (k, b) :: rest else (a, v) :: (k, b) :: rest)
    else if a = k then (if v = Memory.unlisted then rest else (a, v) :: rest)
    else (k, b) :: Memory.write rest a v

/-- The canonical form: addresses strictly rising, no entry equal to what an unlisted address reads as. -/
abbrev Memory.wf (m : List Host.Cell) : Prop :=
  m.Pairwise (fun c c' => c.1 < c'.1) ∧ ∀ c ∈ m, c.2 ≠ Memory.unlisted

/-- The memory with a byte string stored from an address on. -/
def Memory.load (m : List Host.Cell) : Nat → List Byte → List Host.Cell
  | _, [] => m
  | a, b :: bytes => Memory.load (Memory.write m a b) (a + 1) bytes

/-- The memory with `n` bytes from offset 0 replaced by free values, the draws numbered from `draw` on (R261). -/
def Memory.scramble (m : List Host.Cell) (draw : Nat) : (n : Nat) → List Host.Cell
  | 0 => m
  | n + 1 => Memory.write (Memory.scramble m draw n) n (Config.freeByte (draw + n))

/-! ### The named updates of the state -/

/-- Staging one source byte (R100): `S <- (S << 8) | byte`, `POS <- POS + 1`, `V <- V + 8`. -/
def State.stage (s : State) (b : Byte) : State :=
  { s with S := s.S <<< 8 ||| b.zeroExtend 32, POS := s.POS + 1, V := s.V + 8 }

/-- Taking `n` staged bits (R100): `V <- V - n`. -/
def State.consume (s : State) (n : Nat) : State := { s with V := s.V - n }

/-- An underflow's effect on flag and cursor (R103, R104). -/
def State.softFault (s : State) : State :=
  { s with SOFT := true, V := if s.params.underflowDrain then 0 else s.V }

/-- `resetBitBuffer` (R108): `POS <- POS - (V div 8)`, `V <- 0`. -/
def State.realign (s : State) : State := { s with POS := s.POS - s.V / 8, V := 0 }

/-- `OutWrite(WO, v)`, `WO <- WO + 1` (R190). -/
def State.emit (s : State) (v : Byte) : State :=
  { s with OUTMEM := Memory.write s.OUTMEM s.WO v, WO := s.WO + 1 }

/-- A new symbol directory (R142, R143). -/
def State.withDir (s : State) (d : Directory) : State := { s with DIR := d }

/-- A new Huffman table (R126). -/
def State.withTable (s : State) (t : Table) : State := { s with T := t }

/-- A new engine state (R28). -/
def State.withEState (s : State) (e : EState) : State := { s with ESTATE := e }

/-- `ITER <- ITER + 1` (R161). -/
def State.countIteration (s : State) : State := { s with ITER := s.ITER + 1 }

/-- The end of a call (R167, R223): `COND`, `INFO` and `ESTATE` are set, nothing else changes. -/
def State.endCall (s : State) (code : Condition) (info : Word) (e : EState) : State :=
  { s with COND := code, INFO := info, ESTATE := e }

/-! ### Queries (R106, R107, R190): pure reads -/

/-- The bit reader's `eof()` (R106). -/
def State.sourceEof (s : State) : Bool := s.V == 0 && s.POS == s.END

/-- `sourceLeft()` (R107). -/
def State.sourceLeft (s : State) : Nat := s.END - s.POS

/-- The writer's `eof()`: the cursor reached the declared length (R190). -/
def State.outputFull (s : State) : Bool := s.WO == s.UL

/-- The writer's `getWriteOffset()` (R190). -/
def State.getWriteOffset (s : State) : Nat := s.WO

/-- The writer's `getLength()` (R190). -/
def State.getLength (s : State) : Nat := s.UL

/-- The writer's `getLeftSize()`, `UL - WO` (R190; log 21). -/
def State.getLeftSize (s : State) : Nat := s.UL - s.WO

/-! ### Computations of the engine -/

/-- Why a computation of the engine does not run on: the call has ended (the state it ended in is the one carried along,
R224), or the model stops. -/
inductive Stop where
  | callEnded
  | fault (r : Fault)
  | refused (r : Refusal)
deriving DecidableEq, Repr

/-- A computation of the engine: it yields a value and the next state, or stops in the state reached so far. -/
abbrev Engine := EStateM Stop State

/-- The outcome of a step that runs a computation: a call that has ended is an ordinary next state (R221, R223). -/
def outcomeOf (m : Engine Unit) (s : State) : Host.Outcome State Fault Refusal :=
  match m s with
  | .ok _ s'               => .next s'
  | .error .callEnded s'   => .next s'
  | .error (.fault r) _    => .fault r
  | .error (.refused r) _  => .refused r

/-- An access to an address that does not exist (log 14). -/
def stopFault {α : Type} (r : Fault) : Engine α := fun s => .error (.fault r) s

/-- A case the spec tells a model to refuse. -/
def refuse {α : Type} (r : Refusal) : Engine α := fun s => .error (.refused r) s

/-- `raise Fault(code, info)` (R223): the call ends at once in ERROR; nothing is saved and nothing is undone. -/
def raise {α : Type} (code : Condition) (info : Word) : Engine α :=
  fun s => .error .callEnded (s.endCall code info .error)

/-- `finish(code, info)` (R167): the call ends in DONE. -/
def finish {α : Type} (code : Condition) (info : Word) : Engine α :=
  fun s => .error .callEnded (s.endCall code info .done)

/-- PrematureEOF with its one meaning of `INFO`, `UL - WO` (R220; 90_conflicts.md C12). -/
def raisePrematureEOF {α : Type} : Engine α :=
  fun s => raise .prematureEOF (BitVec.ofNat 32 s.getLeftSize) s

/-- The per-call state that START loads (R39), with `ESTATE <- DECODING` (R160): every item fresh, so nothing of an ended
call crosses into the next one (R227). -/
def State.latch (s : State) : State :=
  { s with
    OFF := s.SRC_OFFSET.toNat, END := s.SRC_LENGTH.toNat, UL := s.UNPACKED_LENGTH.toNat, LEN := s.LENIENT
    POS := 0, S := 0, V := 0, WO := 0
    T := s.params.defaultTable, DIR := s.params.initDirectory
    SOFT := false, COND := .none, INFO := 0, ITER := 0, ESTATE := .decoding }

/-! ### Accesses to the two memories: one byte each (R67) -/

/-- `SrcRead(a)` (R60). -/
def srcRead (a : Nat) : Engine Byte := fun s =>
  if a < s.params.srcSize then .ok (Memory.read s.SRCMEM a) s else stopFault (.srcNonexistent a) s

/-- `OutRead(p)` (R61). -/
def outRead (p : Nat) : Engine Byte := fun s =>
  if p < s.params.outCapacity then .ok (Memory.read s.OUTMEM p) s else stopFault (.outNonexistent p) s

/-- `setByte(v)` (R190): `remaining` is what OutputBufferExhausted records, the bytes of the instruction not written (R197). -/
def setByte (v : Byte) (remaining : Nat) : Engine Unit := fun s =>
  if s.WO = s.UL then raise .outputBufferExhausted (BitVec.ofNat 32 remaining) s
  else if s.WO < s.params.outCapacity then .ok () (s.emit v)
  else stopFault (.outNonexistent s.WO) s

/-- `getByte(p)` (R191): `p` is a signed integer; out of range, `INFO` is `p mod 2^32` (R222). -/
def getByte (p : Int) : Engine Byte := fun s =>
  if p < 0 ∨ p ≥ s.WO then raise .backRefOutOfRange (BitVec.ofInt 32 p) s else outRead p.toNat s

end Sys2Proof.Machine
end

