-- ==== Sys2Proof/Machine/Flags.lean ====
section
/-! DEFINITION. The status items as the host sees them: condition codes, `STATUS.STATE`, and the words the eight registers
read as (R28, R30 to R37, R220). The stream has no arithmetic flag (R23). -/

namespace Sys2Proof.Machine

/-- The 4-bit code of a condition (R220). -/
def Condition.code : Condition → BitVec 4
  | .none                  => 0
  | .outOfSyncSymbol       => 1
  | .outputBufferExhausted => 2
  | .streamDesyncAtEnd     => 3
  | .prematureEOF          => 4
  | .backRefOutOfRange     => 5
  | .tableFormatFault      => 6
  | .configFault           => 7
  | .iterationCapExceeded  => 8

/-- A fatal condition ends the call in ERROR; NONE and StreamDesyncAtEnd end it in DONE (R220, R221). -/
def Condition.fatal : Condition → Bool
  | .none | .streamDesyncAtEnd => false
  | .outOfSyncSymbol | .outputBufferExhausted | .prematureEOF | .backRefOutOfRange
  | .tableFormatFault | .configFault | .iterationCapExceeded => true

/-- The 2-bit `STATUS.STATE` of an engine state (R28, R32). -/
def EState.code : EState → BitVec 2
  | .idle                                                    => 0
  | .decoding | .tableSwap | .backReference | .endOfStream   => 1
  | .done                                                    => 2
  | .error                                                   => 3

/-- `STATUS.STATE` is BUSY (R28). -/
def EState.busy (e : EState) : Bool := e.code == 1

/-- `STATUS.STATE` of the machine is BUSY. -/
def State.busy (s : State) : Bool := s.ESTATE.busy

/-- A STATUS word from its fields: `STATE` in bits 1:0, `SOFT_FAULT` in bit 2, `COND` in bits 7:4, the rest 0 (R32). -/
def statusWord (state : BitVec 2) (soft : Bool) (cond : BitVec 4) : Word :=
  (0#24 ++ cond ++ 0#1 ++ BitVec.ofBool soft ++ state : BitVec 32)

/-- CTRL as it reads: START reads 0, LENIENT in bit 1, the rest 0 (R31). -/
def State.ctrlWord (s : State) : Word := (0#30 ++ BitVec.ofBool s.LENIENT ++ 0#1 : BitVec 32)

/-- STATUS while the engine is not busy (R32). -/
def State.statusValue (s : State) : Word := statusWord s.ESTATE.code s.SOFT s.COND.code

/-- STATUS while the engine is busy: STATE is 1, the reserved bits are 0, `SOFT_FAULT` and `COND` are any value (R32, R37;
log 24). -/
def State.statusBusy (draw : Word) : Word :=
  statusWord 1 (draw.getLsbD 2) (draw.extractLsb' 4 4)

/-- OUT_COUNT: `WO`, and 0 in IDLE (R34). -/
def State.outCount (s : State) : Word := if s.ESTATE = .idle then 0 else BitVec.ofNat 32 s.WO

/-- SRC_LEFT: `END - POS`, and 0 in IDLE (R35). -/
def State.srcLeft (s : State) : Word := if s.ESTATE = .idle then 0 else BitVec.ofNat 32 s.sourceLeft

end Sys2Proof.Machine
end

