-- ==== Sys2Proof/Machine/Reader.lean ====
section
/-! DEFINITION. The bit-level stream parser (40_bit_reader.md): `read`, its refill and underflow, and `resetBitBuffer`. -/

namespace Sys2Proof.Machine

/-- The refill loop of `read(n)` (R100): one source byte at a time while too few bits are staged. Every round stages 8 bits,
so `n` rounds are enough and `fuel = n` never runs out. -/
def refill (n : Nat) : (fuel : Nat) → Engine Unit
  | 0 => pure ()
  | fuel + 1 => do
    let s ← get
    if s.V < n ∧ s.POS < s.END then
      let b ← srcRead (s.OFF + s.POS)
      modify (·.stage b)
      refill n fuel
    else
      pure ()

/-- `underflow(n)` (R103, R104, R105): the soft-fault flag, the drain, and in strict mode PrematureEOF. -/
def underflow : Engine Unit := do
  modify (·.softFault)
  let s ← get
  if s.LEN then pure () else raisePrematureEOF

/-- `read(n)`, with `none` for a read that underflowed: only a unary group tells that apart from a 0 (R125). -/
def readChecked (n : Nat) : Engine (Option Nat) := do
  refill n n
  let s ← get
  if s.V < n then
    underflow
    pure none
  else
    set (s.consume n)
    pure (some (s.S >>> (s.V - n) &&& BitVec.ofNat 32 (2 ^ n - 1)).toNat)

/-- `read(n)` for `0 <= n <= 24` (R100 to R105): the next `n` bits, first bit most significant; an underflowing read gives 0. -/
def read (n : Nat) : Engine Nat := do
  let r ← readChecked n
  pure (r.getD 0)

/-- `resetBitBuffer()` (R108). -/
def resetBitBuffer : Engine Unit := modify (·.realign)

/-! ### The bits ahead of the cursor, for statements about the reader (R110) -/

/-- Bit `k` of the source range, `B(k)`: bit `7 - (k mod 8)` of source byte `k div 8` (R110, R10). -/
def State.sourceBit (s : State) (k : Nat) : Bool :=
  (Memory.read s.SRCMEM (s.OFF + k / 8)).getLsbD (7 - k % 8)

/-- The stream position in bits, `8*POS - V` (R22). -/
def State.cursor (s : State) : Nat := 8 * s.POS - s.V

/-- The source bytes not yet staged. -/
def State.unstaged (s : State) : List Byte :=
  (List.range (s.END - s.POS)).map fun i => Memory.read s.SRCMEM (s.OFF + s.POS + i)

/-- Every bit the reader has still to take, in stream order: the staged bits `S[V-1:0]`, then the bytes not yet staged
(R40, R100). -/
def State.unread (s : State) : List Bool := bitsOf s.V s.S.toNat ++ bitsOfBytes s.unstaged

/-- What a lenient read takes from a bit string (R103, R104): the next `n` bits if they are there, else 0, with every bit left
dropped if underflows drain and kept if they do not. -/
def lenientTake (drain : Bool) (n : Nat) (bits : List Bool) : Nat × List Bool :=
  (takeBits n bits).getD (0, if drain then [] else bits)

end Sys2Proof.Machine
end

