-- ==== Sys2Proof/Machine/Operands.lean ====
section
/-! DEFINITION. Operand assembly: copy lengths (R86, R192, R193, R199) and the distance sub-step (R87, R194). -/

namespace Sys2Proof.Machine

/-- The length of a short match: `4 + k`, 4 to 11 (R192). -/
def shortLength (k : BitVec 3) : Nat := 4 + k.toNat

/-- The length of a long match: `4 + (LT[li].base + read(LT[li].extraBits))` (R193). -/
def longLength (k : BitVec 3) (sel : Selector) : Engine Nat := do
  let s ← get
  let e := s.params.lengthTable.entry k sel
  let lx ← read e.extraBits.val
  pure (4 + (e.base.val + lx))

/-- The distance that the fields stand for: `(lo | (hi << db)) + (DT[ds].base << 9)` (R87). -/
def distanceOf (p : Params) (ds : BitVec 3) (hi lo : Nat) : Nat :=
  (lo ||| hi <<< p.lowWidth ds) + (p.distanceEntry ds).base.val <<< 9

/-- The distance of an instruction's distance fields. -/
def fieldsDistance (p : Params) (f : DistanceFields) : Nat := distanceOf p f.ds f.hi.toNat f.lo

/-- `distance()` (R194): reads `ds`, `hi`, `lo`, and returns the signed source position `WO - dist`. -/
def distance : Engine Int := do
  let ds := BitVec.ofNat 3 (← read 3)
  let p := (← get).params
  let hi ← read 8
  let lo ← read (p.lowWidth ds)
  let s ← get
  pure ((s.WO : Int) - distanceOf p ds hi lo)

/-- R90's pseudo-instruction `MATCH n, d`: the instructions it may stand for when coded under selector `sel`. -/
def isMatch (p : Params) (sel : Selector) (n d : Nat) : StreamInstr → Bool
  | .matchShort k f   => shortLength k == n && fieldsDistance p f == d
  | .matchLong k lx f =>
    !(4 ≤ n && n ≤ 11) && 4 + ((p.lengthTable.entry k sel).base.val + lx) == n && fieldsDistance p f == d
  | .lit _ | .tableSwap _ | .endSegment => false

end Sys2Proof.Machine
end

