-- ==== Sys2Proof/Machine/Directory.lean ====
section
/-! DEFINITION. The adaptive symbol directory (42_symbol_directory.md): `resolve`, `recordUse`, `reorder`. -/

namespace Sys2Proof.Machine

/-- The directory with the use of symbol `y` counted: `FREQ[y] <- FREQ[y] + 1` (R142). -/
def countUse (d : Directory) (y : Symbol) : Directory :=
  if h : y.toNat < nsym then { d with FREQ := d.FREQ.set y.toNat (d.FREQ[y.toNat] + 1) } else d

/-- `resolve(idx)` (R141), after the index check of R83: `idx >= 0x112` raises OutOfSyncSymbol with `INFO = idx`. -/
def resolve (idx : Nat) : Engine Symbol := fun s =>
  if h : idx < nsym then .ok s.DIR.ASSIGN[idx] s else raise .outOfSyncSymbol (BitVec.ofNat 32 idx) s

/-- `recordUse(sym)` (R142). -/
def recordUse (y : Symbol) : Engine Unit := modify fun s => s.withDir (countUse s.DIR y)

/-- `reorder()` (R143) under a given reorder function. -/
def reorderBy (f : Directory → Directory) : Engine Unit := modify fun s => s.withDir (f s.DIR)

/-- `reorder()`: `(ASSIGN, FREQ) <- P_REORDER(ASSIGN, FREQ)` (R143). -/
def reorder : Engine Unit := reorderBy Config.reorder

end Sys2Proof.Machine
end

