-- ==== Sys2Proof/Machine/TableBuild.lean ====
section
/-! DEFINITION. The construction sub-protocol of a table swap (41_table_descriptor.md, R122). -/

namespace Sys2Proof.Machine

/-- The unary loop of one slot (R122): `z` zeros have been counted. A zero that would make the slot's length exceed
`P_MAX_CODE_LEN` raises TableFormatFault (R124); a read that underflows raises PrematureEOF in lenient mode too (R125). `fuel = 25 - z`
suffices, since at 25 zeros every length exceeds it. -/
def unaryGroup (p : Params) (lrun slot : Nat) : (fuel z : Nat) → Engine Nat
  | 0, _ => raise .tableFormatFault (BitVec.ofNat 32 slot)
  | fuel + 1, z => do
    match ← readChecked 1 with
    | none => raisePrematureEOF
    | some b =>
      if b = 1 then pure z
      else if p.lenCoding.lengthOf lrun (z + 1) > p.maxCodeLen.val then raise .tableFormatFault (BitVec.ofNat 32 slot)
      else unaryGroup p lrun slot fuel (z + 1)

/-- The slots of a table description from slot `slot` on (R122): `lrun` is the running length, `run` the running base, `new`
the descriptor built so far. -/
def buildSlots (p : Params) : (slots slot lrun run : Nat) → (new : Table) → Engine Table
  | 0, _, _, _, new => pure new
  | slots + 1, slot, lrun, run, new => do
    let z ← unaryGroup p lrun slot 25 0
    let l := p.lenCoding.lengthOf lrun z
    buildSlots p slots (slot + 1) l (run + 2 ^ l)
      { len := new.len.setIfInBounds slot (Fin.ofNat 25 l), base := new.base.setIfInBounds slot run }

/-- `build_table()` (R122): the new descriptor replaces `T` only after all 16 slots are read (R126). -/
def buildTable : Engine Unit := do
  let s ← get
  let new ← buildSlots s.params 16 0 0 0 s.T
  modify (·.withTable new)

end Sys2Proof.Machine
end

