-- ==== Sys2Proof/Machine/Literal.lean ====
section
/-! DEFINITION. LIT (43_decode_loop.md R164). -/

namespace Sys2Proof.Machine

/-- LIT (R164): append one literal byte. -/
def execLit (b : Byte) (s : State) : Host.Outcome State Fault Refusal :=
  outcomeOf (setByte b 1) s

end Sys2Proof.Machine
end

