-- ==== Sys2Proof/Machine/BackReference.lean ====
section
/-! DEFINITION. The back-reference copy unit and the two match instructions (44_backref_copy.md R192 to R198). -/

namespace Sys2Proof.Machine

/-- `copy(src, n)` (R195): one byte at a time; each source byte is read after every earlier byte of the same copy has been
written. The first argument is the number of bytes still to be written, what OutputBufferExhausted records (R197). -/
def copy : (n : Nat) → (src : Int) → Engine Unit
  | 0, _ => pure ()
  | n + 1, src => do
    let b ← getByte src
    setByte b (n + 1)
    copy n (src + 1)

/-- MATCH_SHORT (R192): copy `4 + k` bytes from `dist` bytes back. -/
def execMatchShort (k : BitVec 3) (s : State) : Host.Outcome State Fault Refusal :=
  outcomeOf (do
    modify (·.withEState .backReference)
    let src ← distance
    copy (shortLength k) src
    modify (·.withEState .decoding)) s

/-- MATCH_LONG (R193): the length's extra bits come first, then the distance fields, then the copy. -/
def execMatchLong (k : BitVec 3) (sel : Selector) (s : State) : Host.Outcome State Fault Refusal :=
  outcomeOf (do
    modify (·.withEState .backReference)
    let n ← longLength k sel
    let src ← distance
    copy n src
    modify (·.withEState .decoding)) s

end Sys2Proof.Machine
end

