-- ==== Sys2Proof/Machine/Control.lean ====
section
/-! DEFINITION. The control instructions TABLE_SWAP and END_SEGMENT (43_decode_loop.md R165, R166). -/

namespace Sys2Proof.Machine

/-- TABLE_SWAP's computation under a given reorder function: the reorder comes before the table description is read (R144,
R165). -/
def tableSwapBy (f : Directory → Directory) : Engine Unit := do
  modify (·.withEState .tableSwap)
  reorderBy f
  buildTable
  modify (·.withEState .decoding)

/-- TABLE_SWAP (R165): reorder the directory by `P_REORDER`, then read and install a new table. -/
def execTableSwap (s : State) : Host.Outcome State Fault Refusal :=
  outcomeOf (tableSwapBy Config.reorder) s

/-- END_SEGMENT (R166): a sub-segment boundary if more than `P_SEGMENT_THRESHOLD` source bytes are left and the output is
not full, else the end of the stream. -/
def execEndSegment (s : State) : Host.Outcome State Fault Refusal :=
  outcomeOf (do
    modify (·.withEState .endOfStream)
    let s ← get
    if s.sourceLeft > s.params.segmentThreshold ∧ s.WO < s.UL then
      resetBitBuffer
      modify (·.withEState .decoding)
    else if s.WO < s.UL then
      finish .streamDesyncAtEnd (BitVec.ofNat 32 s.getLeftSize)
    else
      finish .none 0) s

end Sys2Proof.Machine
end

