-- ==== Sys2Proof/Machine/Dispatch.lean ====
section
/-! DEFINITION. The dispatch: one arm per instruction (R163). -/

namespace Sys2Proof.Machine

def exec (i : Instr) (s : State) : Host.Outcome State Fault Refusal :=
  match i with
  | .lit b => Sys2Proof.Machine.execLit b s
  | .matchShort k => Sys2Proof.Machine.execMatchShort k s
  | .matchLong k sel => Sys2Proof.Machine.execMatchLong k sel s
  | .tableSwap => Sys2Proof.Machine.execTableSwap s
  | .endSegment => Sys2Proof.Machine.execEndSegment s

end Sys2Proof.Machine
end

