-- ==== Sys2Proof/Machine/Fetch.lean ====
section
/-! DEFINITION. The part of an iteration before its instruction runs: the loop-top checks (R161, R170) and the symbol decode
(R162, steps 1 to 4). -/

namespace Sys2Proof.Machine

/-- The iteration cap is reached: `P_ITER_CAP` is a function and as many iterations as it allows have begun (R170). -/
def State.capReached (s : State) : Bool :=
  match s.params.iterCap with
  | none     => false
  | some cap => cap.limit s.UL ≤ s.ITER

/-- The `INFO` of IterationCapExceeded (R170, R222): `ITER` as a 32-bit unsigned number. For `ITER` at or above 2^32, where R222
gives no value, a free value (DESIGN CHOICE, safe; log 27). -/
def iterationInfo (iter : Nat) : Word :=
  if iter < 2 ^ 32 then BitVec.ofNat 32 iter else Config.wideIteration iter

/-- The checks at the top of the loop, in order (R161, R225): output full, input exhausted, iteration cap (R170), which records
`iterationInfo` (log 27); then the iteration is counted. -/
def loopTop : Engine Unit := do
  let s ← get
  if s.outputFull then finish .none 0
  else if s.sourceEof then raisePrematureEOF
  else if s.capReached then raise .iterationCapExceeded (iterationInfo s.ITER)
  else set s.countIteration

/-- The symbol decode (R162): the selector, the offset, the index check of R83, `resolve`, `recordUse`; then the class of the
symbol (R163). A symbol no permutation yields is refused before anything counts it (R84; log 12). -/
def fetch : Engine Instr := do
  let sel := BitVec.ofNat 4 (← read 4)
  let t := (← get).T
  let off ← read (t.lenAt sel)
  let sym ← resolve (t.baseAt sel + off)
  match decodeSymbol sym sel with
  | .error _ => refuse (.unreachableSymbol sym)
  | .ok i =>
    recordUse sym
    pure i

/-- The engine's turn up to the dispatch: the loop top and then the symbol decode. -/
def nextInstr : Engine Instr := do
  loopTop
  fetch

end Sys2Proof.Machine
end

