-- ==== Sys2Proof/Machine/HostPort.lean ====
section
/-! DEFINITION. The host's side (R30 to R39, R66, R70, R71, R160, R233, R260, R261): register accesses, START, memory
accesses, hardware reset. -/

namespace Sys2Proof.Machine

/-- The bits of a ConfigFault's `INFO`: bit 0 the source range, bit 1 the output length (R160, R220). -/
def configFaultBits (s : State) : Word :=
  (if s.OFF + s.END > s.params.srcSize then 1 else 0) ||| (if s.UL > s.params.outCapacity then 2 else 0)

/-- START (R160) in a state that is not busy: latch the per-call state, then check the ranges (R64). The loop runs in the
engine's turns. Constants that break their constraints give a START no meaning (R263; log 13). -/
def start (s : State) : Host.Outcome State Fault Refusal :=
  if s.params.WF then
    let s := s.latch
    if configFaultBits s = 0 then .next s
    else .next (s.endCall .configFault (configFaultBits s) .error)
  else .refused .invalidConstants

/-- A write of CTRL (R31, R160, R233): LENIENT is stored first, then a START bit begins a call unless one is running. -/
def writeCtrl (v : Word) (s : State) : Host.Outcome State Fault Refusal :=
  let s := { s with LENIENT := v.getLsbD 1 }
  if v.getLsbD 0 ∧ ¬s.busy then start s else .next s

/-- The effect of an aligned 32-bit register write inside the block (R30, R33, R233): read-only and reserved offsets ignore
writes. -/
def writeWord (offset : Nat) (v : Word) (s : State) : Host.Outcome State Fault Refusal :=
  match offset with
  | 0x00 => writeCtrl v s
  | 0x08 => .next { s with SRC_OFFSET := v }
  | 0x0C => .next { s with SRC_LENGTH := v }
  | 0x10 => .next { s with UNPACKED_LENGTH := v }
  | _    => .next s

/-- The host sees `w`. -/
def State.withLastRead (s : State) (w : Word) : State := { s with lastRead := w }

/-- The host sees a word made from a free value, one draw (R37; log 8). -/
def State.drawWord (s : State) (f : Word → Word) : State :=
  { s with lastRead := f (Config.freeWord s.draws), draws := s.draws + 1 }

/-- A read of a result register: its final value, or any value while the engine is busy (R37). -/
def readResult (value : Word) (busyValue : Word → Word) (s : State) : State :=
  if s.busy then s.drawWord busyValue else s.withLastRead value

/-- The effect of an aligned 32-bit register read inside the block (R30 to R37): reserved offsets read 0. -/
def readWord (offset : Nat) (s : State) : State :=
  match offset with
  | 0x00 => s.withLastRead s.ctrlWord
  | 0x04 => readResult s.statusValue State.statusBusy s
  | 0x08 => s.withLastRead s.SRC_OFFSET
  | 0x0C => s.withLastRead s.SRC_LENGTH
  | 0x10 => s.withLastRead s.UNPACKED_LENGTH
  | 0x14 => readResult s.outCount id s
  | 0x18 => readResult s.srcLeft id s
  | 0x1C => readResult s.INFO id s
  | _    => s.withLastRead 0

/-- An access to the register block (R30, R66): 4 bytes wide, 4-byte aligned, inside the 64-byte block. -/
def accessRegister (offset width : Nat) (effect : State → Host.Outcome State Fault Refusal) (s : State) :
    Host.Outcome State Fault Refusal :=
  if width ≠ 4 ∨ offset % 4 ≠ 0 then .refused (.misalignedRegister offset width)
  else if offset ≥ 0x40 then .fault (.registerNonexistent offset)
  else effect s

/-- A host write of one byte (log 25) to `SRCMEM` (R70, R71): not to the running call's source range (log 15). -/
def hostWriteSrc (a : Nat) (v : Byte) (s : State) : Host.Outcome State Fault Refusal :=
  if a ≥ s.params.srcSize then .fault (.srcNonexistent a)
  else if s.busy ∧ s.OFF ≤ a ∧ a < s.OFF + s.END then .refused (.memoryWriteWhileBusy a)
  else .next { s with SRCMEM := Memory.write s.SRCMEM a v }

/-- A host write of one byte (log 25) to `OUTMEM` (R70, R71): not to the running call's output range (log 15). -/
def hostWriteOut (p : Nat) (v : Byte) (s : State) : Host.Outcome State Fault Refusal :=
  if p ≥ s.params.outCapacity then .fault (.outNonexistent p)
  else if s.busy ∧ p < s.UL then .refused (.memoryWriteWhileBusy p)
  else .next { s with OUTMEM := Memory.write s.OUTMEM p v }

/-- A host read of one byte (log 25) of `OUTMEM`: the byte, or any value while the engine is busy (R71). -/
def hostReadOut (p : Nat) (s : State) : Host.Outcome State Fault Refusal :=
  if p ≥ s.params.outCapacity then .fault (.outNonexistent p)
  else if s.busy then
    .next { s with lastRead := (Config.freeByte s.draws).zeroExtend 32, draws := s.draws + 1 }
  else .next (s.withLastRead ((Memory.read s.OUTMEM p).zeroExtend 32))

/-- `OUTMEM` and the draws after a reset: unchanged, but a reset of a running call leaves its output range at any value
(R260, R261; log 19). -/
def State.abandonOutput (s : State) : State :=
  if s.busy then { s with OUTMEM := Memory.scramble s.OUTMEM s.draws s.UL, draws := s.draws + s.UL } else s

/-- Hardware reset (R260, R261): IDLE with the values of R38; the constants and the memories stay, and the model's own
fields. -/
def hardReset (s : State) : State :=
  let s := s.abandonOutput
  { State.reset with
    SRCMEM := s.SRCMEM, OUTMEM := s.OUTMEM, params := s.params
    agenda := s.agenda, lastRead := s.lastRead, draws := s.draws }

/-- A turn of the host (R233). -/
def hostTurn (a : HostAction) (s : State) : Host.Outcome State Fault Refusal :=
  match a with
  | .writeReg offset width v => accessRegister offset width (writeWord offset v) s
  | .readReg offset width    => accessRegister offset width (fun s => .next (readWord offset s)) s
  | .writeSrc a v            => hostWriteSrc a v s
  | .writeOut p v            => hostWriteOut p v s
  | .readOut p               => hostReadOut p s
  | .hardReset               => .next (hardReset s)

/-! ### Placing an instruction where the engine fetches next (log 9) -/

/-- The number of source bytes that `State.withFetchWord` provides: 64, more than any instruction has. -/
def fetchBytes : Nat := 64

/-- The host's sequence R262 up to START, for a stream of `fetchBytes` bytes at address 0 of `SRCMEM`: valid constants in
place of the uninterpreted ones (TC's, with default table `t`), the bytes and the three inputs written, the call started. -/
def State.startOn (s : State) (t : Table) (bits : List Bool) : State :=
  State.latch
    { s with
      params := { s.params with
        defaultTable := t, initDirectory := Config.tcDirectory
        lengthTable := Config.tc.lengthTable, distanceTable := Config.tc.distanceTable
        srcSize := Config.tc.srcSize, outCapacity := Config.tc.outCapacity }
      SRCMEM := Memory.load s.SRCMEM 0 (bytesOfBits fetchBytes bits)
      SRC_OFFSET := 0, SRC_LENGTH := BitVec.ofNat 32 fetchBytes
      UNPACKED_LENGTH := BitVec.ofNat 32 Config.tc.outCapacity
      agenda := [] }

end Sys2Proof.Machine
end

