-- ==== Sys2Proof/Machine/Step.lean ====
section
/-! DEFINITION. The step: one turn of the engine or of the host (R20, R272 (b)). -/

namespace Sys2Proof.Machine

/-- The engine's turn (R161, R232): one pass of the loop while a call runs, nothing outside a call. No iteration leaves a
sub-state behind (R272; log 2). -/
def engineTurn (s : State) : Host.Outcome State Fault Refusal :=
  match s.ESTATE with
  | .idle | .done | .error => .next s
  | .tableSwap | .backReference | .endOfStream => .refused .midIteration
  | .decoding =>
    match nextInstr s with
    | .ok i s'              => exec i s'
    | .error .callEnded s'  => .next s'
    | .error (.fault r) _   => .fault r
    | .error (.refused r) _ => .refused r

/-- Whose turn is next: the first of the agenda, the engine's when none is left (log 3). -/
def State.nextTurn (s : State) : Turn := s.agenda.head?.getD .engine

/-- The state with the next turn taken off the agenda. -/
def State.turnTaken (s : State) : State := { s with agenda := s.agenda.tail }

/-- One step: the next turn. -/
def step (s : State) : Host.Outcome State Fault Refusal :=
  match s.nextTurn with
  | .engine => engineTurn s.turnTaken
  | .host a => hostTurn a s.turnTaken

/-- The machine with the instruction of a table word where the engine fetches next: a call just started on the stream that
the word stands for, under the table that codes every symbol by its own 9 bits (log 9, log 10). -/
def State.withFetchWord (s : State) (nbits w : Nat) : State :=
  s.startOn wordTable (tableWordBits nbits w)

end Sys2Proof.Machine
end

