-- ==== Sys2Proof/Safety.lean ====
section
/-! DEFINITION. What a legal state of HDE is: the invariants the spec states of its registers, tables, memories and engine
states, in the terms the claims use. -/

namespace Sys2Proof.Machine

/-- R40, R110: while a call runs, the valid bits of the staging register are the `V` source bits before byte `POS`, so that
`8*POS - V` is the position in the stream. -/
abbrev State.StagedFromSource (s : State) : Prop :=
  s.V ≤ 8 * s.POS ∧ ∀ j < s.V, s.S.getLsbD j = s.sourceBit (8 * s.POS - 1 - j)

/-- R64: the running call's ranges fit the two memories. -/
abbrev State.Admitted (s : State) : Prop :=
  s.OFF + s.END ≤ s.params.srcSize ∧ s.UL ≤ s.params.outCapacity

/-- What a read needs of the state: the staging register's invariant (R22), and a source range that exists (R64). -/
abbrev State.Readable (s : State) : Prop := s.V < 32 ∧ s.OFF + s.END ≤ s.params.srcSize

/-- The engine state is one that an iteration leaves behind (R28, R272). -/
abbrev State.AtIterationBoundary (s : State) : Prop :=
  s.ESTATE = .idle ∨ s.ESTATE = .decoding ∨ s.ESTATE = .done ∨ s.ESTATE = .error

/-- How a call's condition and engine state go together (R23, R167, R220, R221): no condition before a call's end; DONE with
NONE exactly when the output is full, DONE with StreamDesyncAtEnd before it is; ERROR with a fatal condition. -/
abbrev State.ConditionFits (s : State) : Prop :=
  (s.ESTATE = .idle ∨ s.ESTATE = .decoding → s.COND = .none) ∧
  (s.ESTATE = .done → (s.COND = .none ∧ s.WO = s.UL) ∨ (s.COND = .streamDesyncAtEnd ∧ s.WO < s.UL)) ∧
  (s.ESTATE = .error → s.COND.fatal = true) ∧
  (s.COND = .none → s.INFO = 0)

/-- Both memories are in canonical form and list only addresses that exist (R60, R61). -/
abbrev State.MemoriesFit (s : State) : Prop :=
  Memory.wf s.SRCMEM ∧ Memory.wf s.OUTMEM ∧
  (∀ c ∈ s.SRCMEM, c.1 < s.params.srcSize) ∧ (∀ c ∈ s.OUTMEM, c.1 < s.params.outCapacity)

/-- The bounds of the registers (R22, R26): the counts stay in the fields the spec gives them. -/
abbrev State.RegistersFit (s : State) : Prop :=
  s.OFF < 2 ^ 32 ∧ s.END < 2 ^ 32 ∧ s.UL < 2 ^ 32 ∧ s.POS ≤ s.END ∧ s.V < 32 ∧ s.WO ≤ s.UL

/-- The invariant of HDE: what the spec says of every state a step is taken from. -/
structure State.Inv (s : State) : Prop where
  /-- The constants are valid (R263). -/
  params     : s.params.WF
  registers  : s.RegistersFit
  memories   : s.MemoriesFit
  /-- R24. -/
  table      : s.T.WF
  /-- R124: no slot length exceeds `P_MAX_CODE_LEN`. -/
  lengths    : s.T.LengthsFit s.params
  /-- R25. -/
  directory  : s.DIR.WF
  /-- R109: with a draining underflow at most 7 bits are staged between two reads. -/
  staged     : s.params.underflowDrain = true → s.V ≤ 7
  boundary   : s.AtIterationBoundary
  condition  : s.ConditionFits
  /-- R64. -/
  admitted   : s.ESTATE = .decoding → s.Admitted
  /-- R40. -/
  fromSource : s.ESTATE = .decoding → s.StagedFromSource

/-- The whole effect of a match of `n` bytes at distance `d` on `s`, once its fields are read: `rest` are the bits then ahead and
`soft` the soft-fault flag (R195 to R198). A distance out of range writes nothing; else the copy writes as many of its bytes as
there is room for, and either goes on or ends the call in OutputBufferExhausted. -/
def State.MatchEffect (s : State) (n d : Nat) (rest : List Bool) (soft : Bool) (t : State) : Prop :=
  t.unread = rest ∧
  (d = 0 ∨ s.WO < d → t = { s with
    S := t.S, POS := t.POS, V := t.V, SOFT := soft
    ESTATE := .error, COND := .backRefOutOfRange, INFO := BitVec.ofInt 32 ((s.WO : Int) - d) }) ∧
  (1 ≤ d → d ≤ s.WO →
    (∀ j < min n (s.UL - s.WO), Memory.read t.OUTMEM (s.WO + j) = Memory.read s.OUTMEM (s.WO - d + j % d)) ∧
    (∀ p, p < s.WO ∨ s.WO + min n (s.UL - s.WO) ≤ p → Memory.read t.OUTMEM p = Memory.read s.OUTMEM p) ∧
    (s.WO + n ≤ s.UL → t = { s with
      S := t.S, POS := t.POS, V := t.V, SOFT := soft, OUTMEM := t.OUTMEM, WO := s.WO + n, ESTATE := .decoding }) ∧
    (s.UL < s.WO + n → t = { s with
      S := t.S, POS := t.POS, V := t.V, SOFT := soft, OUTMEM := t.OUTMEM, WO := s.UL
      ESTATE := .error, COND := .outputBufferExhausted, INFO := BitVec.ofNat 32 (n - (s.UL - s.WO)) }))

/-- A step is safe when it answers a next state: no access outside the memories, and no case the spec gives no meaning. -/
def SafeStep (s : State) : Prop := ∃ t, step s = .next t

end Sys2Proof.Machine
end

