-- ==== Sys2Proof/Certificates/Slice0/Obligations.lean ====
section
/-! DEFINITION. The statements for the provers. Each docstring names the rule of the spec it formalises; a clause that rests on
a choice of the model names its log entry. -/

open Sys2Proof Sys2Proof.Machine

/-! ### Encoding -/

/-- R82: the mask and match of every row of the opcode table select its instruction, with the fields `b = sym[7:0]` and
`k = sym[2:0]`. -/
def Obligations.SymbolClassesAreTheOpcodeTable : Prop :=
  ∀ (y : Symbol) (sel : Selector),
    (y &&& 0x100 = 0x000 → decodeSymbol y sel = .ok (.lit (y.extractLsb' 0 8))) ∧
    (y &&& 0x1F8 = 0x100 → decodeSymbol y sel = .ok (.matchShort (y.extractLsb' 0 3))) ∧
    (y &&& 0x1F8 = 0x108 → decodeSymbol y sel = .ok (.matchLong (y.extractLsb' 0 3) sel)) ∧
    (y &&& 0x1FF = 0x110 → decodeSymbol y sel = .ok .tableSwap) ∧
    (y &&& 0x1FF = 0x111 → decodeSymbol y sel = .ok .endSegment)

/-- 95_test_vectors.md section 1: codes written out bit by bit under TC decode to their instructions, and the first illegal
code is out of sync. -/
def Obligations.WrittenCodesDecode : Prop :=
  let decode := decodeInstr Config.tc.defaultTable Config.tcDirectory
  decode [false, true, false, false, false, false, false, true] = .ok (.lit 0x41, []) ∧
  decode [true, true, true, false, false, false, true, false, true] = .ok (.lit 0xE5, []) ∧
  decode [true, true, true, true, false, false, false, true, false] = .ok (.matchShort 2, []) ∧
  decode [true, true, true, true, false, true, false, true, true] = .ok (.matchLong 3 15, []) ∧
  decode [true, true, true, true, true, false, false, false, false] = .ok (.tableSwap, []) ∧
  decode [true, true, true, true, true, false, false, false, true] = .ok (.endSegment, []) ∧
  decode [true, true, true, true, true, false, false, true, false] = .error (.outOfSync 0x112 [])

/-- R80, R85, R88, R89: a well-formed instruction, with every trailing field at every value its width admits, has a code, and
decoding the code followed by any bits gives the instruction back and exactly those bits. -/
def Obligations.DecodeOfEncode : Prop :=
  ∀ (p : Params) (t : Table) (d : Directory) (i : StreamInstr) (rest : List Bool),
    t.WF → d.WF → i.WF p t d →
    ∃ bits, encode p t d i = some bits ∧ decodeStream p t d (bits ++ rest) = .ok (i, rest)

/-- R80, R85, R88, R89, the other direction: whatever bits decode to an instruction are its code and the rest, so no bit of
an instruction is dropped and no two encodings share an instruction. -/
def Obligations.EncodeOfDecode : Prop :=
  ∀ (p : Params) (t : Table) (d : Directory) (i : StreamInstr) (bits rest : List Bool),
    t.WF → d.WF → decodeStream p t d bits = .ok (i, rest) →
    ∃ code, encode p t d i = some code ∧ bits = code ++ rest

/-- R128 (b), (c), R120: in a well-formed table the slot ranges are disjoint and cover exactly the indices below
`base[15] + 2^len[15]`, which is at most `2^28`. -/
def Obligations.SlotsPartitionTheIndices : Prop :=
  ∀ (t : Table), t.WF →
    t.baseAt 15 + 2 ^ t.lenAt 15 ≤ 2 ^ 28 ∧
    ∀ idx, (idx < t.baseAt 15 + 2 ^ t.lenAt 15 ↔ ∃ sel, t.Covers sel idx) ∧
      ∀ sel sel', t.Covers sel idx → t.Covers sel' idx → sel = sel'

/-- R87, R194: `hi : lo` is one `(8 + db)`-bit number, the distance is that number plus the base shifted left by 9, and it
does not wrap. -/
def Obligations.DistanceIsOneNumber : Prop :=
  ∀ (p : Params) (f : DistanceFields), f.WF p →
    fieldsDistance p f = f.hi.toNat * 2 ^ p.lowWidth f.ds + f.lo + (p.distanceEntry f.ds).base.val * 2 ^ 9 ∧
    f.hi.toNat * 2 ^ p.lowWidth f.ds + f.lo < 2 ^ (8 + p.lowWidth f.ds) ∧
    p.lowWidth f.ds = (p.distanceEntry f.ds).extraBits.val + 1 ∧ 8 + p.lowWidth f.ds ≤ 32

/-! ### The bit reader -/

/-- R110, R104, R105: the staged cursor refines the abstract one. With `c = 8*POS - V` and `B(k)` the bit `7 - (k mod 8)` of
source byte `k div 8` (bit 7 first is R10's general knowledge, log 11): a read of `n` bits succeeds exactly when
`c + n <= 8*END`, returns the sum of `B(c+j) * 2^(n-1-j)` and moves `c` by `n`; `resetBitBuffer` moves `c` to the next multiple
of 8; `eof()` is `c = 8*END`; an underflow sets the soft-fault flag, moves `c` to `8*END` if underflows drain and else leaves
every unread bit, and in strict mode it ends the call. The two views still agree after each. -/
def Obligations.ReadFollowsTheAbstractCursor : Prop :=
  ∀ (s : State) (n : Nat), s.Readable → s.StagedFromSource → s.POS ≤ s.END → n ≤ 24 →
    let agrees (t : State) : Prop := t.Readable ∧ t.StagedFromSource ∧ t.POS ≤ t.END
    (s.cursor + n ≤ 8 * s.END → ∃ t,
      read n s = .ok ((List.range n).map fun j => (s.sourceBit (s.cursor + j)).toNat * 2 ^ (n - 1 - j)).sum t ∧
      (∃ v, readChecked n s = .ok (some v) t) ∧ t.cursor = s.cursor + n ∧ agrees t) ∧
    (8 * s.END < s.cursor + n → ∃ t,
      readChecked n s = (if s.LEN then .ok none t
        else .error .callEnded (t.endCall .prematureEOF (BitVec.ofNat 32 (s.UL - s.WO)) .error)) ∧
      t.SOFT = true ∧ t.cursor = (if s.params.underflowDrain then 8 * s.END else s.cursor) ∧
      t.unread = (if s.params.underflowDrain then [] else s.unread) ∧ agrees t) ∧
    (∃ t, resetBitBuffer s = .ok () t ∧ t.cursor = 8 * ((s.cursor + 7) / 8) ∧ agrees t) ∧
    (s.sourceEof = true ↔ s.cursor = 8 * s.END)

/-- R103, R104, R194: in lenient mode a match's distance sub-step always goes on. Each of `ds`, `hi`, `lo` is its bits if they
are there, else 0, with the bits left dropped or kept by `P_UNDERFLOW_DRAIN`; the soft-fault flag says whether any was missing. -/
def Obligations.LenientDistanceGoesOn : Prop :=
  ∀ (s : State), s.Readable → s.LEN = true →
    let take := lenientTake s.params.underflowDrain
    let ds := take 3 s.unread
    let hi := take 8 ds.2
    let lo := take (s.params.lowWidth (BitVec.ofNat 3 ds.1)) hi.2
    ∃ t, distance s = .ok ((s.WO : Int) - distanceOf s.params (BitVec.ofNat 3 ds.1) hi.1 lo.1) t ∧
      t.unread = lo.2 ∧
      t = { s with S := t.S, POS := t.POS, V := t.V, SOFT := t.SOFT } ∧
      (t.SOFT = true ↔ s.SOFT = true ∨ ∃ e, decodeDistance s.params s.unread = .error e)

/-! ### Reset, START and the host's registers -/

/-- R38, R260, R30: after reset the engine is IDLE, CTRL reads `0x0000_0002`, every other register and reserved offset reads
0, and `SOFT`, `COND`, `INFO` and `ITER` are 0. -/
def Obligations.ResetReadsAsTheSpecSays : Prop :=
  State.reset.ESTATE = .idle ∧ State.reset.SOFT = false ∧ State.reset.COND = .none ∧ State.reset.INFO = 0 ∧
  State.reset.ITER = 0 ∧
  ∀ k < 16, hostTurn (.readReg (4 * k) 4) State.reset =
    .next { State.reset with lastRead := if k = 0 then 2 else 0 }

/-- R31, R39, R160, R64, R220: a write of CTRL stores LENIENT, then a START bit begins a call unless one is running: every
per-call item is loaded (R39), and a range that does not fit ends the call at once in ConfigFault with the failing bits. That
the constants are valid is R263's premise. -/
def Obligations.StartBeginsACall : Prop :=
  ∀ (s : State) (v : Word), s.params.WF → v.getLsbD 0 = true →
    let started := { s with
      LENIENT := v.getLsbD 1, LEN := v.getLsbD 1
      OFF := s.SRC_OFFSET.toNat, END := s.SRC_LENGTH.toNat, UL := s.UNPACKED_LENGTH.toNat
      POS := 0, S := 0, V := 0, WO := 0, T := s.params.defaultTable, DIR := s.params.initDirectory
      SOFT := false, COND := .none, INFO := 0, ITER := 0, ESTATE := .decoding }
    let badSource := s.params.srcSize < s.SRC_OFFSET.toNat + s.SRC_LENGTH.toNat
    let badOutput := s.params.outCapacity < s.UNPACKED_LENGTH.toNat
    (s.busy = true → hostTurn (.writeReg 0 4 v) s = .next { s with LENIENT := v.getLsbD 1 }) ∧
    (s.busy = false → ¬badSource → ¬badOutput → hostTurn (.writeReg 0 4 v) s = .next started) ∧
    (s.busy = false → badSource → ¬badOutput → hostTurn (.writeReg 0 4 v) s =
      .next { started with ESTATE := .error, COND := .configFault, INFO := 1 }) ∧
    (s.busy = false → ¬badSource → badOutput → hostTurn (.writeReg 0 4 v) s =
      .next { started with ESTATE := .error, COND := .configFault, INFO := 2 }) ∧
    (s.busy = false → badSource → badOutput → hostTurn (.writeReg 0 4 v) s =
      .next { started with ESTATE := .error, COND := .configFault, INFO := 3 })

/-- R31: a write of CTRL without START stores LENIENT and does nothing else. -/
def Obligations.CtrlWriteWithoutStart : Prop :=
  ∀ (s : State) (v : Word), v.getLsbD 0 = false →
    hostTurn (.writeReg 0 4 v) s = .next { s with LENIENT := v.getLsbD 1 }

/-- R263: a START with constants that break their constraints has no meaning. That the model then refuses is the model's
choice (log 13). -/
def Obligations.StartNeedsValidConstants : Prop :=
  ∀ (s : State) (v : Word), ¬s.params.WF → v.getLsbD 0 = true → s.busy = false →
    hostTurn (.writeReg 0 4 v) s = .refused .invalidConstants

/-- R39, R227: no state crosses calls. Two machines that are not busy and agree on the call's inputs, the constants and the
memories are the same machine after START, whatever calls they ran before. (They agree too on the model's own fields, log 3 and
log 8.) -/
def Obligations.StartForgetsThePreviousCall : Prop :=
  ∀ (s₁ s₂ : State) (v : Word), v.getLsbD 0 = true → s₁.busy = false → s₂.busy = false →
    s₁.SRC_OFFSET = s₂.SRC_OFFSET → s₁.SRC_LENGTH = s₂.SRC_LENGTH → s₁.UNPACKED_LENGTH = s₂.UNPACKED_LENGTH →
    s₁.SRCMEM = s₂.SRCMEM → s₁.OUTMEM = s₂.OUTMEM → s₁.params = s₂.params →
    s₁.agenda = s₂.agenda → s₁.lastRead = s₂.lastRead → s₁.draws = s₂.draws →
    hostTurn (.writeReg 0 4 v) s₁ = hostTurn (.writeReg 0 4 v) s₂

/-- R30 to R36: what each register reads as when no call runs, and that a read changes nothing but what the host has seen
(log 3). `WO`, `END - POS` and `INFO` read as 0 in IDLE. -/
def Obligations.RegistersReadTheirValues : Prop :=
  ∀ (s : State), s.busy = false →
    let sees (w : Word) : Host.Outcome State Fault Refusal := .next { s with lastRead := w }
    hostTurn (.readReg 0x00 4) s = sees (if s.LENIENT then 2 else 0) ∧
    hostTurn (.readReg 0x04 4) s = sees (statusWord s.ESTATE.code s.SOFT s.COND.code) ∧
    hostTurn (.readReg 0x08 4) s = sees s.SRC_OFFSET ∧
    hostTurn (.readReg 0x0C 4) s = sees s.SRC_LENGTH ∧
    hostTurn (.readReg 0x10 4) s = sees s.UNPACKED_LENGTH ∧
    hostTurn (.readReg 0x14 4) s = sees (if s.ESTATE = .idle then 0 else BitVec.ofNat 32 s.WO) ∧
    hostTurn (.readReg 0x18 4) s = sees (if s.ESTATE = .idle then 0 else BitVec.ofNat 32 (s.END - s.POS)) ∧
    hostTurn (.readReg 0x1C 4) s = sees s.INFO ∧
    ∀ k, 8 ≤ k → k < 16 → hostTurn (.readReg (4 * k) 4) s = sees 0

/-- R32: the fields of STATUS stand at their places: STATE in bits 1:0, SOFT_FAULT in bit 2, COND in bits 7:4, the reserved
bits 0. -/
def Obligations.StatusFieldsStandAtTheirBits : Prop :=
  ∀ (state : BitVec 2) (soft : Bool) (cond : BitVec 4),
    let w := statusWord state soft cond
    w.extractLsb' 0 2 = state ∧ w.getLsbD 2 = soft ∧ w.getLsbD 3 = false ∧ w.extractLsb' 4 4 = cond ∧
    w.extractLsb' 8 24 = 0

/-- R37, R71: while BUSY a host read of a result register or of `OUTMEM` tells the host nothing of the running call. Two busy
machines with the same host registers and the same draws ahead show the same word, whatever their calls have done. STATUS shows
STATE = 1; that its reserved bits then read 0 is the model's reading of R32 (log 24). Holds for every value of the free field
`draws` (log 8). -/
def Obligations.BusyReadsRevealNothing : Prop :=
  ∀ (s₁ s₂ t₁ t₂ : State) (a : HostAction), s₁.busy = true → s₂.busy = true →
    s₁.LENIENT = s₂.LENIENT → s₁.SRC_OFFSET = s₂.SRC_OFFSET → s₁.SRC_LENGTH = s₂.SRC_LENGTH →
    s₁.UNPACKED_LENGTH = s₂.UNPACKED_LENGTH → s₁.draws = s₂.draws →
    (∃ offset, a = .readReg offset 4) ∨ (∃ p, a = .readOut p) →
    hostTurn a s₁ = .next t₁ → hostTurn a s₂ = .next t₂ →
    t₁.lastRead = t₂.lastRead ∧
    (a = .readReg 0x04 4 →
      t₁.lastRead.extractLsb' 0 2 = 1 ∧ t₁.lastRead.getLsbD 3 = false ∧ t₁.lastRead.extractLsb' 8 24 = 0)

/-- R33: SRC_OFFSET, SRC_LENGTH and UNPACKED_LENGTH are 0 after reset; a write is stored whole, in every state, and nothing
else changes, so a running call keeps its latched copies; a read shows what was written; START copies them into `OFF`, `END`
and `UL`. -/
def Obligations.InputRegistersAreStored : Prop :=
  (State.reset.SRC_OFFSET = 0 ∧ State.reset.SRC_LENGTH = 0 ∧ State.reset.UNPACKED_LENGTH = 0) ∧
  ∀ (s : State) (v : Word),
    (hostTurn (.writeReg 0x08 4 v) s = .next { s with SRC_OFFSET := v } ∧
     hostTurn (.writeReg 0x0C 4 v) s = .next { s with SRC_LENGTH := v } ∧
     hostTurn (.writeReg 0x10 4 v) s = .next { s with UNPACKED_LENGTH := v }) ∧
    (hostTurn (.readReg 0x08 4) s = .next { s with lastRead := s.SRC_OFFSET } ∧
     hostTurn (.readReg 0x0C 4) s = .next { s with lastRead := s.SRC_LENGTH } ∧
     hostTurn (.readReg 0x10 4) s = .next { s with lastRead := s.UNPACKED_LENGTH }) ∧
    (s.busy = false → v.getLsbD 0 = true → s.params.WF → ∃ t, hostTurn (.writeReg 0 4 v) s = .next t ∧
      t.OFF = s.SRC_OFFSET.toNat ∧ t.END = s.SRC_LENGTH.toNat ∧ t.UL = s.UNPACKED_LENGTH.toNat)

/-- R30, R32, R233: writes of the read-only registers and of the reserved offsets are ignored, in every state. -/
def Obligations.ReadOnlyRegistersIgnoreWrites : Prop :=
  ∀ (s : State) (v : Word) (offset : Nat),
    offset ∈ [0x04, 0x14, 0x18, 0x1C] ∨ (0x20 ≤ offset ∧ offset < 0x40 ∧ offset % 4 = 0) →
    hostTurn (.writeReg offset 4 v) s = .next s

/-- R66: a register access that is not an aligned 32-bit one is refused, in every state. -/
def Obligations.OtherRegisterAccessesAreRefused : Prop :=
  ∀ (s : State) (offset width : Nat) (v : Word), width ≠ 4 ∨ offset % 4 ≠ 0 →
    hostTurn (.writeReg offset width v) s = .refused (.misalignedRegister offset width) ∧
    hostTurn (.readReg offset width) s = .refused (.misalignedRegister offset width)

/-- R70, R71, R233: a host write of a memory byte that exists lands, and leaves every other byte alone, unless a call is
running and the byte is in its range; then it is no host move (log 15). -/
def Obligations.HostMemoryWrites : Prop :=
  ∀ (s : State) (a : Nat) (v : Byte), Memory.wf s.SRCMEM → Memory.wf s.OUTMEM →
    (a < s.params.srcSize →
      (s.busy = true ∧ s.OFF ≤ a ∧ a < s.OFF + s.END →
        hostTurn (.writeSrc a v) s = .refused (.memoryWriteWhileBusy a)) ∧
      (¬(s.busy = true ∧ s.OFF ≤ a ∧ a < s.OFF + s.END) → ∃ t, hostTurn (.writeSrc a v) s = .next t ∧
        t = { s with SRCMEM := t.SRCMEM } ∧ Memory.read t.SRCMEM a = v ∧
        ∀ a', a' ≠ a → Memory.read t.SRCMEM a' = Memory.read s.SRCMEM a')) ∧
    (a < s.params.outCapacity →
      (s.busy = true ∧ a < s.UL → hostTurn (.writeOut a v) s = .refused (.memoryWriteWhileBusy a)) ∧
      (¬(s.busy = true ∧ a < s.UL) → ∃ t, hostTurn (.writeOut a v) s = .next t ∧
        t = { s with OUTMEM := t.OUTMEM } ∧ Memory.read t.OUTMEM a = v ∧
        ∀ a', a' ≠ a → Memory.read t.OUTMEM a' = Memory.read s.OUTMEM a'))

/-- R70, R34: once no call runs, a host read of `OUTMEM` sees the byte that is there. -/
def Obligations.HostReadsTheOutput : Prop :=
  ∀ (s : State) (p : Nat), s.busy = false → p < s.params.outCapacity →
    hostTurn (.readOut p) s = .next { s with lastRead := (Memory.read s.OUTMEM p).zeroExtend 32 }

/-- R260, R261: hardware reset goes to IDLE from every state with every register at its reset value; the constants and
`SRCMEM` stay, and every byte of `OUTMEM` stays but the output range of a call it abandons. The reset values of the per-call
registers are the model's own (log 6). -/
def Obligations.HardwareResetKeepsTheMemories : Prop :=
  ∀ (s : State), ∃ t, hostTurn .hardReset s = .next t ∧
    t = { State.reset with
      SRCMEM := s.SRCMEM, OUTMEM := t.OUTMEM, params := s.params, agenda := s.agenda, lastRead := s.lastRead
      draws := t.draws } ∧
    (∀ p, s.busy = false ∨ s.UL ≤ p → Memory.read t.OUTMEM p = Memory.read s.OUTMEM p)

/-- R265, R266, R233, R70: no move of the host but a hardware reset changes a running call: its cursor, tables, writer,
condition and engine state stay, and so does every byte of its source and output ranges. -/
def Obligations.HostCannotTouchARunningCall : Prop :=
  ∀ (s t : State) (a : HostAction), s.busy = true → a ≠ .hardReset → hostTurn a s = .next t →
    t.OFF = s.OFF ∧ t.END = s.END ∧ t.POS = s.POS ∧ t.S = s.S ∧ t.V = s.V ∧ t.SOFT = s.SOFT ∧ t.COND = s.COND ∧
    t.INFO = s.INFO ∧ t.LEN = s.LEN ∧ t.T = s.T ∧ t.DIR = s.DIR ∧ t.WO = s.WO ∧ t.UL = s.UL ∧ t.ESTATE = s.ESTATE ∧
    t.ITER = s.ITER ∧ t.params = s.params ∧
    (∀ a', s.OFF ≤ a' → a' < s.OFF + s.END → Memory.read t.SRCMEM a' = Memory.read s.SRCMEM a') ∧
    (∀ p < s.UL, Memory.read t.OUTMEM p = Memory.read s.OUTMEM p)

/-! ### The loop -/

/-- A step runs the decoded instruction (R161, R162): when the next turn is the engine's in a running call, the output is not
full, no iteration cap is reached, and the bits ahead decode to an instruction under the current table and directory, the step
is `exec` of it in the state whose cursor stands after its code, with the turn taken off the agenda and the iteration and the use
of its symbol counted. -/
def Obligations.StepRunsTheDecodedInstruction : Prop :=
  ∀ (s : State) (i : Instr) (rest : List Bool), s.nextTurn = .engine → s.ESTATE = .decoding → s.WO ≠ s.UL →
    s.capReached = false → s.Readable →
    decodeInstr s.T s.DIR s.unread = .ok (i, rest) →
    ∃ t, step s = exec i t ∧ t.unread = rest ∧ t.V < 32 ∧
      t = { s with
        S := t.S, POS := t.POS, V := t.V, ITER := s.ITER + 1, DIR := countUse s.DIR (encodeSymbol i)
        agenda := s.agenda.tail }

/-- R142: the decode step counts the symbol it decoded, once and whichever it is, before the dispatch; counting a symbol adds
one to its counter and changes nothing else of the directory. -/
def Obligations.RecordUseCountsTheSymbol : Prop :=
  (∀ (d : Directory) (y z : Symbol) (_ : y.toNat < nsym) (hz : z.toNat < nsym),
    (countUse d y).ASSIGN = d.ASSIGN ∧
    (countUse d y).FREQ[z.toNat] = d.FREQ[z.toNat] + (if z = y then 1 else 0)) ∧
  (∀ (s : State) (i : Instr) (rest : List Bool), s.Readable → decodeInstr s.T s.DIR s.unread = .ok (i, rest) →
    (encodeSymbol i).toNat < nsym ∧ ∃ t, fetch s = .ok i t ∧ t.DIR = countUse s.DIR (encodeSymbol i))

/-- R161, R225: the checks at the loop top, in order. A full output ends the call in DONE with NONE, also when the input is
exhausted; else an exhausted input ends it in ERROR with PrematureEOF and `INFO = UL - WO`, also when an iteration cap is
reached. Nothing else changes. -/
def Obligations.LoopTopEndsTheCall : Prop :=
  ∀ (s : State), s.nextTurn = .engine → s.ESTATE = .decoding →
    (s.WO = s.UL → step s =
      .next { s with agenda := s.agenda.tail, ESTATE := .done, COND := .none, INFO := 0 }) ∧
    (s.WO ≠ s.UL → s.V = 0 → s.POS = s.END → step s =
      .next { s with
        agenda := s.agenda.tail, ESTATE := .error, COND := .prematureEOF, INFO := BitVec.ofNat 32 (s.UL - s.WO) })

/-- R170: where `P_ITER_CAP` is a function and as many iterations as it allows have begun, the step ends the call in
IterationCapExceeded with nothing else changed, and with `INFO = ITER` wherever a 32-bit `INFO` can hold `ITER` (beyond, the
spec gives no value and `INFO` is a free one; log 27); below the cap, and without one, the loop top counts the iteration and
goes on. The spec's value is no cap. -/
def Obligations.IterationCapEndsTheCall : Prop :=
  Config.params.iterCap = none ∧
  ∀ (s : State), s.WO ≠ s.UL → ¬(s.V = 0 ∧ s.POS = s.END) →
    (∀ cap, s.params.iterCap = some cap → cap.limit s.UL ≤ s.ITER → s.nextTurn = .engine → s.ESTATE = .decoding →
      ∃ info : Word, (s.ITER < 2 ^ 32 → info.toNat = s.ITER) ∧ step s =
        .next { s with agenda := s.agenda.tail, ESTATE := .error, COND := .iterationCapExceeded, INFO := info }) ∧
    (∀ cap, s.params.iterCap = some cap → s.ITER < cap.limit s.UL → loopTop s = .ok () { s with ITER := s.ITER + 1 }) ∧
    (s.params.iterCap = none → loopTop s = .ok () { s with ITER := s.ITER + 1 })

/-- R5, R170: the plain data that stands for `P_ITER_CAP` shuts no function out: every function of the 32-bit `UL` is the limit
of some cap (log 26). -/
def Obligations.EveryCapFunctionHasACap : Prop :=
  ∀ (f : Nat → Nat), ∃ cap : IterCap, ∀ ul < 2 ^ 32, cap.limit ul = f ul

/-- R83: under a permutation an index at or above `0x112` is the only illegal encoding (bits that do not decode hold one, or
end too early). It ends the call in OutOfSyncSymbol with `INFO = idx` and the cursor after its code, and nothing of its iteration
is written: no counter, no table, no output byte. -/
def Obligations.IllegalIndexEndsTheCall : Prop :=
  (∀ (t : Table) (d : Directory) (bits : List Bool) (e : DecodeError), d.WF → decodeInstr t d bits = .error e →
    e = .truncated ∨ ∃ idx rest, nsym ≤ idx ∧ e = .outOfSync idx rest) ∧
  (∀ (s : State) (idx : Nat) (rest : List Bool), s.nextTurn = .engine → s.ESTATE = .decoding → s.WO ≠ s.UL →
    s.capReached = false → s.Readable →
    decodeInstr s.T s.DIR s.unread = .error (.outOfSync idx rest) →
    nsym ≤ idx ∧
    ∃ t, step s = .next t ∧ t.unread = rest ∧ (s.V ≤ 7 → t.sourceLeft = rest.length / 8) ∧
      t = { s with
        S := t.S, POS := t.POS, V := t.V, ITER := s.ITER + 1, agenda := s.agenda.tail
        ESTATE := .error, COND := .outOfSyncSymbol, INFO := BitVec.ofNat 32 idx })

/-- R105, R224, R225: in strict mode a symbol code that the source ends inside of ends the call in PrematureEOF, with the
soft-fault flag set and nothing of the iteration written. -/
def Obligations.StrictTruncatedCodeEndsTheCall : Prop :=
  ∀ (s : State), s.nextTurn = .engine → s.ESTATE = .decoding → s.WO ≠ s.UL → s.capReached = false → s.Readable →
    s.LEN = false → decodeInstr s.T s.DIR s.unread = .error .truncated →
    ∃ t, step s = .next t ∧
      t = { s with
        S := t.S, POS := t.POS, V := t.V, ITER := t.ITER, SOFT := t.SOFT, agenda := s.agenda.tail
        ESTATE := .error, COND := .prematureEOF, INFO := BitVec.ofNat 32 (s.UL - s.WO) } ∧
      (s.unread ≠ [] → t.SOFT = true ∧ t.ITER = s.ITER + 1)

/-- R103, R104, R162, R83: in lenient mode the symbol decode never stops for want of bits. The selector and the offset are their
bits if they are there, else 0, with the bits left dropped or kept by `P_UNDERFLOW_DRAIN`, and the soft-fault flag is set if one
was missing. If the index they give stands for a symbol, its instruction runs; if it is at or above `0x112`, the call ends in
OutOfSyncSymbol with `INFO = idx`. -/
def Obligations.LenientTruncatedCodeGoesOn : Prop :=
  ∀ (s : State), s.nextTurn = .engine → s.ESTATE = .decoding → s.WO ≠ s.UL → s.capReached = false → s.Readable →
    s.LEN = true → s.unread ≠ [] →
    let take := lenientTake s.params.underflowDrain
    let code := take 4 s.unread
    let sel := BitVec.ofNat 4 code.1
    let off := take (s.T.lenAt sel) code.2
    let idx := s.T.baseAt sel + off.1
    let soft := s.SOFT || (takeBits 4 s.unread).isNone || (takeBits (s.T.lenAt sel) code.2).isNone
    (∀ (h : idx < nsym) (i : Instr), decodeSymbol s.DIR.ASSIGN[idx] sel = .ok i →
      ∃ t, step s = exec i t ∧ t.unread = off.2 ∧
        t = { s with
          S := t.S, POS := t.POS, V := t.V, SOFT := soft, ITER := s.ITER + 1, agenda := s.agenda.tail
          DIR := countUse s.DIR (encodeSymbol i) }) ∧
    (nsym ≤ idx →
      ∃ t, step s = .next t ∧ t.unread = off.2 ∧
        t = { s with
          S := t.S, POS := t.POS, V := t.V, SOFT := soft, ITER := s.ITER + 1, agenda := s.agenda.tail
          ESTATE := .error, COND := .outOfSyncSymbol, INFO := BitVec.ofNat 32 idx })

/-- R232: outside a call the engine does nothing: its turn passes and the state stays. -/
def Obligations.IdleEngineDoesNothing : Prop :=
  ∀ (s : State), s.nextTurn = .engine → s.ESTATE = .idle ∨ s.ESTATE = .done ∨ s.ESTATE = .error →
    step s = .next { s with agenda := s.agenda.tail }

/-! ### LIT and the matches -/

/-- R164, R190: LIT writes its byte at the write offset, moves the offset by one, and changes nothing else. -/
def Obligations.LitAppendsItsByte : Prop :=
  ∀ (b : Byte) (s : State), Memory.wf s.OUTMEM → s.WO ≠ s.UL → s.WO < s.params.outCapacity →
    ∃ t, exec (.lit b) s = .next t ∧ t = { s with OUTMEM := t.OUTMEM, WO := s.WO + 1 } ∧
      Memory.read t.OUTMEM s.WO = b ∧
      ∀ p, p ≠ s.WO → Memory.read t.OUTMEM p = Memory.read s.OUTMEM p

/-- R190, R197, R220: LIT on a full output writes nothing and ends the call in OutputBufferExhausted, one byte not written. -/
def Obligations.LitOnAFullOutput : Prop :=
  ∀ (b : Byte) (s : State), s.WO = s.UL →
    exec (.lit b) s = .next { s with ESTATE := .error, COND := .outputBufferExhausted, INFO := 1 }

/-- R192, R194 to R196: MATCH_SHORT with its fields ahead, its source in range and room for its bytes copies `4 + k` bytes
from `dist` back. Byte `j` is the old byte `WO - dist + (j mod dist)`; every other byte and register stays but the cursor,
which stands after the fields. -/
def Obligations.MatchShortCopies : Prop :=
  ∀ (k : BitVec 3) (f : DistanceFields) (rest : List Bool) (s : State), s.Readable → Memory.wf s.OUTMEM →
    f.WF s.params → s.unread = encodeDistance s.params f ++ rest →
    1 ≤ fieldsDistance s.params f → fieldsDistance s.params f ≤ s.WO →
    s.WO + (4 + k.toNat) ≤ s.UL → s.UL ≤ s.params.outCapacity →
    ∃ t, exec (.matchShort k) s = .next t ∧ t.unread = rest ∧
      t = { s with
        S := t.S, POS := t.POS, V := t.V, OUTMEM := t.OUTMEM, WO := s.WO + (4 + k.toNat), ESTATE := .decoding } ∧
      (∀ j < 4 + k.toNat, Memory.read t.OUTMEM (s.WO + j) =
        Memory.read s.OUTMEM (s.WO - fieldsDistance s.params f + j % fieldsDistance s.params f)) ∧
      (∀ p, p < s.WO ∨ s.WO + (4 + k.toNat) ≤ p → Memory.read t.OUTMEM p = Memory.read s.OUTMEM p)

/-- R193, R194 to R196, R199: MATCH_LONG copies `4 + LT[li].base + lx` bytes the same way, its extra bits `lx` standing before
the distance fields; `li` is the selector or `k`, by `P_LEN_INDEX`. -/
def Obligations.MatchLongCopies : Prop :=
  ∀ (k : BitVec 3) (sel : Selector) (lx : Nat) (f : DistanceFields) (rest : List Bool) (s : State), s.Readable →
    Memory.wf s.OUTMEM →
    let e := s.params.lengthTable.entry k sel
    let n := 4 + (e.base.val + lx)
    lx < 2 ^ e.extraBits.val → f.WF s.params →
    s.unread = bitsOf e.extraBits.val lx ++ encodeDistance s.params f ++ rest →
    1 ≤ fieldsDistance s.params f → fieldsDistance s.params f ≤ s.WO → s.WO + n ≤ s.UL →
    s.UL ≤ s.params.outCapacity →
    ∃ t, exec (.matchLong k sel) s = .next t ∧ t.unread = rest ∧
      t = { s with
        S := t.S, POS := t.POS, V := t.V, OUTMEM := t.OUTMEM, WO := s.WO + n, ESTATE := .decoding } ∧
      (∀ j < n, Memory.read t.OUTMEM (s.WO + j) =
        Memory.read s.OUTMEM (s.WO - fieldsDistance s.params f + j % fieldsDistance s.params f)) ∧
      (∀ p, p < s.WO ∨ s.WO + n ≤ p → Memory.read t.OUTMEM p = Memory.read s.OUTMEM p)

/-- R191, R198, R222: a match whose distance is 0 or larger than the write offset writes no byte and ends the call in
BackRefOutOfRange, `INFO` the two's-complement pattern of `WO - dist`. -/
def Obligations.MatchOutOfRangeFaults : Prop :=
  ∀ (k : BitVec 3) (sel : Selector) (lx : Nat) (f : DistanceFields) (rest : List Bool) (s : State), s.Readable →
    let e := s.params.lengthTable.entry k sel
    let faulted (t : State) : Prop := t.unread = rest ∧
      t = { s with
        S := t.S, POS := t.POS, V := t.V, ESTATE := .error, COND := .backRefOutOfRange
        INFO := BitVec.ofInt 32 ((s.WO : Int) - fieldsDistance s.params f) }
    f.WF s.params → fieldsDistance s.params f = 0 ∨ s.WO < fieldsDistance s.params f →
    (s.unread = encodeDistance s.params f ++ rest → ∃ t, exec (.matchShort k) s = .next t ∧ faulted t) ∧
    (lx < 2 ^ e.extraBits.val → s.unread = bitsOf e.extraBits.val lx ++ encodeDistance s.params f ++ rest →
      ∃ t, exec (.matchLong k sel) s = .next t ∧ faulted t)

/-- R197, R224: a match that meets a full output keeps the bytes it wrote, up to `UL`, and ends the call in
OutputBufferExhausted with the number of its bytes not written. -/
def Obligations.MatchExhaustsTheOutput : Prop :=
  ∀ (k : BitVec 3) (sel : Selector) (lx : Nat) (f : DistanceFields) (rest : List Bool) (s : State), s.Readable →
    Memory.wf s.OUTMEM →
    let e := s.params.lengthTable.entry k sel
    let d := fieldsDistance s.params f
    let exhausted (n : Nat) (t : State) : Prop := t.unread = rest ∧
      t = { s with
        S := t.S, POS := t.POS, V := t.V, OUTMEM := t.OUTMEM, WO := s.UL
        ESTATE := .error, COND := .outputBufferExhausted, INFO := BitVec.ofNat 32 (n - (s.UL - s.WO)) } ∧
      (∀ j < s.UL - s.WO, Memory.read t.OUTMEM (s.WO + j) = Memory.read s.OUTMEM (s.WO - d + j % d)) ∧
      (∀ p, p < s.WO ∨ s.UL ≤ p → Memory.read t.OUTMEM p = Memory.read s.OUTMEM p)
    f.WF s.params → 1 ≤ d → d ≤ s.WO → s.WO ≤ s.UL → s.UL ≤ s.params.outCapacity →
    (s.UL < s.WO + (4 + k.toNat) → s.unread = encodeDistance s.params f ++ rest →
      ∃ t, exec (.matchShort k) s = .next t ∧ exhausted (4 + k.toNat) t) ∧
    (s.UL < s.WO + (4 + (e.base.val + lx)) → lx < 2 ^ e.extraBits.val →
      s.unread = bitsOf e.extraBits.val lx ++ encodeDistance s.params f ++ rest →
      ∃ t, exec (.matchLong k sel) s = .next t ∧ exhausted (4 + (e.base.val + lx)) t)

/-- R105, R224: in strict mode a match whose fields the source ends inside of writes no byte and ends the call in PrematureEOF;
the directory keeps what was counted before. -/
def Obligations.StrictTruncatedMatchEndsTheCall : Prop :=
  ∀ (k : BitVec 3) (sel : Selector) (s : State), s.Readable → s.LEN = false →
    let e := s.params.lengthTable.entry k sel
    let ended (t : State) : Prop :=
      t = { s with
        S := t.S, POS := t.POS, V := t.V, SOFT := true, ESTATE := .error, COND := .prematureEOF
        INFO := BitVec.ofNat 32 (s.UL - s.WO) }
    (decodeDistance s.params s.unread = .error .truncated → ∃ t, exec (.matchShort k) s = .next t ∧ ended t) ∧
    (takeBits e.extraBits.val s.unread = none ∨
      (∃ lx rest, takeBits e.extraBits.val s.unread = some (lx, rest) ∧
        decodeDistance s.params rest = .error .truncated) →
      ∃ t, exec (.matchLong k sel) s = .next t ∧ ended t)

/-- R103, R104, R192 to R198: in lenient mode a match always goes on to its copy, also when the source ends inside its fields.
Each field is its bits if they are there, else 0, with the bits left dropped or kept by `P_UNDERFLOW_DRAIN`; an underflow of `lx`
gives the length `4 + LT[li].base` (R193). The effect is that of the length and the distance the fields give, and the soft-fault
flag is set if a field was missing. -/
def Obligations.LenientMatchesGoOn : Prop :=
  ∀ (k : BitVec 3) (sel : Selector) (s : State), s.Readable → s.LEN = true → Memory.wf s.OUTMEM → s.WO ≤ s.UL →
    s.UL ≤ s.params.outCapacity →
    let take := lenientTake s.params.underflowDrain
    let ds (bits : List Bool) := take 3 bits
    let hi (bits : List Bool) := take 8 (ds bits).2
    let lo (bits : List Bool) := take (s.params.lowWidth (BitVec.ofNat 3 (ds bits).1)) (hi bits).2
    let dist (bits : List Bool) := distanceOf s.params (BitVec.ofNat 3 (ds bits).1) (hi bits).1 (lo bits).1
    let missing (bits : List Bool) := (decodeDistance s.params bits).toOption.isNone
    let e := s.params.lengthTable.entry k sel
    let lx := take e.extraBits.val s.unread
    (∃ t, exec (.matchShort k) s = .next t ∧
      s.MatchEffect (4 + k.toNat) (dist s.unread) (lo s.unread).2 (s.SOFT || missing s.unread) t) ∧
    (∃ t, exec (.matchLong k sel) s = .next t ∧
      s.MatchEffect (4 + (e.base.val + lx.1)) (dist lx.2) (lo lx.2).2
        (s.SOFT || (takeBits e.extraBits.val s.unread).isNone || missing lx.2) t) ∧
    (takeBits e.extraBits.val s.unread = none → 4 + (e.base.val + lx.1) = 4 + e.base.val)

/-! ### TABLE_SWAP and END_SEGMENT -/

/-- R165, R122, R126, R128 (a), R144: TABLE_SWAP with a description ahead whose slot lengths stay within `P_MAX_CODE_LEN` reorders the
directory by `P_REORDER`, installs the described table, well-formed, and stands after the description. No output byte changes. -/
def Obligations.TableSwapInstallsTheTable : Prop :=
  ∀ (zs : Vector Nat 16) (rest : List Bool) (s : State), s.Readable →
    GroupsFit s.params zs.toList → s.unread = encodeGroups zs.toList ++ rest →
    ∃ t, exec .tableSwap s = .next t ∧ t.unread = rest ∧
      t = { s with
        S := t.S, POS := t.POS, V := t.V, T := t.T, DIR := Config.reorder s.DIR, ESTATE := .decoding } ∧
      t.T.len.toList.map Fin.val = slotLengths s.params.lenCoding 0 zs.toList ∧ t.T.WF

/-- R124, R125, R126, R224: a description with a slot length above `P_MAX_CODE_LEN` ends the call in TableFormatFault with
`INFO = slot` at the zero that makes it so, and no further bit is read; one that the source ends inside of ends it in PrematureEOF
with no bit left, in lenient mode as well. The old table stays, the directory is as `P_REORDER` left it, and no output byte
changes. -/
def Obligations.TableSwapFaults : Prop :=
  ∀ (s : State), s.Readable →
    (∀ slot rest, decodeGroups s.params 16 0 0 s.unread = .error (.tableFormat slot rest) →
      slot < 16 ∧ ∃ t, exec .tableSwap s = .next t ∧ t.unread = rest ∧
        (s.params.underflowDrain = true → s.V ≤ 7 → t.sourceLeft = rest.length / 8) ∧
        t = { s with
          S := t.S, POS := t.POS, V := t.V, DIR := Config.reorder s.DIR
          ESTATE := .error, COND := .tableFormatFault, INFO := BitVec.ofNat 32 slot }) ∧
    (decodeGroups s.params 16 0 0 s.unread = .error .truncated → ∃ t, exec .tableSwap s = .next t ∧ t.unread = [] ∧
      t = { s with
        S := t.S, POS := t.POS, V := t.V, SOFT := true, DIR := Config.reorder s.DIR
        ESTATE := .error, COND := .prematureEOF, INFO := BitVec.ofNat 32 (s.UL - s.WO) })

/-- R143 (a), R25: whatever the directory was, what `P_REORDER` returns assigns a permutation of the symbols. That this holds
of every argument, also of one that is no permutation, is the model's reading (log 20). -/
def Obligations.ReorderReturnsAPermutation : Prop :=
  ∀ (d : Directory), (Config.reorder d).WF

/-- R166: END_SEGMENT. More source bytes left than the threshold and an output not full: the cursor is realigned and the call
goes on, with nothing else changed. Otherwise the call ends in DONE, with StreamDesyncAtEnd and `INFO = UL - WO` if the output
is not full, and with NONE if it is. -/
def Obligations.EndSegmentRealignsOrEnds : Prop :=
  ∀ (s : State),
    (s.END - s.POS > s.params.segmentThreshold ∧ s.WO < s.UL → exec .endSegment s =
      .next { s with POS := s.POS - s.V / 8, V := 0, ESTATE := .decoding }) ∧
    (¬(s.END - s.POS > s.params.segmentThreshold) ∧ s.WO < s.UL → exec .endSegment s =
      .next { s with ESTATE := .done, COND := .streamDesyncAtEnd, INFO := BitVec.ofNat 32 (s.UL - s.WO) }) ∧
    (¬s.WO < s.UL → exec .endSegment s = .next { s with ESTATE := .done, COND := .none, INFO := 0 })

/-! ### Frames -/

/-- No instruction, whatever it does, changes the host's registers, the call's latched inputs, the iteration count, the source
memory, the constants, or the model's own fields (R27, R33, R60, R73, R265). -/
def Obligations.InstructionsKeepTheInputs : Prop :=
  ∀ (i : Instr) (s t : State), exec i s = .next t →
    t.LENIENT = s.LENIENT ∧ t.SRC_OFFSET = s.SRC_OFFSET ∧ t.SRC_LENGTH = s.SRC_LENGTH ∧
    t.UNPACKED_LENGTH = s.UNPACKED_LENGTH ∧ t.OFF = s.OFF ∧ t.END = s.END ∧ t.LEN = s.LEN ∧ t.UL = s.UL ∧
    t.ITER = s.ITER ∧ t.SRCMEM = s.SRCMEM ∧ t.params = s.params ∧ t.agenda = s.agenda ∧ t.lastRead = s.lastRead ∧
    t.draws = s.draws

/-- The frame of LIT (R164): the one byte stored is at `WO`; the cursor, the soft-fault flag, the table and the directory
stay; the condition registers and the engine state stay unless the output was full. -/
def Obligations.LitFrame : Prop :=
  ∀ (b : Byte) (s t : State), exec (.lit b) s = .next t →
    t.S = s.S ∧ t.POS = s.POS ∧ t.V = s.V ∧ t.SOFT = s.SOFT ∧ t.T = s.T ∧ t.DIR = s.DIR ∧
    (s.WO ≠ s.UL → t.COND = s.COND ∧ t.INFO = s.INFO ∧ t.ESTATE = s.ESTATE) ∧
    (∀ p, ¬(s.WO ≤ p ∧ p < s.WO + 1) → Memory.read t.OUTMEM p = Memory.read s.OUTMEM p)

/-- The frame of the matches (R192, R193): the bytes stored are the copy's, from `WO` on and no more than its length; the table
and the directory stay, the soft-fault flag is never cleared, and the condition registers change only when the call ends. -/
def Obligations.MatchFrame : Prop :=
  ∀ (k : BitVec 3) (sel : Selector) (s t : State),
    let kept : Prop := t.T = s.T ∧ t.DIR = s.DIR ∧ (s.SOFT = true → t.SOFT = true) ∧ s.WO ≤ t.WO ∧
      (t.ESTATE = .decoding → t.COND = s.COND ∧ t.INFO = s.INFO) ∧
      (t.ESTATE = .decoding ∨ t.ESTATE = .error)
    (exec (.matchShort k) s = .next t → kept ∧ t.WO ≤ s.WO + shortLength k ∧
      ∀ p, ¬(s.WO ≤ p ∧ p < s.WO + shortLength k) → Memory.read t.OUTMEM p = Memory.read s.OUTMEM p) ∧
    (exec (.matchLong k sel) s = .next t → kept ∧
      (∀ n s', longLength k sel (s.withEState .backReference) = .ok n s' → t.WO ≤ s.WO + n ∧
        ∀ p, ¬(s.WO ≤ p ∧ p < s.WO + n) → Memory.read t.OUTMEM p = Memory.read s.OUTMEM p) ∧
      (∀ e s', longLength k sel (s.withEState .backReference) = .error e s' → t.WO = s.WO ∧
        ∀ p, Memory.read t.OUTMEM p = Memory.read s.OUTMEM p))

/-- The frame of the control instructions (R165, R166): neither stores an output byte or moves the write offset; TABLE_SWAP
leaves the condition registers alone unless the call ends; END_SEGMENT leaves the table, the directory, the soft-fault flag and
the staging register alone, and a boundary leaves the condition registers alone (R127, R145). -/
def Obligations.ControlFrame : Prop :=
  ∀ (s t : State),
    (exec .tableSwap s = .next t → t.WO = s.WO ∧ (s.SOFT = true → t.SOFT = true) ∧
      (t.ESTATE = .decoding → t.COND = s.COND ∧ t.INFO = s.INFO) ∧
      (t.ESTATE = .decoding ∨ t.ESTATE = .error) ∧ (t.ESTATE = .error → t.T = s.T) ∧
      ∀ p, Memory.read t.OUTMEM p = Memory.read s.OUTMEM p) ∧
    (exec .endSegment s = .next t → t.WO = s.WO ∧ t.SOFT = s.SOFT ∧ t.T = s.T ∧ t.DIR = s.DIR ∧ t.S = s.S ∧
      (t.ESTATE = .decoding → t.COND = s.COND ∧ t.INFO = s.INFO) ∧
      (t.ESTATE = .decoding ∨ t.ESTATE = .done) ∧
      ∀ p, Memory.read t.OUTMEM p = Memory.read s.OUTMEM p)

/-- R144, R127, R145: only a TABLE_SWAP changes the table or the assignment. The loop top and the symbol decode leave both
alone, whether they go on to an instruction or end the call (which leaves the counters alone too), and so does every other
instruction. -/
def Obligations.OnlyTableSwapChangesTheTables : Prop :=
  (∀ (i : Instr) (s t : State), nextInstr s = .ok i t → t.T = s.T ∧ t.DIR.ASSIGN = s.DIR.ASSIGN) ∧
  (∀ (s t : State), nextInstr s = .error .callEnded t → t.T = s.T ∧ t.DIR = s.DIR) ∧
  (∀ (i : Instr) (s t : State), i ≠ .tableSwap → exec i s = .next t → t.T = s.T ∧ t.DIR = s.DIR)

/-! ### Invariants and whole-machine rules -/

/-- The state after reset meets the invariant. It rests on the model's values for the per-call registers (log 6). -/
def Obligations.ResetMeetsTheInvariant : Prop := State.reset.Inv

/-- Every step, the engine's and the host's, keeps the invariant: the registers stay in their fields, the memories in canonical
form, the table cumulative (R24) with no length above `P_MAX_CODE_LEN`, the directory a permutation (R25), at most 7 bits staged (R109), the staged bits those of the
source (R40), the engine state one of the four between iterations (R28), and the condition fitting it (R167, R221). -/
def Obligations.EveryStepKeepsTheInvariant : Prop :=
  ∀ (s t : State), s.Inv → step s = .next t → t.Inv

/-- R64, R84, R102: from a state that meets the invariant the engine never stops: its every turn answers a next state, so no
access falls outside a memory and no symbol is without an instruction. -/
def Obligations.EngineNeverStops : Prop :=
  ∀ (s : State), s.Inv → s.nextTurn = .engine → SafeStep s

/-- R27, R60, R61, R73: no step changes the constants, and no turn of the engine changes `SRCMEM` or a register the host
writes. -/
def Obligations.EngineOnlyReadsItsInputs : Prop :=
  ∀ (s t : State), step s = .next t →
    t.params = s.params ∧
    (s.nextTurn = .engine → t.SRCMEM = s.SRCMEM ∧ t.LENIENT = s.LENIENT ∧ t.SRC_OFFSET = s.SRC_OFFSET ∧
      t.SRC_LENGTH = s.SRC_LENGTH ∧ t.UNPACKED_LENGTH = s.UNPACKED_LENGTH)

/-- R26, R61: a turn of the engine never moves the write offset back or past `UL`, and changes only the bytes it moves over, so
each offset is written once, in ascending order. -/
def Obligations.OutputIsWrittenOnceAscending : Prop :=
  ∀ (s t : State), s.nextTurn = .engine → step s = .next t →
    s.WO ≤ t.WO ∧ (s.WO ≤ s.UL → t.WO ≤ s.UL) ∧
    ∀ p, p < s.WO ∨ t.WO ≤ p → Memory.read t.OUTMEM p = Memory.read s.OUTMEM p

/-- R227, R68, R39: a call's course does not depend on what `OUTMEM` held before it. From two states that differ only in
output bytes not yet written, a turn of the engine does the same and leaves two states that again differ only there. -/
def Obligations.CallIgnoresOldOutput : Prop :=
  ∀ (s : State) (m : List Host.Cell), s.nextTurn = .engine → Memory.wf m → Memory.wf s.OUTMEM →
    (∀ p < s.WO, Memory.read m p = Memory.read s.OUTMEM p) →
    (∀ t, step s = .next t → ∃ m', step { s with OUTMEM := m } = .next { t with OUTMEM := m' } ∧ Memory.wf m' ∧
      ∀ p < t.WO, Memory.read m' p = Memory.read t.OUTMEM p)

/-- R169, R271: every call ends. With draining underflows, a call that has just been started is in DONE or ERROR after at most
`2*END + 2` turns of the engine (its iterations and the turn that finds the end), having begun at most `2*END + 1` iterations.
Without, it still ends: each iteration that goes on takes a bit or writes a byte, so at most `8*END + UL + 1` turns are needed. -/
def Obligations.EveryCallEnds : Prop :=
  ∀ (s : State), s.Inv → (∀ turn ∈ s.agenda, turn = .engine) → s.ESTATE = .decoding →
    s.POS = 0 → s.V = 0 → s.WO = 0 → s.ITER = 0 →
    (s.params.underflowDrain = true → ∃ k t, k ≤ 2 * s.END + 2 ∧ core.run k s = .next t ∧
      (t.ESTATE = .done ∨ t.ESTATE = .error) ∧ t.ITER ≤ 2 * s.END + 1) ∧
    (∃ k t, k ≤ 8 * s.END + s.UL + 1 ∧ core.run k s = .next t ∧ (t.ESTATE = .done ∨ t.ESTATE = .error))
end

