-- ==== Sys2Proof/Laws/Memory.lean ====
section
/-! SUPPORT. The laws of byte memory: read after write, and that every operation keeps the canonical form. -/

namespace Sys2Proof.Machine.Memory

theorem read_nil (a : Nat) : read [] a = unlisted := rfl

/-- An address below every listed one reads as unlisted. -/
theorem read_of_lt {m : List Host.Cell} {a : Nat} (h : ∀ c ∈ m, a < c.1) : read m a = unlisted := by
  induction m with
  | nil => rfl
  | cons c rest ih =>
    obtain ⟨k, b⟩ := c
    have hk : a < k := h (k, b) (by simp)
    rw [read, if_neg (by omega), ih fun c hc => h c (by simp [hc])]

/-- A write gives the byte at its address. On a list that is not in canonical form the address could be listed twice. -/
theorem read_write_same {m : List Host.Cell} (hm : wf m) (a : Nat) (v : Byte) : read (write m a v) a = v := by
  induction m with
  | nil => by_cases hv : v = unlisted <;> simp [write, read, hv]
  | cons c rest ih =>
    obtain ⟨k, b⟩ := c
    have hp := List.pairwise_cons.mp hm.1
    have hrest : wf rest := ⟨hp.2, fun c hc => hm.2 c (by simp [hc])⟩
    by_cases h1 : a < k
    · by_cases hv : v = unlisted
      · have hlt : ∀ c ∈ (k, b) :: rest, a < c.1 := by
          intro c hc
          rcases List.mem_cons.mp hc with rfl | hc
          · exact h1
          · exact Nat.lt_trans h1 (hp.1 c hc)
        rw [write, if_pos h1, if_pos hv, read_of_lt hlt, hv]
      · simp [write, h1, hv, read]
    · by_cases h2 : a = k
      · subst h2
        by_cases hv : v = unlisted
        · simp [write, hv, read_of_lt hp.1]
        · simp [write, hv, read]
      · simp [write, h1, h2, read, Ne.symm h2, ih hrest]

/-- A write leaves every other address as it was. -/
theorem read_write_ne {m : List Host.Cell} {a a' : Nat} (v : Byte) (h : a' ≠ a) :
    read (write m a v) a' = read m a' := by
  induction m with
  | nil => by_cases hv : v = unlisted <;> simp [write, read, hv, Ne.symm h]
  | cons c rest ih =>
    obtain ⟨k, b⟩ := c
    by_cases h1 : a < k
    · by_cases hv : v = unlisted <;> simp [write, h1, hv, read, Ne.symm h]
    · by_cases h2 : a = k
      · subst h2
        by_cases hv : v = unlisted <;> simp [write, hv, read, Ne.symm h]
      · simp only [write, if_neg h1, if_neg h2, read, ih]
/-- Read after write, in one line. -/
theorem read_write {m : List Host.Cell} (hm : wf m) (a a' : Nat) (v : Byte) :
    read (write m a v) a' = if a' = a then v else read m a' := by
  split
  · next h => rw [h, read_write_same hm]
  · next h => exact read_write_ne v h

/-- Every entry after a write is the written one or was there before. -/
theorem mem_write {m : List Host.Cell} {a : Nat} {v : Byte} {c : Host.Cell} (h : c ∈ write m a v) :
    (c = (a, v) ∧ v ≠ unlisted) ∨ c ∈ m := by
  induction m with
  | nil =>
    by_cases hv : v = unlisted
    · simp [write, hv] at h
    · exact .inl ⟨by simpa [write, hv] using h, hv⟩
  | cons d rest ih =>
    obtain ⟨k, b⟩ := d
    by_cases h1 : a < k
    · by_cases hv : v = unlisted
      · exact .inr (by simpa [write, h1, hv] using h)
      · rcases List.mem_cons.mp (by simpa only [write, if_pos h1, if_neg hv] using h) with rfl | h
        · exact .inl ⟨rfl, hv⟩
        · exact .inr h
    · by_cases h2 : a = k
      · subst h2
        by_cases hv : v = unlisted
        · exact .inr (List.mem_cons_of_mem _ (by simpa [write, hv] using h))
        · rcases List.mem_cons.mp (by simpa [write, hv] using h) with rfl | h
          · exact .inl ⟨rfl, hv⟩
          · exact .inr (List.mem_cons_of_mem _ h)
      · rcases List.mem_cons.mp (by simpa only [write, if_neg h1, if_neg h2] using h) with rfl | h
        · exact .inr (by simp)
        · exact (ih h).imp id (List.mem_cons_of_mem _)

/-- A write keeps the canonical form. -/
theorem wf_write {m : List Host.Cell} (hm : wf m) (a : Nat) (v : Byte) : wf (write m a v) := by
  refine ⟨?_, fun c hc => ?_⟩
  · induction m with
    | nil => by_cases hv : v = unlisted <;> simp [write, hv]
    | cons d rest ih =>
      obtain ⟨k, b⟩ := d
      have hp := List.pairwise_cons.mp hm.1
      have hrest : wf rest := ⟨hp.2, fun c hc => hm.2 c (by simp [hc])⟩
      by_cases h1 : a < k
      · by_cases hv : v = unlisted
        · simpa only [write, if_pos h1, if_pos hv] using hm.1
        · simp only [write, if_pos h1, if_neg hv]
          refine List.pairwise_cons.mpr ⟨fun c hc => ?_, hm.1⟩
          rcases List.mem_cons.mp hc with rfl | hc
          · exact h1
          · exact Nat.lt_trans h1 (hp.1 c hc)
      · by_cases h2 : a = k
        · subst h2
          by_cases hv : v = unlisted
          · simpa [write, hv] using hp.2
          · simpa [write, hv] using hp
        · simp only [write, if_neg h1, if_neg h2]
          refine List.pairwise_cons.mpr ⟨fun c hc => ?_, ih hrest⟩
          rcases mem_write hc with ⟨rfl, _⟩ | hc
          · exact (show k < a by omega)
          · exact hp.1 c hc
  · rcases mem_write hc with ⟨rfl, hv⟩ | hc
    · exact hv
    · exact hm.2 c hc

/-- Storing a byte string keeps the canonical form. -/
theorem wf_load {m : List Host.Cell} (hm : wf m) (a : Nat) (bytes : List Byte) : wf (load m a bytes) := by
  induction bytes generalizing m a with
  | nil => exact hm
  | cons b bytes ih => exact ih (wf_write hm a b) (a + 1)

/-- Drawing a range anew keeps the canonical form. -/
theorem wf_scramble {m : List Host.Cell} (hm : wf m) (draw n : Nat) : wf (scramble m draw n) := by
  induction n with
  | zero => exact hm
  | succ n ih => exact wf_write ih _ _

/-- Drawing a range anew leaves every address at or above it as it was. -/
theorem read_scramble_of_ge {m : List Host.Cell} {draw n p : Nat} (h : n ≤ p) :
    read (scramble m draw n) p = read m p := by
  induction n with
  | zero => rfl
  | succ n ih => rw [scramble, read_write_ne _ (by omega), ih (by omega)]

/-- Reset memory is in canonical form. -/
theorem wf_nil : wf [] := ⟨.nil, fun _ h => absurd h (by simp)⟩

theorem wf_reset : wf State.reset.SRCMEM ∧ wf State.reset.OUTMEM := ⟨wf_nil, wf_nil⟩

end Sys2Proof.Machine.Memory
end

