-- ==== Sys2Proof/Laws/Bits.lean ====
section
/-! SUPPORT. Bit strings and numbers: `bitsOf` and `valueOf` are inverse to each other, and how they meet append, take, drop. -/

namespace Sys2Proof

@[simp] theorem length_bitsOf (w n : Nat) : (bitsOf w n).length = w := by
  induction w with
  | zero => rfl
  | succ w ih => simp [bitsOf, ih]

@[simp] theorem bitsOf_zero (n : Nat) : bitsOf 0 n = [] := rfl

/-- Bit `i` of a bit string, from its most significant end. -/
theorem getElem_bitsOf {w n i : Nat} (h : i < (bitsOf w n).length) : (bitsOf w n)[i] = n.testBit (w - 1 - i) := by
  induction w generalizing i with
  | zero => simp at h
  | succ w ih =>
    cases i with
    | zero => simp [bitsOf]
    | succ i =>
      simp only [bitsOf, List.getElem_cons_succ]
      rw [ih]
      congr 1
      simp at h
      omega

theorem bitsOf_congr {w m n : Nat} (h : ∀ i < w, m.testBit i = n.testBit i) : bitsOf w m = bitsOf w n := by
  refine List.ext_getElem (by simp) fun i h₁ h₂ => ?_
  rw [getElem_bitsOf, getElem_bitsOf]
  simp at h₁
  exact h _ (by omega)

/-- The high bits and the low bits of a string. -/
theorem bitsOf_append (a b n : Nat) : bitsOf (a + b) n = bitsOf a (n / 2 ^ b) ++ bitsOf b n := by
  refine List.ext_getElem (by simp) fun i h₁ h₂ => ?_
  rw [getElem_bitsOf, List.getElem_append]
  simp at h₁
  split
  · next h =>
    rw [getElem_bitsOf, Nat.testBit_div_two_pow]
    simp at h
    congr 1
    omega
  · next h =>
    rw [getElem_bitsOf]
    simp at h
    congr 1
    simp
    omega

theorem take_bitsOf {w k n : Nat} (h : k ≤ w) : (bitsOf w n).take k = bitsOf k (n / 2 ^ (w - k)) := by
  obtain ⟨r, rfl⟩ := Nat.exists_eq_add_of_le h
  rw [bitsOf_append, List.take_append_of_le_length (by simp), List.take_of_length_le (by simp)]
  simp

theorem drop_bitsOf {w k n : Nat} (h : k ≤ w) : (bitsOf w n).drop k = bitsOf (w - k) n := by
  obtain ⟨r, rfl⟩ := Nat.exists_eq_add_of_le h
  rw [bitsOf_append, List.drop_append_of_le_length (by simp), List.drop_of_length_le (by simp)]
  simp

theorem valueOf_foldl (acc : Nat) (bits : List Bool) :
    bits.foldl (fun a b => 2 * a + b.toNat) acc = acc * 2 ^ bits.length + valueOf bits := by
  induction bits generalizing acc with
  | nil => simp [valueOf]
  | cons b bits ih =>
    have h0 : valueOf (b :: bits) = b.toNat * 2 ^ bits.length + valueOf bits := by
      rw [valueOf, List.foldl_cons, ih]; simp
    rw [List.foldl_cons, ih, h0, List.length_cons, Nat.pow_succ]
    ring

@[simp] theorem valueOf_nil : valueOf [] = 0 := rfl

theorem valueOf_cons (b : Bool) (bits : List Bool) :
    valueOf (b :: bits) = b.toNat * 2 ^ bits.length + valueOf bits := by
  rw [valueOf, List.foldl_cons, valueOf_foldl]; simp

theorem valueOf_append (xs ys : List Bool) : valueOf (xs ++ ys) = valueOf xs * 2 ^ ys.length + valueOf ys := by
  rw [valueOf, List.foldl_append, valueOf_foldl]; rfl

theorem valueOf_lt (bits : List Bool) : valueOf bits < 2 ^ bits.length := by
  induction bits with
  | nil => simp
  | cons b bits ih =>
    rw [valueOf_cons, List.length_cons, Nat.pow_succ]
    cases b <;> simp <;> omega

/-- Reading back the `w` low bits of a number. -/
theorem valueOf_bitsOf (w n : Nat) : valueOf (bitsOf w n) = n % 2 ^ w := by
  induction w with
  | zero => simp [Nat.mod_one]
  | succ w ih =>
    rw [bitsOf, valueOf_cons, ih, length_bitsOf, Nat.mod_pow_succ, Nat.toNat_testBit]
    ring

theorem valueOf_bitsOf_of_lt {w n : Nat} (h : n < 2 ^ w) : valueOf (bitsOf w n) = n := by
  rw [valueOf_bitsOf, Nat.mod_eq_of_lt h]

/-- Writing out the value of a string gives the string. -/
theorem bitsOf_valueOf (bits : List Bool) : bitsOf bits.length (valueOf bits) = bits := by
  induction bits with
  | nil => rfl
  | cons b bits ih =>
    have hlt := valueOf_lt bits
    have htb : (valueOf (b :: bits)).testBit bits.length = b := by
      rw [valueOf_cons]
      cases b
      · simpa using Nat.testBit_lt_two_pow hlt
      · rw [Nat.add_comm, Bool.toNat_true, Nat.one_mul, Nat.add_comm, Nat.testBit_two_pow_add_eq]
        simp [Nat.testBit_lt_two_pow hlt]
    have hlow : bitsOf bits.length (valueOf (b :: bits)) = bitsOf bits.length (valueOf bits) := by
      refine bitsOf_congr fun i hi => ?_
      rw [valueOf_cons]
      cases b
      · simp
      · rw [Bool.toNat_true, Nat.one_mul, Nat.testBit_two_pow_add_gt hi]
    rw [List.length_cons, bitsOf, htb, hlow, ih]

/-- The first bits of `bitsOf w n ++ rest`, read back. -/
theorem takeBits_append {w n : Nat} (h : n < 2 ^ w) (rest : List Bool) :
    takeBits w (bitsOf w n ++ rest) = some (n, rest) := by
  have hl : w ≤ (bitsOf w n ++ rest).length := by simp
  rw [takeBits, if_pos hl, List.take_append_of_le_length (by simp), List.take_of_length_le (by simp),
    List.drop_append_of_le_length (by simp), List.drop_of_length_le (by simp), valueOf_bitsOf_of_lt h]
  rfl

/-- What a successful take says of the bits. -/
theorem takeBits_eq_some {n v : Nat} {bits rest : List Bool} (h : takeBits n bits = some (v, rest)) :
    bits = bitsOf n v ++ rest ∧ v < 2 ^ n := by
  unfold takeBits at h
  split at h
  · next hl =>
    simp only [Option.some.injEq, Prod.mk.injEq] at h
    obtain ⟨rfl, rfl⟩ := h
    have hlen : (bits.take n).length = n := by simpa using hl
    constructor
    · conv_lhs => rw [← List.take_append_drop n bits]
      congr 1
      have h := bitsOf_valueOf (bits.take n)
      rw [hlen] at h
      exact h.symm
    · simpa only [hlen] using valueOf_lt (bits.take n)
  · simp at h

end Sys2Proof
end

