-- ==== Sys2Proof/Laws/State.lean ====
section
/-! SUPPORT. What each named update of the state leaves in each field: one lemma per field per update. -/

namespace Sys2Proof.Machine.State

variable (s : State)

/-! ### `stage` -/
@[simp] theorem stage_LENIENT (b : Byte) : (s.stage b).LENIENT = s.LENIENT := rfl
@[simp] theorem stage_SRC_OFFSET (b : Byte) : (s.stage b).SRC_OFFSET = s.SRC_OFFSET := rfl
@[simp] theorem stage_SRC_LENGTH (b : Byte) : (s.stage b).SRC_LENGTH = s.SRC_LENGTH := rfl
@[simp] theorem stage_UNPACKED_LENGTH (b : Byte) : (s.stage b).UNPACKED_LENGTH = s.UNPACKED_LENGTH := rfl
@[simp] theorem stage_OFF (b : Byte) : (s.stage b).OFF = s.OFF := rfl
@[simp] theorem stage_END (b : Byte) : (s.stage b).END = s.END := rfl
@[simp] theorem stage_POS (b : Byte) : (s.stage b).POS = s.POS + 1 := rfl
@[simp] theorem stage_S (b : Byte) : (s.stage b).S = s.S <<< 8 ||| b.zeroExtend 32 := rfl
@[simp] theorem stage_V (b : Byte) : (s.stage b).V = s.V + 8 := rfl
@[simp] theorem stage_SOFT (b : Byte) : (s.stage b).SOFT = s.SOFT := rfl
@[simp] theorem stage_COND (b : Byte) : (s.stage b).COND = s.COND := rfl
@[simp] theorem stage_INFO (b : Byte) : (s.stage b).INFO = s.INFO := rfl
@[simp] theorem stage_LEN (b : Byte) : (s.stage b).LEN = s.LEN := rfl
@[simp] theorem stage_T (b : Byte) : (s.stage b).T = s.T := rfl
@[simp] theorem stage_DIR (b : Byte) : (s.stage b).DIR = s.DIR := rfl
@[simp] theorem stage_WO (b : Byte) : (s.stage b).WO = s.WO := rfl
@[simp] theorem stage_UL (b : Byte) : (s.stage b).UL = s.UL := rfl
@[simp] theorem stage_ESTATE (b : Byte) : (s.stage b).ESTATE = s.ESTATE := rfl
@[simp] theorem stage_ITER (b : Byte) : (s.stage b).ITER = s.ITER := rfl
@[simp] theorem stage_SRCMEM (b : Byte) : (s.stage b).SRCMEM = s.SRCMEM := rfl
@[simp] theorem stage_OUTMEM (b : Byte) : (s.stage b).OUTMEM = s.OUTMEM := rfl
@[simp] theorem stage_params (b : Byte) : (s.stage b).params = s.params := rfl
@[simp] theorem stage_agenda (b : Byte) : (s.stage b).agenda = s.agenda := rfl
@[simp] theorem stage_lastRead (b : Byte) : (s.stage b).lastRead = s.lastRead := rfl
@[simp] theorem stage_draws (b : Byte) : (s.stage b).draws = s.draws := rfl

/-! ### `consume` -/
@[simp] theorem consume_LENIENT (n : Nat) : (s.consume n).LENIENT = s.LENIENT := rfl
@[simp] theorem consume_SRC_OFFSET (n : Nat) : (s.consume n).SRC_OFFSET = s.SRC_OFFSET := rfl
@[simp] theorem consume_SRC_LENGTH (n : Nat) : (s.consume n).SRC_LENGTH = s.SRC_LENGTH := rfl
@[simp] theorem consume_UNPACKED_LENGTH (n : Nat) : (s.consume n).UNPACKED_LENGTH = s.UNPACKED_LENGTH := rfl
@[simp] theorem consume_OFF (n : Nat) : (s.consume n).OFF = s.OFF := rfl
@[simp] theorem consume_END (n : Nat) : (s.consume n).END = s.END := rfl
@[simp] theorem consume_POS (n : Nat) : (s.consume n).POS = s.POS := rfl
@[simp] theorem consume_S (n : Nat) : (s.consume n).S = s.S := rfl
@[simp] theorem consume_V (n : Nat) : (s.consume n).V = s.V - n := rfl
@[simp] theorem consume_SOFT (n : Nat) : (s.consume n).SOFT = s.SOFT := rfl
@[simp] theorem consume_COND (n : Nat) : (s.consume n).COND = s.COND := rfl
@[simp] theorem consume_INFO (n : Nat) : (s.consume n).INFO = s.INFO := rfl
@[simp] theorem consume_LEN (n : Nat) : (s.consume n).LEN = s.LEN := rfl
@[simp] theorem consume_T (n : Nat) : (s.consume n).T = s.T := rfl
@[simp] theorem consume_DIR (n : Nat) : (s.consume n).DIR = s.DIR := rfl
@[simp] theorem consume_WO (n : Nat) : (s.consume n).WO = s.WO := rfl
@[simp] theorem consume_UL (n : Nat) : (s.consume n).UL = s.UL := rfl
@[simp] theorem consume_ESTATE (n : Nat) : (s.consume n).ESTATE = s.ESTATE := rfl
@[simp] theorem consume_ITER (n : Nat) : (s.consume n).ITER = s.ITER := rfl
@[simp] theorem consume_SRCMEM (n : Nat) : (s.consume n).SRCMEM = s.SRCMEM := rfl
@[simp] theorem consume_OUTMEM (n : Nat) : (s.consume n).OUTMEM = s.OUTMEM := rfl
@[simp] theorem consume_params (n : Nat) : (s.consume n).params = s.params := rfl
@[simp] theorem consume_agenda (n : Nat) : (s.consume n).agenda = s.agenda := rfl
@[simp] theorem consume_lastRead (n : Nat) : (s.consume n).lastRead = s.lastRead := rfl
@[simp] theorem consume_draws (n : Nat) : (s.consume n).draws = s.draws := rfl

/-! ### `softFault` -/
@[simp] theorem softFault_LENIENT : s.softFault.LENIENT = s.LENIENT := rfl
@[simp] theorem softFault_SRC_OFFSET : s.softFault.SRC_OFFSET = s.SRC_OFFSET := rfl
@[simp] theorem softFault_SRC_LENGTH : s.softFault.SRC_LENGTH = s.SRC_LENGTH := rfl
@[simp] theorem softFault_UNPACKED_LENGTH : s.softFault.UNPACKED_LENGTH = s.UNPACKED_LENGTH := rfl
@[simp] theorem softFault_OFF : s.softFault.OFF = s.OFF := rfl
@[simp] theorem softFault_END : s.softFault.END = s.END := rfl
@[simp] theorem softFault_POS : s.softFault.POS = s.POS := rfl
@[simp] theorem softFault_S : s.softFault.S = s.S := rfl
@[simp] theorem softFault_V : s.softFault.V = if s.params.underflowDrain then 0 else s.V := rfl
@[simp] theorem softFault_SOFT : s.softFault.SOFT = true := rfl
@[simp] theorem softFault_COND : s.softFault.COND = s.COND := rfl
@[simp] theorem softFault_INFO : s.softFault.INFO = s.INFO := rfl
@[simp] theorem softFault_LEN : s.softFault.LEN = s.LEN := rfl
@[simp] theorem softFault_T : s.softFault.T = s.T := rfl
@[simp] theorem softFault_DIR : s.softFault.DIR = s.DIR := rfl
@[simp] theorem softFault_WO : s.softFault.WO = s.WO := rfl
@[simp] theorem softFault_UL : s.softFault.UL = s.UL := rfl
@[simp] theorem softFault_ESTATE : s.softFault.ESTATE = s.ESTATE := rfl
@[simp] theorem softFault_ITER : s.softFault.ITER = s.ITER := rfl
@[simp] theorem softFault_SRCMEM : s.softFault.SRCMEM = s.SRCMEM := rfl
@[simp] theorem softFault_OUTMEM : s.softFault.OUTMEM = s.OUTMEM := rfl
@[simp] theorem softFault_params : s.softFault.params = s.params := rfl
@[simp] theorem softFault_agenda : s.softFault.agenda = s.agenda := rfl
@[simp] theorem softFault_lastRead : s.softFault.lastRead = s.lastRead := rfl
@[simp] theorem softFault_draws : s.softFault.draws = s.draws := rfl

/-! ### `realign` -/
@[simp] theorem realign_LENIENT : s.realign.LENIENT = s.LENIENT := rfl
@[simp] theorem realign_SRC_OFFSET : s.realign.SRC_OFFSET = s.SRC_OFFSET := rfl
@[simp] theorem realign_SRC_LENGTH : s.realign.SRC_LENGTH = s.SRC_LENGTH := rfl
@[simp] theorem realign_UNPACKED_LENGTH : s.realign.UNPACKED_LENGTH = s.UNPACKED_LENGTH := rfl
@[simp] theorem realign_OFF : s.realign.OFF = s.OFF := rfl
@[simp] theorem realign_END : s.realign.END = s.END := rfl
@[simp] theorem realign_POS : s.realign.POS = s.POS - s.V / 8 := rfl
@[simp] theorem realign_S : s.realign.S = s.S := rfl
@[simp] theorem realign_V : s.realign.V = 0 := rfl
@[simp] theorem realign_SOFT : s.realign.SOFT = s.SOFT := rfl
@[simp] theorem realign_COND : s.realign.COND = s.COND := rfl
@[simp] theorem realign_INFO : s.realign.INFO = s.INFO := rfl
@[simp] theorem realign_LEN : s.realign.LEN = s.LEN := rfl
@[simp] theorem realign_T : s.realign.T = s.T := rfl
@[simp] theorem realign_DIR : s.realign.DIR = s.DIR := rfl
@[simp] theorem realign_WO : s.realign.WO = s.WO := rfl
@[simp] theorem realign_UL : s.realign.UL = s.UL := rfl
@[simp] theorem realign_ESTATE : s.realign.ESTATE = s.ESTATE := rfl
@[simp] theorem realign_ITER : s.realign.ITER = s.ITER := rfl
@[simp] theorem realign_SRCMEM : s.realign.SRCMEM = s.SRCMEM := rfl
@[simp] theorem realign_OUTMEM : s.realign.OUTMEM = s.OUTMEM := rfl
@[simp] theorem realign_params : s.realign.params = s.params := rfl
@[simp] theorem realign_agenda : s.realign.agenda = s.agenda := rfl
@[simp] theorem realign_lastRead : s.realign.lastRead = s.lastRead := rfl
@[simp] theorem realign_draws : s.realign.draws = s.draws := rfl

/-! ### `emit` -/
@[simp] theorem emit_LENIENT (v : Byte) : (s.emit v).LENIENT = s.LENIENT := rfl
@[simp] theorem emit_SRC_OFFSET (v : Byte) : (s.emit v).SRC_OFFSET = s.SRC_OFFSET := rfl
@[simp] theorem emit_SRC_LENGTH (v : Byte) : (s.emit v).SRC_LENGTH = s.SRC_LENGTH := rfl
@[simp] theorem emit_UNPACKED_LENGTH (v : Byte) : (s.emit v).UNPACKED_LENGTH = s.UNPACKED_LENGTH := rfl
@[simp] theorem emit_OFF (v : Byte) : (s.emit v).OFF = s.OFF := rfl
@[simp] theorem emit_END (v : Byte) : (s.emit v).END = s.END := rfl
@[simp] theorem emit_POS (v : Byte) : (s.emit v).POS = s.POS := rfl
@[simp] theorem emit_S (v : Byte) : (s.emit v).S = s.S := rfl
@[simp] theorem emit_V (v : Byte) : (s.emit v).V = s.V := rfl
@[simp] theorem emit_SOFT (v : Byte) : (s.emit v).SOFT = s.SOFT := rfl
@[simp] theorem emit_COND (v : Byte) : (s.emit v).COND = s.COND := rfl
@[simp] theorem emit_INFO (v : Byte) : (s.emit v).INFO = s.INFO := rfl
@[simp] theorem emit_LEN (v : Byte) : (s.emit v).LEN = s.LEN := rfl
@[simp] theorem emit_T (v : Byte) : (s.emit v).T = s.T := rfl
@[simp] theorem emit_DIR (v : Byte) : (s.emit v).DIR = s.DIR := rfl
@[simp] theorem emit_WO (v : Byte) : (s.emit v).WO = s.WO + 1 := rfl
@[simp] theorem emit_UL (v : Byte) : (s.emit v).UL = s.UL := rfl
@[simp] theorem emit_ESTATE (v : Byte) : (s.emit v).ESTATE = s.ESTATE := rfl
@[simp] theorem emit_ITER (v : Byte) : (s.emit v).ITER = s.ITER := rfl
@[simp] theorem emit_SRCMEM (v : Byte) : (s.emit v).SRCMEM = s.SRCMEM := rfl
@[simp] theorem emit_OUTMEM (v : Byte) : (s.emit v).OUTMEM = Memory.write s.OUTMEM s.WO v := rfl
@[simp] theorem emit_params (v : Byte) : (s.emit v).params = s.params := rfl
@[simp] theorem emit_agenda (v : Byte) : (s.emit v).agenda = s.agenda := rfl
@[simp] theorem emit_lastRead (v : Byte) : (s.emit v).lastRead = s.lastRead := rfl
@[simp] theorem emit_draws (v : Byte) : (s.emit v).draws = s.draws := rfl

/-! ### `withDir` -/
@[simp] theorem withDir_LENIENT (d : Directory) : (s.withDir d).LENIENT = s.LENIENT := rfl
@[simp] theorem withDir_SRC_OFFSET (d : Directory) : (s.withDir d).SRC_OFFSET = s.SRC_OFFSET := rfl
@[simp] theorem withDir_SRC_LENGTH (d : Directory) : (s.withDir d).SRC_LENGTH = s.SRC_LENGTH := rfl
@[simp] theorem withDir_UNPACKED_LENGTH (d : Directory) : (s.withDir d).UNPACKED_LENGTH = s.UNPACKED_LENGTH := rfl
@[simp] theorem withDir_OFF (d : Directory) : (s.withDir d).OFF = s.OFF := rfl
@[simp] theorem withDir_END (d : Directory) : (s.withDir d).END = s.END := rfl
@[simp] theorem withDir_POS (d : Directory) : (s.withDir d).POS = s.POS := rfl
@[simp] theorem withDir_S (d : Directory) : (s.withDir d).S = s.S := rfl
@[simp] theorem withDir_V (d : Directory) : (s.withDir d).V = s.V := rfl
@[simp] theorem withDir_SOFT (d : Directory) : (s.withDir d).SOFT = s.SOFT := rfl
@[simp] theorem withDir_COND (d : Directory) : (s.withDir d).COND = s.COND := rfl
@[simp] theorem withDir_INFO (d : Directory) : (s.withDir d).INFO = s.INFO := rfl
@[simp] theorem withDir_LEN (d : Directory) : (s.withDir d).LEN = s.LEN := rfl
@[simp] theorem withDir_T (d : Directory) : (s.withDir d).T = s.T := rfl
@[simp] theorem withDir_DIR (d : Directory) : (s.withDir d).DIR = d := rfl
@[simp] theorem withDir_WO (d : Directory) : (s.withDir d).WO = s.WO := rfl
@[simp] theorem withDir_UL (d : Directory) : (s.withDir d).UL = s.UL := rfl
@[simp] theorem withDir_ESTATE (d : Directory) : (s.withDir d).ESTATE = s.ESTATE := rfl
@[simp] theorem withDir_ITER (d : Directory) : (s.withDir d).ITER = s.ITER := rfl
@[simp] theorem withDir_SRCMEM (d : Directory) : (s.withDir d).SRCMEM = s.SRCMEM := rfl
@[simp] theorem withDir_OUTMEM (d : Directory) : (s.withDir d).OUTMEM = s.OUTMEM := rfl
@[simp] theorem withDir_params (d : Directory) : (s.withDir d).params = s.params := rfl
@[simp] theorem withDir_agenda (d : Directory) : (s.withDir d).agenda = s.agenda := rfl
@[simp] theorem withDir_lastRead (d : Directory) : (s.withDir d).lastRead = s.lastRead := rfl
@[simp] theorem withDir_draws (d : Directory) : (s.withDir d).draws = s.draws := rfl

/-! ### `withTable` -/
@[simp] theorem withTable_LENIENT (t : Table) : (s.withTable t).LENIENT = s.LENIENT := rfl
@[simp] theorem withTable_SRC_OFFSET (t : Table) : (s.withTable t).SRC_OFFSET = s.SRC_OFFSET := rfl
@[simp] theorem withTable_SRC_LENGTH (t : Table) : (s.withTable t).SRC_LENGTH = s.SRC_LENGTH := rfl
@[simp] theorem withTable_UNPACKED_LENGTH (t : Table) : (s.withTable t).UNPACKED_LENGTH = s.UNPACKED_LENGTH := rfl
@[simp] theorem withTable_OFF (t : Table) : (s.withTable t).OFF = s.OFF := rfl
@[simp] theorem withTable_END (t : Table) : (s.withTable t).END = s.END := rfl
@[simp] theorem withTable_POS (t : Table) : (s.withTable t).POS = s.POS := rfl
@[simp] theorem withTable_S (t : Table) : (s.withTable t).S = s.S := rfl
@[simp] theorem withTable_V (t : Table) : (s.withTable t).V = s.V := rfl
@[simp] theorem withTable_SOFT (t : Table) : (s.withTable t).SOFT = s.SOFT := rfl
@[simp] theorem withTable_COND (t : Table) : (s.withTable t).COND = s.COND := rfl
@[simp] theorem withTable_INFO (t : Table) : (s.withTable t).INFO = s.INFO := rfl
@[simp] theorem withTable_LEN (t : Table) : (s.withTable t).LEN = s.LEN := rfl
@[simp] theorem withTable_T (t : Table) : (s.withTable t).T = t := rfl
@[simp] theorem withTable_DIR (t : Table) : (s.withTable t).DIR = s.DIR := rfl
@[simp] theorem withTable_WO (t : Table) : (s.withTable t).WO = s.WO := rfl
@[simp] theorem withTable_UL (t : Table) : (s.withTable t).UL = s.UL := rfl
@[simp] theorem withTable_ESTATE (t : Table) : (s.withTable t).ESTATE = s.ESTATE := rfl
@[simp] theorem withTable_ITER (t : Table) : (s.withTable t).ITER = s.ITER := rfl
@[simp] theorem withTable_SRCMEM (t : Table) : (s.withTable t).SRCMEM = s.SRCMEM := rfl
@[simp] theorem withTable_OUTMEM (t : Table) : (s.withTable t).OUTMEM = s.OUTMEM := rfl
@[simp] theorem withTable_params (t : Table) : (s.withTable t).params = s.params := rfl
@[simp] theorem withTable_agenda (t : Table) : (s.withTable t).agenda = s.agenda := rfl
@[simp] theorem withTable_lastRead (t : Table) : (s.withTable t).lastRead = s.lastRead := rfl
@[simp] theorem withTable_draws (t : Table) : (s.withTable t).draws = s.draws := rfl

/-! ### `withEState` -/
@[simp] theorem withEState_LENIENT (e : EState) : (s.withEState e).LENIENT = s.LENIENT := rfl
@[simp] theorem withEState_SRC_OFFSET (e : EState) : (s.withEState e).SRC_OFFSET = s.SRC_OFFSET := rfl
@[simp] theorem withEState_SRC_LENGTH (e : EState) : (s.withEState e).SRC_LENGTH = s.SRC_LENGTH := rfl
@[simp] theorem withEState_UNPACKED_LENGTH (e : EState) : (s.withEState e).UNPACKED_LENGTH = s.UNPACKED_LENGTH := rfl
@[simp] theorem withEState_OFF (e : EState) : (s.withEState e).OFF = s.OFF := rfl
@[simp] theorem withEState_END (e : EState) : (s.withEState e).END = s.END := rfl
@[simp] theorem withEState_POS (e : EState) : (s.withEState e).POS = s.POS := rfl
@[simp] theorem withEState_S (e : EState) : (s.withEState e).S = s.S := rfl
@[simp] theorem withEState_V (e : EState) : (s.withEState e).V = s.V := rfl
@[simp] theorem withEState_SOFT (e : EState) : (s.withEState e).SOFT = s.SOFT := rfl
@[simp] theorem withEState_COND (e : EState) : (s.withEState e).COND = s.COND := rfl
@[simp] theorem withEState_INFO (e : EState) : (s.withEState e).INFO = s.INFO := rfl
@[simp] theorem withEState_LEN (e : EState) : (s.withEState e).LEN = s.LEN := rfl
@[simp] theorem withEState_T (e : EState) : (s.withEState e).T = s.T := rfl
@[simp] theorem withEState_DIR (e : EState) : (s.withEState e).DIR = s.DIR := rfl
@[simp] theorem withEState_WO (e : EState) : (s.withEState e).WO = s.WO := rfl
@[simp] theorem withEState_UL (e : EState) : (s.withEState e).UL = s.UL := rfl
@[simp] theorem withEState_ESTATE (e : EState) : (s.withEState e).ESTATE = e := rfl
@[simp] theorem withEState_ITER (e : EState) : (s.withEState e).ITER = s.ITER := rfl
@[simp] theorem withEState_SRCMEM (e : EState) : (s.withEState e).SRCMEM = s.SRCMEM := rfl
@[simp] theorem withEState_OUTMEM (e : EState) : (s.withEState e).OUTMEM = s.OUTMEM := rfl
@[simp] theorem withEState_params (e : EState) : (s.withEState e).params = s.params := rfl
@[simp] theorem withEState_agenda (e : EState) : (s.withEState e).agenda = s.agenda := rfl
@[simp] theorem withEState_lastRead (e : EState) : (s.withEState e).lastRead = s.lastRead := rfl
@[simp] theorem withEState_draws (e : EState) : (s.withEState e).draws = s.draws := rfl

/-! ### `countIteration` -/
@[simp] theorem countIteration_LENIENT : s.countIteration.LENIENT = s.LENIENT := rfl
@[simp] theorem countIteration_SRC_OFFSET : s.countIteration.SRC_OFFSET = s.SRC_OFFSET := rfl
@[simp] theorem countIteration_SRC_LENGTH : s.countIteration.SRC_LENGTH = s.SRC_LENGTH := rfl
@[simp] theorem countIteration_UNPACKED_LENGTH : s.countIteration.UNPACKED_LENGTH = s.UNPACKED_LENGTH := rfl
@[simp] theorem countIteration_OFF : s.countIteration.OFF = s.OFF := rfl
@[simp] theorem countIteration_END : s.countIteration.END = s.END := rfl
@[simp] theorem countIteration_POS : s.countIteration.POS = s.POS := rfl
@[simp] theorem countIteration_S : s.countIteration.S = s.S := rfl
@[simp] theorem countIteration_V : s.countIteration.V = s.V := rfl
@[simp] theorem countIteration_SOFT : s.countIteration.SOFT = s.SOFT := rfl
@[simp] theorem countIteration_COND : s.countIteration.COND = s.COND := rfl
@[simp] theorem countIteration_INFO : s.countIteration.INFO = s.INFO := rfl
@[simp] theorem countIteration_LEN : s.countIteration.LEN = s.LEN := rfl
@[simp] theorem countIteration_T : s.countIteration.T = s.T := rfl
@[simp] theorem countIteration_DIR : s.countIteration.DIR = s.DIR := rfl
@[simp] theorem countIteration_WO : s.countIteration.WO = s.WO := rfl
@[simp] theorem countIteration_UL : s.countIteration.UL = s.UL := rfl
@[simp] theorem countIteration_ESTATE : s.countIteration.ESTATE = s.ESTATE := rfl
@[simp] theorem countIteration_ITER : s.countIteration.ITER = s.ITER + 1 := rfl
@[simp] theorem countIteration_SRCMEM : s.countIteration.SRCMEM = s.SRCMEM := rfl
@[simp] theorem countIteration_OUTMEM : s.countIteration.OUTMEM = s.OUTMEM := rfl
@[simp] theorem countIteration_params : s.countIteration.params = s.params := rfl
@[simp] theorem countIteration_agenda : s.countIteration.agenda = s.agenda := rfl
@[simp] theorem countIteration_lastRead : s.countIteration.lastRead = s.lastRead := rfl
@[simp] theorem countIteration_draws : s.countIteration.draws = s.draws := rfl

/-! ### `endCall` -/
@[simp] theorem endCall_LENIENT (code : Condition) (info : Word) (e : EState) : (s.endCall code info e).LENIENT = s.LENIENT := rfl
@[simp] theorem endCall_SRC_OFFSET (code : Condition) (info : Word) (e : EState) : (s.endCall code info e).SRC_OFFSET = s.SRC_OFFSET := rfl
@[simp] theorem endCall_SRC_LENGTH (code : Condition) (info : Word) (e : EState) : (s.endCall code info e).SRC_LENGTH = s.SRC_LENGTH := rfl
@[simp] theorem endCall_UNPACKED_LENGTH (code : Condition) (info : Word) (e : EState) : (s.endCall code info e).UNPACKED_LENGTH = s.UNPACKED_LENGTH := rfl
@[simp] theorem endCall_OFF (code : Condition) (info : Word) (e : EState) : (s.endCall code info e).OFF = s.OFF := rfl
@[simp] theorem endCall_END (code : Condition) (info : Word) (e : EState) : (s.endCall code info e).END = s.END := rfl
@[simp] theorem endCall_POS (code : Condition) (info : Word) (e : EState) : (s.endCall code info e).POS = s.POS := rfl
@[simp] theorem endCall_S (code : Condition) (info : Word) (e : EState) : (s.endCall code info e).S = s.S := rfl
@[simp] theorem endCall_V (code : Condition) (info : Word) (e : EState) : (s.endCall code info e).V = s.V := rfl
@[simp] theorem endCall_SOFT (code : Condition) (info : Word) (e : EState) : (s.endCall code info e).SOFT = s.SOFT := rfl
@[simp] theorem endCall_COND (code : Condition) (info : Word) (e : EState) : (s.endCall code info e).COND = code := rfl
@[simp] theorem endCall_INFO (code : Condition) (info : Word) (e : EState) : (s.endCall code info e).INFO = info := rfl
@[simp] theorem endCall_LEN (code : Condition) (info : Word) (e : EState) : (s.endCall code info e).LEN = s.LEN := rfl
@[simp] theorem endCall_T (code : Condition) (info : Word) (e : EState) : (s.endCall code info e).T = s.T := rfl
@[simp] theorem endCall_DIR (code : Condition) (info : Word) (e : EState) : (s.endCall code info e).DIR = s.DIR := rfl
@[simp] theorem endCall_WO (code : Condition) (info : Word) (e : EState) : (s.endCall code info e).WO = s.WO := rfl
@[simp] theorem endCall_UL (code : Condition) (info : Word) (e : EState) : (s.endCall code info e).UL = s.UL := rfl
@[simp] theorem endCall_ESTATE (code : Condition) (info : Word) (e : EState) : (s.endCall code info e).ESTATE = e := rfl
@[simp] theorem endCall_ITER (code : Condition) (info : Word) (e : EState) : (s.endCall code info e).ITER = s.ITER := rfl
@[simp] theorem endCall_SRCMEM (code : Condition) (info : Word) (e : EState) : (s.endCall code info e).SRCMEM = s.SRCMEM := rfl
@[simp] theorem endCall_OUTMEM (code : Condition) (info : Word) (e : EState) : (s.endCall code info e).OUTMEM = s.OUTMEM := rfl
@[simp] theorem endCall_params (code : Condition) (info : Word) (e : EState) : (s.endCall code info e).params = s.params := rfl
@[simp] theorem endCall_agenda (code : Condition) (info : Word) (e : EState) : (s.endCall code info e).agenda = s.agenda := rfl
@[simp] theorem endCall_lastRead (code : Condition) (info : Word) (e : EState) : (s.endCall code info e).lastRead = s.lastRead := rfl
@[simp] theorem endCall_draws (code : Condition) (info : Word) (e : EState) : (s.endCall code info e).draws = s.draws := rfl

/-! ### `withLastRead` -/
@[simp] theorem withLastRead_LENIENT (w : Word) : (s.withLastRead w).LENIENT = s.LENIENT := rfl
@[simp] theorem withLastRead_SRC_OFFSET (w : Word) : (s.withLastRead w).SRC_OFFSET = s.SRC_OFFSET := rfl
@[simp] theorem withLastRead_SRC_LENGTH (w : Word) : (s.withLastRead w).SRC_LENGTH = s.SRC_LENGTH := rfl
@[simp] theorem withLastRead_UNPACKED_LENGTH (w : Word) : (s.withLastRead w).UNPACKED_LENGTH = s.UNPACKED_LENGTH := rfl
@[simp] theorem withLastRead_OFF (w : Word) : (s.withLastRead w).OFF = s.OFF := rfl
@[simp] theorem withLastRead_END (w : Word) : (s.withLastRead w).END = s.END := rfl
@[simp] theorem withLastRead_POS (w : Word) : (s.withLastRead w).POS = s.POS := rfl
@[simp] theorem withLastRead_S (w : Word) : (s.withLastRead w).S = s.S := rfl
@[simp] theorem withLastRead_V (w : Word) : (s.withLastRead w).V = s.V := rfl
@[simp] theorem withLastRead_SOFT (w : Word) : (s.withLastRead w).SOFT = s.SOFT := rfl
@[simp] theorem withLastRead_COND (w : Word) : (s.withLastRead w).COND = s.COND := rfl
@[simp] theorem withLastRead_INFO (w : Word) : (s.withLastRead w).INFO = s.INFO := rfl
@[simp] theorem withLastRead_LEN (w : Word) : (s.withLastRead w).LEN = s.LEN := rfl
@[simp] theorem withLastRead_T (w : Word) : (s.withLastRead w).T = s.T := rfl
@[simp] theorem withLastRead_DIR (w : Word) : (s.withLastRead w).DIR = s.DIR := rfl
@[simp] theorem withLastRead_WO (w : Word) : (s.withLastRead w).WO = s.WO := rfl
@[simp] theorem withLastRead_UL (w : Word) : (s.withLastRead w).UL = s.UL := rfl
@[simp] theorem withLastRead_ESTATE (w : Word) : (s.withLastRead w).ESTATE = s.ESTATE := rfl
@[simp] theorem withLastRead_ITER (w : Word) : (s.withLastRead w).ITER = s.ITER := rfl
@[simp] theorem withLastRead_SRCMEM (w : Word) : (s.withLastRead w).SRCMEM = s.SRCMEM := rfl
@[simp] theorem withLastRead_OUTMEM (w : Word) : (s.withLastRead w).OUTMEM = s.OUTMEM := rfl
@[simp] theorem withLastRead_params (w : Word) : (s.withLastRead w).params = s.params := rfl
@[simp] theorem withLastRead_agenda (w : Word) : (s.withLastRead w).agenda = s.agenda := rfl
@[simp] theorem withLastRead_lastRead (w : Word) : (s.withLastRead w).lastRead = w := rfl
@[simp] theorem withLastRead_draws (w : Word) : (s.withLastRead w).draws = s.draws := rfl

/-! ### `turnTaken` -/
@[simp] theorem turnTaken_LENIENT : s.turnTaken.LENIENT = s.LENIENT := rfl
@[simp] theorem turnTaken_SRC_OFFSET : s.turnTaken.SRC_OFFSET = s.SRC_OFFSET := rfl
@[simp] theorem turnTaken_SRC_LENGTH : s.turnTaken.SRC_LENGTH = s.SRC_LENGTH := rfl
@[simp] theorem turnTaken_UNPACKED_LENGTH : s.turnTaken.UNPACKED_LENGTH = s.UNPACKED_LENGTH := rfl
@[simp] theorem turnTaken_OFF : s.turnTaken.OFF = s.OFF := rfl
@[simp] theorem turnTaken_END : s.turnTaken.END = s.END := rfl
@[simp] theorem turnTaken_POS : s.turnTaken.POS = s.POS := rfl
@[simp] theorem turnTaken_S : s.turnTaken.S = s.S := rfl
@[simp] theorem turnTaken_V : s.turnTaken.V = s.V := rfl
@[simp] theorem turnTaken_SOFT : s.turnTaken.SOFT = s.SOFT := rfl
@[simp] theorem turnTaken_COND : s.turnTaken.COND = s.COND := rfl
@[simp] theorem turnTaken_INFO : s.turnTaken.INFO = s.INFO := rfl
@[simp] theorem turnTaken_LEN : s.turnTaken.LEN = s.LEN := rfl
@[simp] theorem turnTaken_T : s.turnTaken.T = s.T := rfl
@[simp] theorem turnTaken_DIR : s.turnTaken.DIR = s.DIR := rfl
@[simp] theorem turnTaken_WO : s.turnTaken.WO = s.WO := rfl
@[simp] theorem turnTaken_UL : s.turnTaken.UL = s.UL := rfl
@[simp] theorem turnTaken_ESTATE : s.turnTaken.ESTATE = s.ESTATE := rfl
@[simp] theorem turnTaken_ITER : s.turnTaken.ITER = s.ITER := rfl
@[simp] theorem turnTaken_SRCMEM : s.turnTaken.SRCMEM = s.SRCMEM := rfl
@[simp] theorem turnTaken_OUTMEM : s.turnTaken.OUTMEM = s.OUTMEM := rfl
@[simp] theorem turnTaken_params : s.turnTaken.params = s.params := rfl
@[simp] theorem turnTaken_agenda : s.turnTaken.agenda = s.agenda.tail := rfl
@[simp] theorem turnTaken_lastRead : s.turnTaken.lastRead = s.lastRead := rfl
@[simp] theorem turnTaken_draws : s.turnTaken.draws = s.draws := rfl

/-! ### `latch` -/
@[simp] theorem latch_LENIENT : s.latch.LENIENT = s.LENIENT := rfl
@[simp] theorem latch_SRC_OFFSET : s.latch.SRC_OFFSET = s.SRC_OFFSET := rfl
@[simp] theorem latch_SRC_LENGTH : s.latch.SRC_LENGTH = s.SRC_LENGTH := rfl
@[simp] theorem latch_UNPACKED_LENGTH : s.latch.UNPACKED_LENGTH = s.UNPACKED_LENGTH := rfl
@[simp] theorem latch_OFF : s.latch.OFF = s.SRC_OFFSET.toNat := rfl
@[simp] theorem latch_END : s.latch.END = s.SRC_LENGTH.toNat := rfl
@[simp] theorem latch_POS : s.latch.POS = 0 := rfl
@[simp] theorem latch_S : s.latch.S = 0 := rfl
@[simp] theorem latch_V : s.latch.V = 0 := rfl
@[simp] theorem latch_SOFT : s.latch.SOFT = false := rfl
@[simp] theorem latch_COND : s.latch.COND = .none := rfl
@[simp] theorem latch_INFO : s.latch.INFO = 0 := rfl
@[simp] theorem latch_LEN : s.latch.LEN = s.LENIENT := rfl
@[simp] theorem latch_T : s.latch.T = s.params.defaultTable := rfl
@[simp] theorem latch_DIR : s.latch.DIR = s.params.initDirectory := rfl
@[simp] theorem latch_WO : s.latch.WO = 0 := rfl
@[simp] theorem latch_UL : s.latch.UL = s.UNPACKED_LENGTH.toNat := rfl
@[simp] theorem latch_ESTATE : s.latch.ESTATE = .decoding := rfl
@[simp] theorem latch_ITER : s.latch.ITER = 0 := rfl
@[simp] theorem latch_SRCMEM : s.latch.SRCMEM = s.SRCMEM := rfl
@[simp] theorem latch_OUTMEM : s.latch.OUTMEM = s.OUTMEM := rfl
@[simp] theorem latch_params : s.latch.params = s.params := rfl
@[simp] theorem latch_agenda : s.latch.agenda = s.agenda := rfl
@[simp] theorem latch_lastRead : s.latch.lastRead = s.lastRead := rfl
@[simp] theorem latch_draws : s.latch.draws = s.draws := rfl

end Sys2Proof.Machine.State
end

