-- ==== Sys2Proof/Laws/Engine.lean ====
section
/-! SUPPORT. How computations of the engine compose: the result of a bind, and `wp`, which says once what holds of the value
and state a computation yields (`Q`) and of the state a call ends in (`E`). A computation that stops the model meets any `wp`. -/

namespace Sys2Proof.Machine

variable {α β : Type}

/-! ### Results -/

@[simp] theorem pure_run (a : α) (s : State) : (pure a : Engine α) s = .ok a s := rfl

@[simp] theorem get_run (s : State) : (get : Engine State) s = .ok s s := rfl

@[simp] theorem set_run (t s : State) : (set t : Engine Unit) s = .ok () t := rfl

@[simp] theorem modify_run (f : State → State) (s : State) : (modify f : Engine Unit) s = .ok () (f s) := rfl

theorem bind_run (m : Engine α) (f : α → Engine β) (s : State) :
    (m >>= f) s = match m s with
      | .ok a s'    => f a s'
      | .error e s' => .error e s' := by
  show EStateM.bind m f s = _
  unfold EStateM.bind
  cases m s <;> rfl

theorem bind_of_ok {m : Engine α} {f : α → Engine β} {s s' : State} {a : α} (h : m s = .ok a s') :
    (m >>= f) s = f a s' := by
  rw [bind_run, h]

theorem bind_of_error {m : Engine α} {f : α → Engine β} {s s' : State} {e : Stop} (h : m s = .error e s') :
    (m >>= f) s = .error e s' := by
  rw [bind_run, h]

@[simp] theorem bind_get (f : State → Engine β) (s : State) : ((get : Engine State) >>= f) s = f s s := rfl

@[simp] theorem bind_modify (g : State → State) (f : Unit → Engine β) (s : State) :
    ((modify g : Engine Unit) >>= f) s = f () (g s) := rfl

@[simp] theorem bind_set (t : State) (f : Unit → Engine β) (s : State) :
    ((set t : Engine Unit) >>= f) s = f () t := rfl

@[simp] theorem bind_pure_run (a : α) (f : α → Engine β) (s : State) : ((pure a : Engine α) >>= f) s = f a s := rfl

@[simp] theorem raise_run (c : Condition) (w : Word) (s : State) :
    (raise c w : Engine α) s = .error .callEnded (s.endCall c w .error) := rfl

@[simp] theorem finish_run (c : Condition) (w : Word) (s : State) :
    (finish c w : Engine α) s = .error .callEnded (s.endCall c w .done) := rfl

@[simp] theorem raisePrematureEOF_run (s : State) :
    (raisePrematureEOF : Engine α) s =
      .error .callEnded (s.endCall .prematureEOF (BitVec.ofNat 32 (s.UL - s.WO)) .error) := rfl

@[simp] theorem stopFault_run (r : Fault) (s : State) : (stopFault r : Engine α) s = .error (.fault r) s := rfl

@[simp] theorem refuse_run (r : Refusal) (s : State) : (refuse r : Engine α) s = .error (.refused r) s := rfl

theorem outcomeOf_ok {m : Engine Unit} {s s' : State} (h : m s = .ok () s') : outcomeOf m s = .next s' := by
  rw [outcomeOf, h]

theorem outcomeOf_ended {m : Engine Unit} {s s' : State} (h : m s = .error .callEnded s') :
    outcomeOf m s = .next s' := by
  rw [outcomeOf, h]

/-- A step that answers a next state ran its computation to the end, or ended the call. -/
theorem outcomeOf_eq_next {m : Engine Unit} {s t : State} (h : outcomeOf m s = .next t) :
    m s = .ok () t ∨ m s = .error .callEnded t := by
  unfold outcomeOf at h
  split at h <;> simp_all

/-! ### `wp` -/

/-- `Q` holds of the value and the state that `m` yields from `s`, and `E` of the state it ends the call in. -/
def wp (m : Engine α) (Q : α → State → Prop) (E : State → Prop) (s : State) : Prop :=
  match m s with
  | .ok a s'             => Q a s'
  | .error .callEnded s' => E s'
  | .error _ _           => True

variable {Q : α → State → Prop} {E : State → Prop} {s : State}

theorem wp_ok {m : Engine α} {a : α} {s' : State} (h : m s = .ok a s') : wp m Q E s ↔ Q a s' := by
  simp [wp, h]

@[simp] theorem wp_pure (a : α) : wp (pure a) Q E s ↔ Q a s := Iff.rfl

@[simp] theorem wp_get {Q : State → State → Prop} : wp get Q E s ↔ Q s s := Iff.rfl

@[simp] theorem wp_set {Q : Unit → State → Prop} (t : State) : wp (set t) Q E s ↔ Q () t := Iff.rfl

@[simp] theorem wp_modify {Q : Unit → State → Prop} (f : State → State) : wp (modify f) Q E s ↔ Q () (f s) := Iff.rfl

@[simp] theorem wp_raise (c : Condition) (w : Word) : wp (raise c w) Q E s ↔ E (s.endCall c w .error) := Iff.rfl

@[simp] theorem wp_finish (c : Condition) (w : Word) : wp (finish c w) Q E s ↔ E (s.endCall c w .done) := Iff.rfl

@[simp] theorem wp_raisePrematureEOF :
    wp raisePrematureEOF Q E s ↔ E (s.endCall .prematureEOF (BitVec.ofNat 32 (s.UL - s.WO)) .error) := Iff.rfl

@[simp] theorem wp_stopFault (r : Fault) : wp (stopFault r) Q E s ↔ True := Iff.rfl

@[simp] theorem wp_refuse (r : Refusal) : wp (refuse r) Q E s ↔ True := Iff.rfl

@[simp] theorem wp_bind {m : Engine α} {f : α → Engine β} {Q : β → State → Prop} :
    wp (m >>= f) Q E s ↔ wp m (fun a s' => wp (f a) Q E s') E s := by
  unfold wp
  rw [bind_run]
  cases m s with
  | ok a s' => rfl
  | error e s' => cases e <;> rfl

theorem wp_mono {m : Engine α} {Q' : α → State → Prop} {E' : State → Prop} (h : wp m Q E s)
    (hQ : ∀ a s', Q a s' → Q' a s') (hE : ∀ s', E s' → E' s') : wp m Q' E' s := by
  unfold wp at *
  split at h <;> simp_all

/-- What `wp` says of a step's next state. -/
theorem wp_outcomeOf {m : Engine Unit} {P : State → Prop} {t : State} (h : wp m (fun _ => P) P s)
    (ht : outcomeOf m s = .next t) : P t := by
  rcases outcomeOf_eq_next ht with h' | h' <;> simpa [wp, h'] using h

/-! ### The memory accesses -/

@[simp] theorem wp_srcRead {Q : Byte → State → Prop} (a : Nat) :
    wp (srcRead a) Q E s ↔ (a < s.params.srcSize → Q (Memory.read s.SRCMEM a) s) := by
  unfold wp srcRead
  by_cases h : a < s.params.srcSize <;> simp [h]

@[simp] theorem wp_outRead {Q : Byte → State → Prop} (p : Nat) :
    wp (outRead p) Q E s ↔ (p < s.params.outCapacity → Q (Memory.read s.OUTMEM p) s) := by
  unfold wp outRead
  by_cases h : p < s.params.outCapacity <;> simp [h]

/-- Everything `setByte` can do (R190). -/
@[simp] theorem wp_setByte {Q : Unit → State → Prop} (v : Byte) (remaining : Nat) :
    wp (setByte v remaining) Q E s ↔
      (s.WO = s.UL → E (s.endCall .outputBufferExhausted (BitVec.ofNat 32 remaining) .error)) ∧
      (s.WO ≠ s.UL → s.WO < s.params.outCapacity → Q () (s.emit v)) := by
  unfold wp setByte
  by_cases h : s.WO = s.UL
  · simp [h]
  · by_cases h' : s.WO < s.params.outCapacity <;> simp [h, h']

/-- Everything `getByte` can do (R191). -/
@[simp] theorem wp_getByte {Q : Byte → State → Prop} (p : Int) :
    wp (getByte p) Q E s ↔
      ((p < 0 ∨ p ≥ s.WO) → E (s.endCall .backRefOutOfRange (BitVec.ofInt 32 p) .error)) ∧
      (¬(p < 0 ∨ p ≥ s.WO) → p.toNat < s.params.outCapacity → Q (Memory.read s.OUTMEM p.toNat) s) := by
  by_cases h : p < 0 ∨ p ≥ s.WO
  · simp [wp, getByte, h]
  · have : wp (getByte p) Q E s ↔ wp (outRead p.toNat) Q E s := by simp only [wp, getByte, if_neg h]
    rw [this, wp_outRead]
    simp [h]

/-- Everything `resolve` can do (R141, R83). -/
@[simp] theorem wp_resolve {Q : Symbol → State → Prop} (idx : Nat) :
    wp (resolve idx) Q E s ↔
      (∀ h : idx < nsym, Q (s.DIR.ASSIGN[idx]) s) ∧
      (¬idx < nsym → E (s.endCall .outOfSyncSymbol (BitVec.ofNat 32 idx) .error)) := by
  unfold wp resolve
  by_cases h : idx < nsym <;> simp [h]

end Sys2Proof.Machine
end

