-- ==== Sys2Proof/Laws/Reader.lean ====
section
/-! SUPPORT. The bit reader: what a refill, a read and an underflow do, told through the bits ahead of the cursor
(`State.unread`) and through the cursor of R110. -/

namespace Sys2Proof.Machine

variable {s s' : State} {n : Nat}

/-- The two states differ in the cursor registers `S`, `POS`, `V` at most. -/
def CursorOnly (s s' : State) : Prop := s' = { s with S := s'.S, POS := s'.POS, V := s'.V }

theorem CursorOnly.refl (s : State) : CursorOnly s s := rfl

/-- The same as an equation to substitute. -/
theorem CursorOnly.eq {s s' : State} (h : CursorOnly s s') : ∃ x p v, s' = { s with S := x, POS := p, V := v } :=
  ⟨_, _, _, h⟩

theorem CursorOnly.trans {s₁ s₂ s₃ : State} (h₁ : CursorOnly s₁ s₂) (h₂ : CursorOnly s₂ s₃) : CursorOnly s₁ s₃ := by
  unfold CursorOnly at *
  rw [h₂, h₁]

/-! ### Staging one byte -/

theorem unstaged_cons (h : s.POS < s.END) (b : Byte) (hb : b = Memory.read s.SRCMEM (s.OFF + s.POS)) :
    s.unstaged = b :: (s.stage b).unstaged := by
  subst hb
  have hlen : s.END - s.POS = (s.END - (s.POS + 1)) + 1 := by omega
  simp only [State.unstaged, State.stage_END, State.stage_POS, State.stage_SRCMEM, State.stage_OFF]
  rw [hlen, List.range_succ_eq_map, List.map_cons, List.map_map]
  congr 1
  refine List.map_congr_left fun i _ => ?_
  show Memory.read s.SRCMEM _ = Memory.read s.SRCMEM _
  congr 1
  simp only [Nat.succ_eq_add_one]
  omega

theorem getLsbD_stage (b : Byte) (j : Nat) (hj : j < 32) :
    (s.stage b).S.getLsbD j = if j < 8 then b.getLsbD j else s.S.getLsbD (j - 8) := by
  simp only [State.stage_S, BitVec.getLsbD_or, BitVec.getLsbD_shiftLeft, BitVec.getLsbD_setWidth]
  by_cases h : j < 8
  · simp [h, hj]
  · have : b.getLsbD j = false := BitVec.getLsbD_of_ge b j (by omega)
    simp [h, hj, this]

/-- Staging keeps the bits that were valid, and puts the byte after them. -/
theorem bitsOf_stage (b : Byte) (h : s.V + 8 ≤ 32) :
    bitsOf (s.stage b).V (s.stage b).S.toNat = bitsOf s.V s.S.toNat ++ bitsOf 8 b.toNat := by
  rw [State.stage_V, bitsOf_append]
  congr 1
  · refine bitsOf_congr fun i hi => ?_
    rw [Nat.testBit_div_two_pow, BitVec.testBit_toNat, BitVec.testBit_toNat, getLsbD_stage b _ (by omega)]
    simp
  · refine bitsOf_congr fun i hi => ?_
    rw [BitVec.testBit_toNat, BitVec.testBit_toNat, getLsbD_stage b _ (by omega)]
    simp [hi]

/-- Staging the next source byte leaves the bits ahead of the cursor as they are. -/
theorem unread_stage (h : s.POS < s.END) (hV : s.V + 8 ≤ 32) :
    (s.stage (Memory.read s.SRCMEM (s.OFF + s.POS))).unread = s.unread := by
  conv_rhs => rw [State.unread, unstaged_cons h _ rfl]
  rw [State.unread, bitsOf_stage _ hV]
  simp [bitsOfBytes]

theorem coherent_stage (hV : s.V + 8 ≤ 32) (hc : s.StagedFromSource) :
    (s.stage (Memory.read s.SRCMEM (s.OFF + s.POS))).StagedFromSource := by
  refine ⟨?_, fun j hj => ?_⟩
  · have := hc.1
    simp only [State.stage_V, State.stage_POS]
    omega
  · simp only [State.stage_V] at hj
    rw [getLsbD_stage _ _ (by omega)]
    simp only [State.sourceBit, State.stage_POS, State.stage_SRCMEM, State.stage_OFF]
    split
    · next h =>
      have h1 : (8 * (s.POS + 1) - 1 - j) / 8 = s.POS := by omega
      have h2 : 7 - (8 * (s.POS + 1) - 1 - j) % 8 = j := by omega
      rw [h1, h2]
    · next h =>
      rw [hc.2 (j - 8) (by omega)]
      have h1 : 8 * s.POS - 1 - (j - 8) = 8 * (s.POS + 1) - 1 - j := by omega
      rw [State.sourceBit, h1]

theorem cursor_stage (hc : s.V ≤ 8 * s.POS) (b : Byte) : (s.stage b).cursor = s.cursor := by
  simp only [State.cursor, State.stage_POS, State.stage_V]
  omega

/-! ### The refill loop -/

/-- Everything a refill does in a call that START admitted: it stages bytes, and the bits ahead of the cursor stay. -/
theorem refill_spec {fuel : Nat} (hn : n ≤ 24) (hV : s.V < 32) (hfuel : n ≤ s.V + fuel)
    (hr : s.OFF + s.END ≤ s.params.srcSize) :
    ∃ s', refill n fuel s = .ok () s' ∧ CursorOnly s s' ∧ s'.unread = s.unread ∧ s.V ≤ s'.V ∧ s.POS ≤ s'.POS ∧
      (s'.V < n → s'.END ≤ s'.POS) ∧ (s'.V = s.V ∨ s'.V < n + 8) ∧ s'.V < 32 ∧
      (s.POS ≤ s.END → s'.POS ≤ s.END) ∧
      (s.StagedFromSource → s'.StagedFromSource ∧ s'.cursor = s.cursor) := by
  induction fuel generalizing s with
  | zero =>
    exact ⟨s, rfl, .refl s, rfl, Nat.le_refl _, Nat.le_refl _, fun h => by omega, .inl rfl, hV, id, fun h => ⟨h, rfl⟩⟩
  | succ fuel ih =>
    by_cases h : s.V < n ∧ s.POS < s.END
    · let s₁ := s.stage (Memory.read s.SRCMEM (s.OFF + s.POS))
      have hin : s.OFF + s.POS < s.params.srcSize := by omega
      have hrun : refill n (fuel + 1) s = refill n fuel s₁ := by
        simp only [refill, bind_get, if_pos h]
        rw [bind_of_ok (a := Memory.read s.SRCMEM (s.OFF + s.POS)) (s' := s) (by simp [srcRead, hin])]
        simp [s₁]
      obtain ⟨s', h1, h2, h3, h4, h5, h6, h7, h8, h9, h10⟩ :=
        ih (s := s₁) (by simp [s₁]; omega) (by simp [s₁]; omega) (by simpa [s₁] using hr)
      simp only [s₁, State.stage_V, State.stage_POS, State.stage_END] at h4 h5 h7 h9
      refine ⟨s', by rw [hrun, h1], CursorOnly.trans (s₂ := s₁) rfl h2, ?_, by omega, by omega, h6, ?_, h8, fun _ => h9 (by omega), fun hc => ?_⟩
      · rw [h3, unread_stage h.2 (by omega)]
      · right; omega
      · have hc₁ := coherent_stage (s := s) (by omega) hc
        obtain ⟨a, b⟩ := h10 hc₁
        exact ⟨a, by rw [b]; exact cursor_stage hc.1 _⟩
    · have hrun : refill n (fuel + 1) s = .ok () s := by
        simp only [refill, bind_get, if_neg h, pure_run]
      exact ⟨s, hrun, .refl s, rfl, Nat.le_refl _, Nat.le_refl _, fun h' => by omega, .inl rfl, hV, id, fun h => ⟨h, rfl⟩⟩

theorem length_unread : s.unread.length = s.V + 8 * (s.END - s.POS) := by
  have hb : ∀ l : List Byte, (bitsOfBytes l).length = 8 * l.length := by
    intro l
    induction l with
    | nil => rfl
    | cons b l ih =>
      have : bitsOfBytes (b :: l) = bitsOf 8 b.toNat ++ bitsOfBytes l := rfl
      rw [this, List.length_append, length_bitsOf, ih, List.length_cons]
      omega
  simp [State.unread, hb, State.unstaged]

/-- With at most 7 bits staged, the bytes not yet staged are the whole bytes still ahead (R107). -/
theorem sourceLeft_of_tail (h : s.V ≤ 7) : s.sourceLeft = s.unread.length / 8 := by
  rw [length_unread, State.sourceLeft]
  omega

/-- The value that `read` extracts from the staging register (R100). -/
theorem staged_value (hV : s.V < 32) (hn : n ≤ s.V) :
    (s.S >>> (s.V - n) &&& BitVec.ofNat 32 (2 ^ n - 1)).toNat = valueOf (s.unread.take n) := by
  have hlen : n ≤ (bitsOf s.V s.S.toNat).length := by simpa using hn
  have hpow : 2 ^ n < 2 ^ 32 := Nat.pow_lt_pow_right (by omega) (by omega)
  rw [State.unread, List.take_append_of_le_length hlen, take_bitsOf hn, valueOf_bitsOf, BitVec.toNat_and,
    BitVec.toNat_ushiftRight, BitVec.toNat_ofNat, Nat.mod_eq_of_lt (by omega), Nat.and_two_pow_sub_one_eq_mod,
    Nat.shiftRight_eq_div_pow]

theorem unread_consume (hn : n ≤ s.V) : (s.consume n).unread = s.unread.drop n := by
  have hlen : n ≤ (bitsOf s.V s.S.toNat).length := by simpa using hn
  rw [State.unread, State.unread, List.drop_append_of_le_length hlen, drop_bitsOf hn]
  rfl

/-! ### `read` -/

/-- A read of bits that are there (R100, R109): the value, the bits left, and that only the cursor moves. -/
theorem readChecked_some (hn : n ≤ 24) (hV : s.V < 32) (hr : s.OFF + s.END ≤ s.params.srcSize)
    (hlen : n ≤ s.unread.length) :
    ∃ s', readChecked n s = .ok (some (valueOf (s.unread.take n))) s' ∧ CursorOnly s s' ∧
      s'.unread = s.unread.drop n ∧ s'.V < 32 ∧ s.POS ≤ s'.POS ∧ (s.POS ≤ s.END → s'.POS ≤ s.END) ∧
      (s.V ≤ 7 → s'.V ≤ 7) ∧ (s.StagedFromSource → s'.StagedFromSource ∧ s'.cursor = s.cursor + n) := by
  obtain ⟨s₁, h1, h2, h3, h4, h5, h6, h7, h8, h9, h10⟩ := refill_spec (fuel := n) hn hV (by omega) hr
  have hge : n ≤ s₁.V := by
    by_contra hlt
    rw [← h3, length_unread] at hlen
    have := h6 (by omega)
    omega
  refine ⟨s₁.consume n, ?_, CursorOnly.trans h2 rfl, ?_, ?_, by simpa using h5, by simpa using h9, ?_, fun hc => ?_⟩
  · rw [readChecked, bind_of_ok h1]
    simp only [bind_get, if_neg (Nat.not_lt.mpr hge), bind_set, pure_run]
    rw [staged_value h8 hge, h3]
  · rw [unread_consume hge, h3]
  · simp only [State.consume_V]; omega
  · simp only [State.consume_V]; omega
  · obtain ⟨hc₁, hcur⟩ := h10 hc
    refine ⟨⟨?_, fun j hj => ?_⟩, ?_⟩
    · have := hc₁.1
      simp only [State.consume_V, State.consume_POS]
      omega
    · simp only [State.consume_V] at hj
      exact hc₁.2 j (by omega)
    · have := hc₁.1
      rw [← hcur]
      simp only [State.cursor, State.consume_V, State.consume_POS]
      omega

/-- The cursor after an underflow: every byte is staged, the flag is set, and the staged bits are dropped or kept (R103,
R104). -/
structure Underflowed (s s' : State) : Prop where
  same   : s' = { s with S := s'.S, POS := s'.POS, V := s'.V, SOFT := true }
  pos    : s.POS ≤ s.END → s'.POS = s.END
  staged : s'.V = if s.params.underflowDrain then 0 else s.unread.length
  small  : s'.V < 32
  unread : s'.unread = if s.params.underflowDrain then [] else s.unread

theorem underflow_run : underflow s =
    if s.LEN then .ok () s.softFault
    else .error .callEnded (s.softFault.endCall .prematureEOF (BitVec.ofNat 32 (s.UL - s.WO)) .error) := by
  cases h : s.LEN <;> simp [underflow, h]

/-- A read of more bits than are left (R103 to R105): in lenient mode it yields nothing and the machine goes on; in strict
mode the call ends in PrematureEOF. -/
theorem readChecked_none (hn : n ≤ 24) (hV : s.V < 32) (hr : s.OFF + s.END ≤ s.params.srcSize)
    (hlen : s.unread.length < n) :
    ∃ s', Underflowed s s' ∧ (s.StagedFromSource → s'.StagedFromSource) ∧
      readChecked n s = if s.LEN then .ok none s'
        else .error .callEnded (s'.endCall .prematureEOF (BitVec.ofNat 32 (s.UL - s.WO)) .error) := by
  obtain ⟨s₁, h1, h2, h3, h4, h5, h6, h7, h8, h9, h10⟩ := refill_spec (fuel := n) hn hV (by omega) hr
  have hu : s₁.unread.length = s₁.V + 8 * (s₁.END - s₁.POS) := length_unread
  have hEND : s₁.END = s.END := by rw [h2]
  have hlt : s₁.V < n := by rw [h3] at hu; omega
  have hpos := h6 hlt
  have hVlen : s₁.V = s.unread.length := by rw [← h3, hu]; omega
  have hdrain : s₁.params.underflowDrain = s.params.underflowDrain := by rw [h2]
  have hLEN : s₁.LEN = s.LEN := by rw [h2]
  have hUL : s₁.UL = s.UL := by rw [h2]
  have hWO : s₁.WO = s.WO := by rw [h2]
  refine ⟨s₁.softFault, ⟨?_, fun h => ?_, ?_, ?_, ?_⟩, fun hc => ?_, ?_⟩
  · have h2' : s₁ = { s with S := s₁.S, POS := s₁.POS, V := s₁.V } := h2
    rw [State.softFault, h2']
  · simp only [State.softFault_POS]
    have := h9 h
    omega
  · simp only [State.softFault_V, hdrain, hVlen]
  · simp only [State.softFault_V]
    split <;> omega
  · by_cases hd : s.params.underflowDrain
    · have hnil : s₁.unstaged = [] := by simp [State.unstaged]; omega
      have hnil' : s₁.softFault.unstaged = s₁.unstaged := rfl
      rw [if_pos hd, State.unread, State.softFault_V, hdrain, if_pos hd, hnil', hnil]
      rfl
    · rw [if_neg hd, ← h3, State.unread, State.unread, State.softFault_V, hdrain, if_neg hd]
      rfl
  · obtain ⟨hc₁, _⟩ := h10 hc
    refine ⟨?_, fun j hj => ?_⟩
    · have := hc₁.1
      simp only [State.softFault_V, State.softFault_POS]
      split <;> omega
    · simp only [State.softFault_V] at hj
      refine hc₁.2 j ?_
      split at hj <;> omega
  · rw [readChecked, bind_of_ok h1]
    simp only [bind_get, if_pos hlt]
    rw [bind_run, underflow_run, hLEN, hUL, hWO]
    cases s.LEN <;> simp

theorem read_run : read n s = match readChecked n s with
    | .ok r s'    => .ok (r.getD 0) s'
    | .error e s' => .error e s' := by
  rw [read, bind_run]
  cases readChecked n s <;> rfl

/-- A read of bits that are there. -/
theorem read_ok (hn : n ≤ 24) (hV : s.V < 32) (hr : s.OFF + s.END ≤ s.params.srcSize)
    (hlen : n ≤ s.unread.length) :
    ∃ s', read n s = .ok (valueOf (s.unread.take n)) s' ∧ CursorOnly s s' ∧
      s'.unread = s.unread.drop n ∧ s'.V < 32 ∧ s.POS ≤ s'.POS ∧ (s.POS ≤ s.END → s'.POS ≤ s.END) ∧
      (s.V ≤ 7 → s'.V ≤ 7) ∧ (s.StagedFromSource → s'.StagedFromSource ∧ s'.cursor = s.cursor + n) := by
  obtain ⟨s', h1, h⟩ := readChecked_some hn hV hr hlen
  exact ⟨s', by rw [read_run, h1]; rfl, h⟩

/-- The same, for bits that are known to be a number written out. -/
theorem read_bits {v : Nat} {rest : List Bool} (hn : n ≤ 24) (hV : s.V < 32) (hr : s.OFF + s.END ≤ s.params.srcSize)
    (hv : v < 2 ^ n) (hu : s.unread = bitsOf n v ++ rest) :
    ∃ s', read n s = .ok v s' ∧ CursorOnly s s' ∧ s'.unread = rest ∧ s'.V < 32 ∧ (s.V ≤ 7 → s'.V ≤ 7) := by
  obtain ⟨s', h1, h2, h3, h4, _, _, h7, _⟩ := read_ok (s := s) hn hV hr (by rw [hu]; simp)
  refine ⟨s', ?_, h2, ?_, h4, h7⟩
  · rw [h1, hu, List.take_append_of_le_length (by simp), List.take_of_length_le (by simp), valueOf_bitsOf_of_lt hv]
  · rw [h3, hu, List.drop_append_of_le_length (by simp), List.drop_of_length_le (by simp), List.nil_append]

/-- A read of more bits than are left. -/
theorem read_underflow (hn : n ≤ 24) (hV : s.V < 32) (hr : s.OFF + s.END ≤ s.params.srcSize)
    (hlen : s.unread.length < n) :
    ∃ s', Underflowed s s' ∧ (s.StagedFromSource → s'.StagedFromSource) ∧
      read n s = if s.LEN then .ok 0 s'
        else .error .callEnded (s'.endCall .prematureEOF (BitVec.ofNat 32 (s.UL - s.WO)) .error) := by
  obtain ⟨s', h1, h2, h3⟩ := readChecked_none hn hV hr hlen
  refine ⟨s', h1, h2, ?_⟩
  rw [read_run, h3]
  cases s.LEN <;> simp

/-- Everything a read does in lenient mode (R100 to R104): it yields what `lenientTake` says, and the soft-fault flag says
whether the bits were there. -/
theorem read_lenient (hn : n ≤ 24) (hr : s.Readable) (hl : s.LEN = true) :
    ∃ s', read n s = .ok (lenientTake s.params.underflowDrain n s.unread).1 s' ∧
      s'.unread = (lenientTake s.params.underflowDrain n s.unread).2 ∧ s'.Readable ∧
      s' = { s with S := s'.S, POS := s'.POS, V := s'.V, SOFT := s.SOFT || (takeBits n s.unread).isNone } := by
  by_cases h : n ≤ s.unread.length
  · obtain ⟨s', h1, h2, h3, h4, _⟩ := read_ok hn hr.1 hr.2 h
    have ht : takeBits n s.unread = some (valueOf (s.unread.take n), s.unread.drop n) := if_pos h
    refine ⟨s', ?_, ?_, ⟨h4, by rw [h2]; exact hr.2⟩, ?_⟩
    · rw [h1, lenientTake, ht, Option.getD_some]
    · rw [h3, lenientTake, ht, Option.getD_some]
    · rw [ht, Option.isNone_some, Bool.or_false]
      exact h2
  · obtain ⟨s', h1, _, h3⟩ := read_underflow hn hr.1 hr.2 (Nat.lt_of_not_le h)
    have ht : takeBits n s.unread = none := if_neg h
    refine ⟨s', ?_, ?_, ⟨h1.small, by rw [h1.same]; exact hr.2⟩, ?_⟩
    · rw [h3, hl, lenientTake, ht, Option.getD_none, if_pos rfl]
    · rw [h1.unread, lenientTake, ht, Option.getD_none]
    · rw [ht, Option.isNone_none, Bool.or_true]
      exact h1.same

/-! ### Either way -/

/-- What a read of `n` bits may have done, whether the bits were there or not: the cursor and the soft-fault flag moved. -/
structure Moved (n : Nat) (s s' : State) : Prop where
  same     : s' = { s with S := s'.S, POS := s'.POS, V := s'.V, SOFT := s'.SOFT }
  soft     : s.SOFT → s'.SOFT
  small    : s'.V < 32
  pos      : s.POS ≤ s.END → s'.POS ≤ s.END
  tail     : s.params.underflowDrain → s.V ≤ 7 → s'.V ≤ 7
  coherent : s.StagedFromSource → s'.StagedFromSource
  progress : s.StagedFromSource → s.POS ≤ s.END →
    s'.cursor = s.cursor + n ∨ (s.params.underflowDrain → s'.cursor = 8 * s.END)
  forward  : s.StagedFromSource → s.POS ≤ s.END → s.cursor ≤ s'.cursor

theorem Moved.of_ok {n : Nat} {s s' : State} (h2 : CursorOnly s s') (h4 : s'.V < 32)
    (h6 : s.POS ≤ s.END → s'.POS ≤ s.END) (h7 : s.V ≤ 7 → s'.V ≤ 7)
    (h8 : s.StagedFromSource → s'.StagedFromSource ∧ s'.cursor = s.cursor + n) : Moved n s s' where
  same := by
    have hsoft : s'.SOFT = s.SOFT := by rw [h2]
    rw [hsoft]
    exact h2
  soft h := by rw [h2]; exact h
  small := h4
  pos := h6
  tail _ := h7
  coherent h := (h8 h).1
  progress h _ := .inl (h8 h).2
  forward h _ := by rw [(h8 h).2]; omega

theorem Moved.of_underflow {n : Nat} {s s' : State} (h : Underflowed s s') (hc : s.StagedFromSource → s'.StagedFromSource) :
    Moved n s s' where
  same := by
    have hsoft : s'.SOFT = true := by rw [h.same]
    rw [hsoft]
    exact h.same
  soft _ := by rw [h.same]
  small := h.small
  pos hp := by rw [h.pos hp]
  tail hd _ := by rw [h.staged, if_pos hd]; omega
  coherent := hc
  progress _ hp := .inr fun hd => by
    rw [State.cursor, h.staged, if_pos hd, h.pos hp, Nat.sub_zero]
  forward hco hp := by
    have h1 := hco.1
    have h2 := length_unread (s := s)
    simp only [State.cursor, h.staged, h.pos hp]
    split <;> omega

/-- The bounds on the cursor that every computation of the reader keeps. -/
structure Bounds (s s' : State) : Prop where
  params   : s'.params = s.params
  small    : s'.V < 32
  pos      : s.POS ≤ s.END → s'.POS ≤ s'.END
  tail     : s.params.underflowDrain → s.V ≤ 7 → s'.V ≤ 7
  coherent : s.StagedFromSource → s'.StagedFromSource
  forward  : s.StagedFromSource → s.POS ≤ s.END → s.cursor ≤ s'.cursor

theorem Bounds.refl (h : s.V < 32) : Bounds s s :=
  ⟨rfl, h, id, fun _ => id, id, fun _ _ => Nat.le_refl _⟩

theorem Bounds.trans {s₁ s₂ s₃ : State} (h₁ : Bounds s₁ s₂) (h₂ : Bounds s₂ s₃) : Bounds s₁ s₃ where
  params := h₂.params.trans h₁.params
  small := h₂.small
  pos h := h₂.pos (h₁.pos h)
  tail hd h := h₂.tail (h₁.params ▸ hd) (h₁.tail hd h)
  coherent h := h₂.coherent (h₁.coherent h)
  forward h hp := Nat.le_trans (h₁.forward h hp) (h₂.forward (h₁.coherent h) (h₁.pos hp))

theorem Moved.bounds {n : Nat} {s s' : State} (h : Moved n s s') : Bounds s s' where
  params := by rw [h.same]
  small := h.small
  pos hp := by
    have hE : s'.END = s.END := by rw [h.same]
    rw [hE]
    exact h.pos hp
  tail := h.tail
  coherent := h.coherent
  forward := h.forward

/-- Everything a read can do in a call that START admitted. -/
theorem wp_readChecked {Q : Option Nat → State → Prop} {E : State → Prop} (hn : n ≤ 24) (hV : s.V < 32)
    (hr : s.OFF + s.END ≤ s.params.srcSize)
    (hQ : ∀ v s', v < 2 ^ n → Moved n s s' → Q (some v) s')
    (hQ' : ∀ s', Moved n s s' → Q none s')
    (hE : ∀ s', Moved n s s' → E (s'.endCall .prematureEOF (BitVec.ofNat 32 (s'.UL - s'.WO)) .error)) :
    wp (readChecked n) Q E s := by
  by_cases hlen : n ≤ s.unread.length
  · obtain ⟨s', h1, h2, h3, h4, h5, h6, h7, h8⟩ := readChecked_some hn hV hr hlen
    rw [wp_ok h1]
    refine hQ _ _ ?_ (.of_ok h2 h4 h6 h7 h8)
    simpa [hlen] using valueOf_lt (s.unread.take n)
  · obtain ⟨s', h1, h2, h3⟩ := readChecked_none hn hV hr (Nat.lt_of_not_le hlen)
    have hm : Moved n s s' := .of_underflow h1 h2
    have hw : s.UL - s.WO = s'.UL - s'.WO := by rw [h1.same]
    unfold wp
    rw [h3, hw]
    cases s.LEN
    · exact hE _ hm
    · exact hQ' _ hm

theorem wp_read {Q : Nat → State → Prop} {E : State → Prop} (hn : n ≤ 24) (hV : s.V < 32)
    (hr : s.OFF + s.END ≤ s.params.srcSize)
    (hQ : ∀ v s', v < 2 ^ n → Moved n s s' → Q v s')
    (hE : ∀ s', Moved n s s' → E (s'.endCall .prematureEOF (BitVec.ofNat 32 (s'.UL - s'.WO)) .error)) :
    wp (read n) Q E s := by
  rw [read, wp_bind]
  exact wp_readChecked hn hV hr (fun v s' hv hm => hQ v s' hv hm)
    (fun s' hm => hQ 0 s' (Nat.two_pow_pos n) hm) hE

/-- R101: a read of no bits yields 0 and changes nothing. -/
theorem readChecked_zero : readChecked 0 s = .ok (some 0) s := by
  simp [readChecked, refill, State.consume]

end Sys2Proof.Machine
end

