-- ==== Sys2Proof/Laws/BackReference.lean ====
section
/-! SUPPORT. The distance sub-step and the copy unit: what each yields, and what each changes. -/

namespace Sys2Proof.Machine

variable {s s' : State}

/-! ### Distance -/

theorem lowWidth_le (p : Params) (ds : BitVec 3) : p.lowWidth ds ≤ 24 := by
  unfold Params.lowWidth
  omega

/-- R194 on fields that are there: the signed source position, and that only the cursor moves. -/
theorem distance_ok {f : DistanceFields} {rest : List Bool} (hV : s.V < 32)
    (hr : s.OFF + s.END ≤ s.params.srcSize) (hf : f.WF s.params)
    (hu : s.unread = encodeDistance s.params f ++ rest) :
    ∃ s', distance s = .ok ((s.WO : Int) - fieldsDistance s.params f) s' ∧ CursorOnly s s' ∧ s'.unread = rest ∧
      s'.V < 32 := by
  simp only [encodeDistance, List.append_assoc] at hu
  obtain ⟨s₁, h1, c1, u1, v1, _⟩ := read_bits (by omega) hV hr f.ds.isLt hu
  have e1 : s₁.params = s.params := by rw [c1]
  obtain ⟨s₂, h2, c2, u2, v2, _⟩ := read_bits (s := s₁) (by omega) v1 (by rw [c1]; exact hr) f.hi.isLt u1
  obtain ⟨s₃, h3, c3, u3, v3, _⟩ := read_bits (s := s₂) (n := s.params.lowWidth f.ds) (lowWidth_le _ _) v2
    (by rw [c2, c1]; exact hr) hf u2
  refine ⟨s₃, ?_, c1.trans (c2.trans c3), u3, v3⟩
  have e3 : s₃.WO = s.WO := by rw [c3, c2, c1]
  have hds : BitVec.ofNat 3 f.ds.toNat = f.ds := by simp
  rw [distance, bind_of_ok h1]
  simp only [bind_get, e1, hds]
  rw [bind_of_ok h2, bind_of_ok h3]
  simp [fieldsDistance, e3]

/-! ### The copy -/

/-- The two states differ in `OUTMEM` and `WO` at most. -/
def OutputOnly (s s' : State) : Prop := s' = { s with OUTMEM := s'.OUTMEM, WO := s'.WO }

/-- The same as an equation to substitute. -/
theorem OutputOnly.eq {s s' : State} (h : OutputOnly s s') : ∃ m w, s' = { s with OUTMEM := m, WO := w } :=
  ⟨_, _, h⟩

/-- One byte of a copy whose source is in range and whose output has room (R195). -/
theorem copy_step {n : Nat} {src : Int} (h0 : 0 ≤ src) (h1 : src < s.WO) (h2 : s.WO ≠ s.UL)
    (hcap : s.WO < s.params.outCapacity) :
    copy (n + 1) src s = copy n (src + 1) (s.emit (Memory.read s.OUTMEM src.toNat)) := by
  have hlt : src.toNat < s.params.outCapacity := by omega
  have hg : getByte src s = .ok (Memory.read s.OUTMEM src.toNat) s := by
    simp [getByte, outRead, hlt, not_or.mpr ⟨not_lt.mpr h0, not_le.mpr h1⟩]
  have hs : setByte (Memory.read s.OUTMEM src.toNat) (n + 1) s = .ok () (s.emit (Memory.read s.OUTMEM src.toNat)) := by
    simp [setByte, h2, hcap]
  rw [copy, bind_of_ok hg, bind_of_ok hs]

/-- Where the byte `j` places into a copy of distance `d` comes from (R196). -/
theorem overlap_source {m : List Host.Cell} (hm : Memory.wf m) {w d j : Nat} (hd : 1 ≤ d) (hdw : d ≤ w) :
    Memory.read (Memory.write m w (Memory.read m (w - d))) (w + 1 - d + j % d) =
      Memory.read m (w - d + (j + 1) % d) := by
  have hlt : j % d < d := Nat.mod_lt _ hd
  by_cases hj : j % d + 1 = d
  · have h0 : (j + 1) % d = 0 := by
      rw [Nat.add_mod]
      rcases Nat.eq_or_lt_of_le hd with h | h
      · subst h; simp [Nat.mod_one]
      · rw [Nat.mod_eq_of_lt h, hj, Nat.mod_self]
    rw [show w + 1 - d + j % d = w by omega, Memory.read_write_same hm, h0, Nat.add_zero]
  · have h1 : (j + 1) % d = j % d + 1 := by
      rw [Nat.add_mod, Nat.mod_eq_of_lt (a := 1) (by omega), Nat.mod_eq_of_lt (by omega)]
    rw [Memory.read_write_ne _ (by omega), h1]
    congr 1
    omega

/-- A copy with its source in range and room for all its bytes (R195, R196). -/
theorem copy_ok {n d : Nat} (hm : Memory.wf s.OUTMEM) (hd : 1 ≤ d) (hdw : d ≤ s.WO) (hroom : s.WO + n ≤ s.UL)
    (hcap : s.UL ≤ s.params.outCapacity) :
    ∃ s', copy n ((s.WO : Int) - d) s = .ok () s' ∧ OutputOnly s s' ∧ s'.WO = s.WO + n ∧ Memory.wf s'.OUTMEM ∧
      (∀ j < n, Memory.read s'.OUTMEM (s.WO + j) = Memory.read s.OUTMEM (s.WO - d + j % d)) ∧
      (∀ p, p < s.WO ∨ s.WO + n ≤ p → Memory.read s'.OUTMEM p = Memory.read s.OUTMEM p) := by
  induction n generalizing s with
  | zero => exact ⟨s, rfl, rfl, rfl, hm, fun j hj => absurd hj (by omega), fun _ _ => rfl⟩
  | succ n ih =>
    let s₁ := s.emit (Memory.read s.OUTMEM (s.WO - d))
    have hsrc : ((s.WO : Int) - d).toNat = s.WO - d := by omega
    have hrun : copy (n + 1) ((s.WO : Int) - d) s = copy n ((s₁.WO : Int) - d) s₁ := by
      rw [copy_step (by omega) (by omega) (by omega) (by omega), hsrc]
      show copy n _ s₁ = _
      congr 1
      simp only [s₁, State.emit_WO]
      omega
    obtain ⟨s', h1, h2, h3, h4, h5, h6⟩ := ih (s := s₁) (Memory.wf_write hm _ _) (by simp [s₁]; omega)
      (by simp [s₁]; omega) hcap
    simp only [s₁, State.emit_WO, State.emit_OUTMEM] at h3 h5 h6
    refine ⟨s', by rw [hrun, h1], ?_, by omega, h4, fun j hj => ?_, fun p hp => ?_⟩
    · unfold OutputOnly at *
      rw [h2]
      rfl
    · cases j with
      | zero =>
        rw [Nat.add_zero, h6 s.WO (by omega), Memory.read_write_same hm]
        simp
      | succ j =>
        rw [show s.WO + (j + 1) = s.WO + 1 + j by omega, h5 j (by omega), overlap_source hm hd hdw]
    · rw [h6 p (by omega), Memory.read_write_ne _ (by omega)]

/-- A copy whose first source byte is out of range writes nothing (R198). -/
theorem copy_outOfRange {n : Nat} {src : Int} (h : src < 0 ∨ src ≥ s.WO) :
    copy (n + 1) src s = .error .callEnded (s.endCall .backRefOutOfRange (BitVec.ofInt 32 src) .error) := by
  have hg : getByte src s = .error .callEnded (s.endCall .backRefOutOfRange (BitVec.ofInt 32 src) .error) := by
    simp [getByte, h]
  rw [copy, bind_of_error hg]

/-- A copy that finds the output full keeps the bytes it wrote and records how many it did not (R197). -/
theorem copy_exhausted {n d : Nat} (hm : Memory.wf s.OUTMEM) (hd : 1 ≤ d) (hdw : d ≤ s.WO) (hle : s.WO ≤ s.UL)
    (hroom : s.UL < s.WO + n) (hcap : s.UL ≤ s.params.outCapacity) :
    ∃ s', copy n ((s.WO : Int) - d) s = .error .callEnded
        (s'.endCall .outputBufferExhausted (BitVec.ofNat 32 (n - (s.UL - s.WO))) .error) ∧
      OutputOnly s s' ∧ s'.WO = s.UL ∧ Memory.wf s'.OUTMEM ∧
      (∀ j < s.UL - s.WO, Memory.read s'.OUTMEM (s.WO + j) = Memory.read s.OUTMEM (s.WO - d + j % d)) ∧
      (∀ p, p < s.WO ∨ s.UL ≤ p → Memory.read s'.OUTMEM p = Memory.read s.OUTMEM p) := by
  induction n generalizing s with
  | zero => omega
  | succ n ih =>
    have hsrc : ((s.WO : Int) - d).toNat = s.WO - d := by omega
    by_cases hfull : s.WO = s.UL
    · have hg : getByte ((s.WO : Int) - d) s = .ok (Memory.read s.OUTMEM (s.WO - d)) s ∨
          ¬(s.WO - d < s.params.outCapacity) := by
        by_cases hlt : s.WO - d < s.params.outCapacity
        · left
          have h1 : ¬((s.WO : Int) - d < 0 ∨ (s.WO : Int) - d ≥ s.WO) := by omega
          simp only [getByte, if_neg h1, outRead, hsrc, if_pos hlt]
        · exact .inr hlt
      rcases hg with hg | hg
      · refine ⟨s, ?_, rfl, hfull, hm, fun j hj => by omega, fun _ _ => rfl⟩
        rw [copy, bind_of_ok hg]
        simp only [bind_run, setByte, if_pos hfull, raise_run]
        rw [hfull, Nat.sub_self, Nat.sub_zero]
      · omega
    · let s₁ := s.emit (Memory.read s.OUTMEM (s.WO - d))
      have hrun : copy (n + 1) ((s.WO : Int) - d) s = copy n ((s₁.WO : Int) - d) s₁ := by
        rw [copy_step (by omega) (by omega) (by omega) (by omega), hsrc]
        show copy n _ s₁ = _
        congr 1
        simp only [s₁, State.emit_WO]
        omega
      obtain ⟨s', h1, h2, h3, h4, h5, h6⟩ := ih (s := s₁) (Memory.wf_write hm _ _) (by simp [s₁]; omega)
        (by simp [s₁]; omega) (by simp [s₁]; omega) hcap
      simp only [s₁, State.emit_WO, State.emit_OUTMEM, State.emit_UL] at h1 h3 h5 h6
      refine ⟨s', ?_, ?_, by omega, h4, fun j hj => ?_, fun p hp => ?_⟩
      · rw [hrun]
        simp only [s₁, State.emit_WO]
        rw [h1]
        congr 3
        omega
      · unfold OutputOnly at *
        rw [h2]
        rfl
      · cases j with
        | zero =>
          rw [Nat.add_zero, h6 s.WO (by omega), Memory.read_write_same hm]
          simp
        | succ j =>
          rw [show s.WO + (j + 1) = s.WO + 1 + j by omega, h5 j (by omega), overlap_source hm hd hdw]
      · rw [h6 p (by omega), Memory.read_write_ne _ (by omega)]

/-- What a copy of at most `n` bytes may have done to the output, in any state. -/
structure Wrote (n : Nat) (s s' : State) : Prop where
  same    : OutputOnly s s'
  low     : s.WO ≤ s'.WO
  high    : s'.WO ≤ s.WO + n
  room    : s.WO ≤ s.UL → s'.WO ≤ s.UL
  outside : ∀ p, p < s.WO ∨ s'.WO ≤ p → Memory.read s'.OUTMEM p = Memory.read s.OUTMEM p
  wf      : Memory.wf s.OUTMEM → Memory.wf s'.OUTMEM
  listed : ∀ c ∈ s'.OUTMEM, c ∈ s.OUTMEM ∨ c.1 < s.params.outCapacity

theorem Wrote.refl (s : State) : Wrote 0 s s :=
  ⟨rfl, Nat.le_refl _, Nat.le_refl _, id, fun _ _ => rfl, id, fun _ => .inl⟩

theorem Wrote.weaken {m n : Nat} {s s' : State} (h : Wrote m s s') (hmn : m ≤ n) : Wrote n s s' :=
  { h with high := Nat.le_trans h.high (Nat.add_le_add_left hmn _) }

theorem Wrote.emit (v : Byte) (hne : s.WO ≠ s.UL) (hcap : s.WO < s.params.outCapacity) : Wrote 1 s (s.emit v) where
  same := rfl
  low := by simp
  high := by simp
  room h := by simp only [State.emit_WO]; omega
  outside p hp := by
    simp only [State.emit_WO, State.emit_OUTMEM] at hp ⊢
    exact Memory.read_write_ne v (by omega)
  wf h := Memory.wf_write h _ _
  listed c hc := by
    rcases Memory.mem_write hc with ⟨rfl, _⟩ | hc
    · exact .inr hcap
    · exact .inl hc

theorem Wrote.trans {m n : Nat} {s₁ s₂ s₃ : State} (h₁ : Wrote m s₁ s₂) (h₂ : Wrote n s₂ s₃) : Wrote (m + n) s₁ s₃ where
  same := by
    have a := h₁.same
    have b := h₂.same
    unfold OutputOnly at *
    rw [b, a]
  low := Nat.le_trans h₁.low h₂.low
  high := by have := h₁.high; have := h₂.high; omega
  room h := by
    have hUL : s₂.UL = s₁.UL := by rw [h₁.same]
    have := h₂.room (by rw [hUL]; exact h₁.room h)
    omega
  outside p hp := by
    have := h₁.low
    have := h₂.low
    rw [h₂.outside p (by omega), h₁.outside p (by omega)]
  wf h := h₂.wf (h₁.wf h)
  listed c hc := by
    have hcap : s₂.params = s₁.params := by rw [h₁.same]
    rcases h₂.listed c hc with h | h
    · exact h₁.listed c h
    · exact .inr (hcap ▸ h)

/-- Everything a copy can do, in any state (R195, R197, R198). -/
theorem wp_copy {n : Nat} {src : Int} {Q : Unit → State → Prop} {E : State → Prop}
    (hQ : ∀ s', Wrote n s s' → s'.WO = s.WO + n → Q () s')
    (hE : ∀ s' code info, Wrote n s s' → code = .backRefOutOfRange ∨ code = .outputBufferExhausted →
      E (s'.endCall code info .error)) :
    wp (copy n src) Q E s := by
  induction n generalizing s src Q E with
  | zero => exact hQ s (.refl s) rfl
  | succ n ih =>
    simp only [copy, wp_bind, wp_getByte, wp_setByte]
    refine ⟨fun _ => hE s _ _ ((Wrote.refl s).weaken (by omega)) (.inl rfl), fun _ _ =>
      ⟨fun _ => hE s _ _ ((Wrote.refl s).weaken (by omega)) (.inr rfl), fun hne hcap => ?_⟩⟩
    have h1 := Wrote.emit (s := s) (Memory.read s.OUTMEM src.toNat) hne hcap
    refine ih (fun s' h hw => hQ s' ((h1.trans h).weaken (by omega)) ?_) (fun s' c i h hc => hE s' c i ((h1.trans h).weaken (by omega)) hc)
    simp only [State.emit_WO] at hw
    omega

end Sys2Proof.Machine
end

