-- ==== Sys2Proof/Laws/PerInstr.lean ====
section
/-! SUPPORT. Statements made per instruction: the family `SymbolCode`, that the symbol decoder reads an instruction's symbol
back (R82, R163). -/

namespace Sys2Proof.Laws.SymbolCode

/-- The symbol of the instruction decodes to it, under any selector, or under its own where the selector is an operand. -/
def Statement (i : Instr) : Prop :=
  ∀ sel, (∀ k sel', i = .matchLong k sel' → sel = sel') → decodeSymbol (encodeSymbol i) sel = .ok i

/-- The class boundaries on the symbols with the literal's leading 0. -/
theorem lit_bits : ∀ b : Byte, (0#1 ++ b : Symbol) < 0x100 ∧ (0#1 ++ b : Symbol).extractLsb' 0 8 = b := by
  decide +kernel

theorem short_bits : ∀ k : BitVec 3, let y : Symbol := 0b100000#6 ++ k
    ¬y < 0x100 ∧ y ≠ 0x110 ∧ y ≠ 0x111 ∧ y < 0x108 ∧ y.extractLsb' 0 3 = k := by
  decide +kernel

theorem long_bits : ∀ k : BitVec 3, let y : Symbol := 0b100001#6 ++ k
    ¬y < 0x100 ∧ y ≠ 0x110 ∧ y ≠ 0x111 ∧ ¬y < 0x108 ∧ y < 0x110 ∧ y.extractLsb' 0 3 = k := by
  decide +kernel

theorem lit (b : Byte) : Statement (.lit b) := by
  intro sel _
  simp only [encodeSymbol, decodeSymbol, if_pos (lit_bits b).1, (lit_bits b).2]

theorem matchShort (k : BitVec 3) : Statement (.matchShort k) := by
  intro sel _
  obtain ⟨h1, h2, h3, h4, h5⟩ := short_bits k
  simp only [encodeSymbol, decodeSymbol, if_neg h1, if_neg h2, if_neg h3, if_pos h4, h5]

theorem matchLong (k : BitVec 3) (sel : Selector) : Statement (.matchLong k sel) := by
  intro sel' h
  obtain rfl := h k sel rfl
  obtain ⟨h1, h2, h3, h4, h5, h6⟩ := long_bits k
  simp only [encodeSymbol, decodeSymbol, if_neg h1, if_neg h2, if_neg h3, if_neg h4, if_pos h5, h6]

theorem tableSwap : Statement .tableSwap := fun _ _ => rfl

theorem endSegment : Statement .endSegment := fun _ _ => rfl

end Sys2Proof.Laws.SymbolCode
end

