-- ==== Sys2Proof/Laws/Decode.lean ====
section
/-! SUPPORT. The symbol decoder and the symbol code: what a decoded instruction says of its symbol, which symbols decode,
and the shape of a symbol code. -/

namespace Sys2Proof

/-- What the four tests of the dispatch and their fields say of a symbol below `0x112` (R82, R163). -/
theorem symbol_fields : ∀ y : Symbol,
    (y < 0x100 → (0#1 ++ y.extractLsb' 0 8 : Symbol) = y) ∧
    (¬y < 0x100 → y < 0x108 → (0b100000#6 ++ y.extractLsb' 0 3 : Symbol) = y) ∧
    (¬y < 0x108 → y < 0x110 → (0b100001#6 ++ y.extractLsb' 0 3 : Symbol) = y) ∧
    (¬y < 0x110 → y ≠ 0x110 → y ≠ 0x111 → 0x112 ≤ y.toNat) := by
  decide +kernel

/-- The dispatch loses nothing of the symbol. -/
theorem encodeSymbol_of_decodeSymbol {y : Symbol} {sel : Selector} {i : Instr} (h : decodeSymbol y sel = .ok i) :
    encodeSymbol i = y := by
  obtain ⟨f1, f2, f3, _⟩ := symbol_fields y
  unfold decodeSymbol at h
  split at h
  · next h1 => cases h; exact f1 h1
  split at h
  · next h2 => cases h; exact h2.symm
  split at h
  · next h3 => cases h; exact h3.symm
  split at h
  · next h1 _ _ h4 => cases h; exact f2 h1 h4
  split at h
  · next _ _ _ h4 h5 => cases h; exact f3 h4 h5
  · simp at h

/-- The only symbols the dispatch has no arm for are `0x112..0x1FF` (R84). -/
theorem decodeSymbol_error {y : Symbol} {sel : Selector} {e : DecodeError} (h : decodeSymbol y sel = .error e) :
    e = .unreachableSymbol y ∧ nsym ≤ y.toNat := by
  obtain ⟨_, _, _, f4⟩ := symbol_fields y
  unfold decodeSymbol at h
  repeat (split at h; · simp at h)
  next _ h2 h3 _ h5 =>
    cases h
    exact ⟨rfl, f4 h5 h2 h3⟩

/-- A long match keeps the selector it was decoded under. -/
theorem decodeSymbol_matchLong {y : Symbol} {sel sel' : Selector} {k : BitVec 3}
    (h : decodeSymbol y sel = .ok (.matchLong k sel')) : sel' = sel := by
  unfold decodeSymbol at h
  repeat (split at h; · simp at h)
  split at h
  · cases h; rfl
  · simp at h

/-- A symbol that decodes is below `0x112`. -/
theorem lt_of_decodeSymbol {y : Symbol} {sel : Selector} {i : Instr} (h : decodeSymbol y sel = .ok i) :
    y.toNat < nsym := by
  show y.toNat < 274
  unfold decodeSymbol at h
  split at h
  · next h1 => have := BitVec.lt_def.mp h1; simp at this; omega
  split at h
  · next h2 => subst h2; decide
  split at h
  · next h3 => subst h3; decide
  split at h
  · next h4 => have := BitVec.lt_def.mp h4; simp at this; omega
  split at h
  · next h5 => have := BitVec.lt_def.mp h5; simp at this; omega
  · simp at h

/-- Every symbol below `0x112` decodes (R82). -/
theorem decodeSymbol_ok_of_lt {y : Symbol} (sel : Selector) (h : y.toNat < nsym) : ∃ i, decodeSymbol y sel = .ok i := by
  cases hd : decodeSymbol y sel with
  | ok i => exact ⟨i, rfl⟩
  | error e => exact absurd (decodeSymbol_error hd).2 (by omega)

/-- A symbol of a permutation is below `0x112` (R141). -/
theorem assign_lt {d : Directory} (hd : d.WF) {i : Nat} (hi : i < nsym) : (d.ASSIGN[i]).toNat < nsym := by
  have hmem : d.ASSIGN[i] ∈ symbols := hd.subset (by
    rw [Vector.mem_toList_iff]
    exact Vector.getElem_mem hi)
  obtain ⟨n, hn, h⟩ := List.mem_map.mp hmem
  rw [← h, BitVec.toNat_ofNat]
  have := List.mem_range.mp hn
  omega

/-- Two indices of a permutation with the same symbol are the same index. -/
theorem assign_injective {d : Directory} (hd : d.WF) {i j : Nat} (hi : i < nsym) (hj : j < nsym)
    (h : d.ASSIGN[i] = d.ASSIGN[j]) : i = j := by
  have hnodup : d.ASSIGN.toList.Nodup := by
    refine hd.symm.nodup ((List.nodup_map_iff_inj_on List.nodup_range).mpr fun a ha b hb hab => ?_)
    have h1 := congrArg BitVec.toNat hab
    rw [BitVec.toNat_ofNat, BitVec.toNat_ofNat] at h1
    have h2 : a < 274 := List.mem_range.mp ha
    have h3 : b < 274 := List.mem_range.mp hb
    omega
  exact (hnodup.getElem_inj_iff (hi := by simpa using hi) (hj := by simpa using hj)).mp (by simpa using h)

end Sys2Proof
end

