-- ==== Sys2Proof/Laws/TableBuild.lean ====
section
/-! SUPPORT. The table-construction sub-protocol (R122): what it does follows from what the bits ahead of the cursor decode
to (`decodeGroups`). -/

namespace Sys2Proof.Machine

variable {s s' : State} {p : Params}

/-- The next bit, when there is one. -/
theorem readChecked_bit {b : Bool} {rest : List Bool} (hV : s.V < 32) (hr : s.OFF + s.END ≤ s.params.srcSize)
    (hu : s.unread = b :: rest) :
    ∃ s', readChecked 1 s = .ok (some b.toNat) s' ∧ Moved 1 s s' ∧ CursorOnly s s' ∧ s'.unread = rest := by
  obtain ⟨s', h1, h2, h3, h4, h5, h6, h7, h8⟩ := readChecked_some (n := 1) (by omega) hV hr (by simp [hu])
  refine ⟨s', ?_, .of_ok h2 h4 h6 h7 h8, h2, by rw [h3, hu]; rfl⟩
  rw [h1, hu]
  simp [valueOf_cons]

theorem lengthOf_ge (c : LenCoding) (lrun z : Nat) : z ≤ c.lengthOf lrun z := by
  cases c <;> simp [LenCoding.lengthOf]

/-- How a computation of the sub-protocol may end the call: in the condition that the decoded bits call for. -/
def EndsAs (e : DecodeError) (s : State) (r : State) : Prop :=
  match e with
  | .tableFormat slot rest =>
    ∃ s', CursorOnly s s' ∧ s'.unread = rest ∧ Bounds s s' ∧ r = s'.endCall .tableFormatFault (BitVec.ofNat 32 slot) .error
  | .truncated =>
    ∃ s' : State, s' = { s with S := s'.S, POS := s'.POS, V := s'.V, SOFT := true } ∧ s'.unread = [] ∧ Bounds s s' ∧
      r = s'.endCall .prematureEOF (BitVec.ofNat 32 (s.UL - s.WO)) .error
  | .outOfSync _ _ | .unreachableSymbol _ => False

theorem EndsAs.of_cursorOnly {e : DecodeError} {s s₁ r : State} (h : CursorOnly s s₁) (hb : Bounds s s₁)
    (he : EndsAs e s₁ r) : EndsAs e s r := by
  cases e with
  | truncated =>
    obtain ⟨s', h1, hu, h2, rfl⟩ := he
    refine ⟨s', ?_, hu, hb.trans h2, ?_⟩
    · rw [h1, h]
    · rw [h]
  | tableFormat slot rest =>
    obtain ⟨s', h1, hu, h2, rfl⟩ := he
    exact ⟨s', h.trans h1, hu, hb.trans h2, rfl⟩
  | outOfSync _ _ => exact he
  | unreachableSymbol _ => exact he

/-- The unary loop does what `decodeGroup` says of the bits ahead (R122, R124, R125). -/
theorem unaryGroup_spec {lrun slot fuel z : Nat} (hfuel : fuel + z = 25) (hz : z ≤ 24) (hV : s.V < 32)
    (hr : s.OFF + s.END ≤ s.params.srcSize) :
    match decodeGroup p lrun slot z s.unread with
    | .ok (z', rest) => ∃ s', unaryGroup p lrun slot fuel z s = .ok z' s' ∧ CursorOnly s s' ∧ s'.unread = rest ∧
        Bounds s s' ∧ (z' = z ∨ p.lenCoding.lengthOf lrun z' ≤ p.maxCodeLen.val)
    | .error e => ∃ r, unaryGroup p lrun slot fuel z s = .error .callEnded r ∧ EndsAs e s r := by
  induction fuel generalizing s z with
  | zero => omega
  | succ fuel ih =>
    cases hu : s.unread with
    | nil =>
      obtain ⟨s', h1, h2, h3⟩ := readChecked_none (s := s) (n := 1) (by omega) hV hr (by simp [hu])
      refine ⟨s'.endCall .prematureEOF (BitVec.ofNat 32 (s.UL - s.WO)) .error, ?_, s', h1.same, by simp [h1.unread, hu],
        (Moved.of_underflow (n := 1) h1 h2).bounds, rfl⟩
      have hw : s'.UL - s'.WO = s.UL - s.WO := by rw [h1.same]
      rw [unaryGroup, bind_run, h3]
      cases s.LEN <;> simp [hw]
    | cons b rest =>
      obtain ⟨s₁, h1, h2, h3, h4⟩ := readChecked_bit hV hr hu
      cases b with
      | true =>
        refine ⟨s₁, ?_, h3, h4, h2.bounds, .inl rfl⟩
        rw [unaryGroup, bind_of_ok h1]
        simp
      | false =>
        by_cases hlen : p.lenCoding.lengthOf lrun (z + 1) > p.maxCodeLen.val
        · simp only [decodeGroup, if_pos hlen]
          refine ⟨s₁.endCall .tableFormatFault (BitVec.ofNat 32 slot) .error, ?_, s₁, h3, h4, h2.bounds, rfl⟩
          rw [unaryGroup, bind_of_ok h1]
          simp [hlen]
        · have hz' : z + 1 ≤ 24 := Nat.le_trans (Nat.le_trans (lengthOf_ge _ lrun (z + 1)) (Nat.le_of_not_lt hlen)) p.maxCodeLen.is_le
          have hrun : unaryGroup p lrun slot (fuel + 1) z s = unaryGroup p lrun slot fuel (z + 1) s₁ := by
            rw [unaryGroup, bind_of_ok h1]
            simp [hlen]
          have ih' := ih (s := s₁) (z := z + 1) (by omega) hz' h2.small (by rw [h3]; exact hr)
          rw [hrun]
          simp only [decodeGroup, if_neg hlen]
          rw [h4] at ih'
          split <;> rename_i h <;> rw [h] at ih'
          · obtain ⟨s', a1, a2, a3, a4, a5⟩ := ih'
            refine ⟨s', a1, h3.trans a2, a3, h2.bounds.trans a4, ?_⟩
            rcases a5 with rfl | a5
            · exact .inr (Nat.le_of_not_lt hlen)
            · exact .inr a5
          · obtain ⟨r, a1, a2⟩ := ih'
            exact ⟨r, a1, a2.of_cursorOnly h3 h2.bounds⟩

/-- What a built table holds from slot `slot` on: the lengths, and the bases cumulative from `run` on (R122). -/
def HoldsSlots (t new : Table) (slot run : Nat) (lengths : List Nat) : Prop :=
  ∀ i (hi : i < 16),
    (i < slot → t.len[i] = new.len[i] ∧ t.base[i] = new.base[i]) ∧
    (∀ j (hj : j < lengths.length), i = slot + j →
      t.len[i].val = lengths[j] ∧ t.base[i] = run + ((lengths.take j).map (2 ^ ·)).sum)

/-- `buildSlots` does what `decodeGroups` says of the bits ahead (R122, R124, R125). -/
theorem buildSlots_spec {slots slot lrun run : Nat} {new : Table} (hs : slot + slots ≤ 16) (hl : lrun ≤ p.maxCodeLen.val)
    (hV : s.V < 32) (hr : s.OFF + s.END ≤ s.params.srcSize) :
    match decodeGroups p slots slot lrun s.unread with
    | .ok (zs, rest) => ∃ s' t, buildSlots p slots slot lrun run new s = .ok t s' ∧ CursorOnly s s' ∧
        s'.unread = rest ∧ Bounds s s' ∧ zs.length = slots ∧ (∀ l ∈ slotLengths p.lenCoding lrun zs, l ≤ p.maxCodeLen.val) ∧
        HoldsSlots t new slot run (slotLengths p.lenCoding lrun zs)
    | .error e => ∃ r, buildSlots p slots slot lrun run new s = .error .callEnded r ∧ EndsAs e s r := by
  induction slots generalizing s slot lrun run new with
  | zero =>
    refine ⟨s, new, rfl, .refl s, rfl, .refl hV, rfl, fun l hl => by simp [slotLengths] at hl, fun i hi => ⟨fun _ => ⟨rfl, rfl⟩, fun j hj => ?_⟩⟩
    simp [slotLengths] at hj
  | succ slots ih =>
    have hg := unaryGroup_spec (p := p) (lrun := lrun) (slot := slot) (fuel := 25) (z := 0) rfl (by omega) hV hr
    simp only [decodeGroups]
    cases hd : decodeGroup p lrun slot 0 s.unread with
    | error e =>
      rw [hd] at hg
      obtain ⟨r, a1, a2⟩ := hg
      exact ⟨r, by rw [buildSlots, bind_of_error a1], a2⟩
    | ok q =>
      obtain ⟨z, bits₁⟩ := q
      rw [hd] at hg
      obtain ⟨s₁, a1, a2, a3, a4, a5⟩ := hg
      have hlen : p.lenCoding.lengthOf lrun z ≤ p.maxCodeLen.val := by
        rcases a5 with rfl | a5
        · cases p.lenCoding <;> simp [LenCoding.lengthOf, hl]
        · exact a5
      let new₁ : Table :=
        { len := new.len.setIfInBounds slot (Fin.ofNat 25 (p.lenCoding.lengthOf lrun z)), base := new.base.setIfInBounds slot run }
      have hrun : buildSlots p (slots + 1) slot lrun run new s =
          buildSlots p slots (slot + 1) (p.lenCoding.lengthOf lrun z) (run + 2 ^ p.lenCoding.lengthOf lrun z) new₁ s₁ := by
        rw [buildSlots, bind_of_ok a1]
      have ih' := ih (s := s₁) (slot := slot + 1) (lrun := p.lenCoding.lengthOf lrun z) (run := run + 2 ^ p.lenCoding.lengthOf lrun z)
        (new := new₁) (by omega) hlen a4.small (by rw [a2]; exact hr)
      rw [a3] at ih'
      simp only
      cases hd₁ : decodeGroups p slots (slot + 1) (p.lenCoding.lengthOf lrun z) bits₁ with
      | error e =>
        rw [hd₁] at ih'
        obtain ⟨r, b1, b2⟩ := ih'
        exact ⟨r, by rw [hrun, b1], b2.of_cursorOnly a2 a4⟩
      | ok q =>
        obtain ⟨zs, rest⟩ := q
        rw [hd₁] at ih'
        obtain ⟨s', t, b1, b2, b3, b4, b5, b6, b7⟩ := ih'
        refine ⟨s', t, by rw [hrun, b1], a2.trans b2, b3, a4.trans b4, by simp [b5], ?_, fun i hi => ⟨fun hlt => ?_, fun j hj hij => ?_⟩⟩
        · intro l hl'
          rcases List.mem_cons.mp hl' with rfl | hl'
          · exact hlen
          · exact b6 l hl'
        · obtain ⟨h1, h2⟩ := (b7 i hi).1 (by omega)
          have hne : slot ≠ i := by omega
          simp only [new₁, Vector.getElem_setIfInBounds, if_neg hne] at h1 h2
          exact ⟨h1, h2⟩
        · cases j with
          | zero =>
            obtain ⟨h1, h2⟩ := (b7 i hi).1 (by omega)
            have heq : slot = i := by omega
            simp only [new₁, Vector.getElem_setIfInBounds, if_pos heq] at h1 h2
            constructor
            · rw [h1]
              simp [slotLengths, Nat.mod_eq_of_lt (show p.lenCoding.lengthOf lrun z < 25 by have := p.maxCodeLen.is_le; omega)]
            · rw [h2]; simp
          | succ j =>
            simp only [slotLengths, List.length_cons] at hj
            obtain ⟨h1, h2⟩ := (b7 i hi).2 j (by omega) (by omega)
            constructor
            · rw [h1]; rfl
            · rw [h2]
              simp only [slotLengths, List.take_succ_cons, List.map_cons, List.sum_cons]
              omega

theorem length_slotLengths (c : LenCoding) (lrun : Nat) (zs : List Nat) :
    (slotLengths c lrun zs).length = zs.length := by
  induction zs generalizing lrun with
  | nil => rfl
  | cons z zs ih => simp [slotLengths, ih]

/-- A table that holds 16 slots cumulative from 0 has those lengths and is well-formed (R128 (a)). -/
theorem HoldsSlots.wf {t new : Table} {lengths : List Nat} (h : HoldsSlots t new 0 0 lengths)
    (hlen : lengths.length = 16) : t.len.toList.map Fin.val = lengths ∧ t.WF := by
  have h1 : t.len.toList.map Fin.val = lengths := by
    refine List.ext_getElem (by simp [hlen]) fun i hi _ => ?_
    have hi' : i < 16 := by simpa using hi
    simpa using ((h i hi').2 i (by omega) (by omega)).1
  refine ⟨h1, fun s => ?_⟩
  have h2 := ((h s.val s.isLt).2 s.val (by omega) (by omega)).2
  rw [Nat.zero_add] at h2
  show t.base[s.val] = _
  rw [h2, cumulativeBase, ← h1, ← List.map_take, List.map_map]
  rfl

/-- `build_table()` does what the bits ahead decode to (R122 to R126): the new table, or the condition. -/
theorem buildTable_spec (hV : s.V < 32) (hr : s.OFF + s.END ≤ s.params.srcSize) :
    match decodeGroups s.params 16 0 0 s.unread with
    | .ok (zs, rest) => ∃ s' t, buildTable s = .ok () (s'.withTable t) ∧ CursorOnly s s' ∧ s'.unread = rest ∧
        Bounds s s' ∧ zs.length = 16 ∧ GroupsFit s.params zs ∧
        t.len.toList.map Fin.val = slotLengths s.params.lenCoding 0 zs ∧ t.WF
    | .error e => ∃ r, buildTable s = .error .callEnded r ∧ EndsAs e s r := by
  have h := buildSlots_spec (s := s) (p := s.params) (slots := 16) (slot := 0) (lrun := 0) (run := 0)
    (new := s.T) (by omega) (Nat.zero_le _) hV hr
  cases hd : decodeGroups s.params 16 0 0 s.unread with
  | error e =>
    rw [hd] at h
    obtain ⟨r, a1, a2⟩ := h
    refine ⟨r, ?_, a2⟩
    simp only [buildTable, bind_get]
    rw [bind_of_error a1]
  | ok q =>
    obtain ⟨zs, rest⟩ := q
    rw [hd] at h
    obtain ⟨s', t, b1, b2, b3, b4, b5, b6, b7⟩ := h
    obtain ⟨c1, c2⟩ := b7.wf (by rw [length_slotLengths, b5])
    refine ⟨s', t, ?_, b2, b3, b4, b5, b6, c1, c2⟩
    simp only [buildTable, bind_get]
    rw [bind_of_ok b1]
    simp

end Sys2Proof.Machine
end

