-- ==== Sys2Proof/Laws/Fetch.lean ====
section
/-! SUPPORT. The symbol decode of an iteration (R162): what it does follows from what the bits ahead of the cursor decode to
(`decodeInstr`). -/

namespace Sys2Proof.Machine

variable {s s' : State}

theorem lenAt_le (t : Table) (sel : Selector) : t.lenAt sel ≤ 24 := by
  unfold Table.lenAt
  omega

/-- The reads of a symbol code, and what follows them (R162). -/
theorem fetch_run {v off : Nat} {s₁ s₂ : State} (h1 : read 4 s = .ok v s₁)
    (h2 : read (s₁.T.lenAt (BitVec.ofNat 4 v)) s₁ = .ok off s₂) :
    fetch s =
      (if h : s₁.T.baseAt (BitVec.ofNat 4 v) + off < nsym then
        match decodeSymbol s₂.DIR.ASSIGN[s₁.T.baseAt (BitVec.ofNat 4 v) + off] (BitVec.ofNat 4 v) with
        | .error _ => .error (.refused (.unreachableSymbol s₂.DIR.ASSIGN[s₁.T.baseAt (BitVec.ofNat 4 v) + off])) s₂
        | .ok i => .ok i (s₂.withDir (countUse s₂.DIR s₂.DIR.ASSIGN[s₁.T.baseAt (BitVec.ofNat 4 v) + off]))
      else .error .callEnded (s₂.endCall .outOfSyncSymbol
        (BitVec.ofNat 32 (s₁.T.baseAt (BitVec.ofNat 4 v) + off)) .error)) := by
  rw [fetch, bind_of_ok h1]
  simp only [bind_get]
  rw [bind_of_ok h2, bind_run]
  by_cases hidx : s₁.T.baseAt (BitVec.ofNat 4 v) + off < nsym
  · simp only [resolve, dif_pos hidx]
    cases decodeSymbol (s₂.DIR.ASSIGN[s₁.T.baseAt (BitVec.ofNat 4 v) + off]) (BitVec.ofNat 4 v) <;> rfl
  · simp only [resolve, dif_neg hidx, raise_run]

/-- When the bits ahead decode to an instruction, the symbol decode yields it, has consumed its code, and has counted its
symbol (R162). -/
theorem fetch_ok {i : Instr} {rest : List Bool} (hV : s.V < 32) (hr : s.OFF + s.END ≤ s.params.srcSize)
    (h : decodeInstr s.T s.DIR s.unread = .ok (i, rest)) :
    ∃ s', fetch s = .ok i (s'.withDir (countUse s.DIR (encodeSymbol i))) ∧ CursorOnly s s' ∧ s'.unread = rest ∧
      s'.V < 32 := by
  unfold decodeInstr decodeCode at h
  cases ht : takeBits 4 s.unread with
  | none => simp [ht] at h
  | some p =>
    obtain ⟨v, bits₁⟩ := p
    simp only [ht] at h
    cases ht₁ : takeBits (s.T.lenAt (BitVec.ofNat 4 v)) bits₁ with
    | none => simp [ht₁] at h
    | some q =>
      obtain ⟨off, bits₂⟩ := q
      simp only [ht₁] at h
      obtain ⟨u0, hv⟩ := takeBits_eq_some ht
      obtain ⟨u1', hoff⟩ := takeBits_eq_some ht₁
      obtain ⟨s₁, h1, c1, u1, v1, w1⟩ := read_bits (by omega) hV hr hv u0
      have e1 : s₁.T = s.T := by rw [c1]
      obtain ⟨s₂, h2, c2, u2, v2, _⟩ := read_bits (s := s₁) (lenAt_le s.T _) v1 (by rw [c1]; exact hr) hoff
        (by rw [u1, u1'])
      have e2 : s₂.DIR = s.DIR := by rw [c2, c1]
      by_cases hidx : s.T.baseAt (BitVec.ofNat 4 v) + off < nsym
      · simp only [dif_pos hidx] at h
        cases hd : decodeSymbol (s.DIR.ASSIGN[s.T.baseAt (BitVec.ofNat 4 v) + off]) (BitVec.ofNat 4 v) with
        | error e => simp [hd] at h
        | ok j =>
          simp only [hd, Except.ok.injEq, Prod.mk.injEq] at h
          obtain ⟨rfl, rfl⟩ := h
          refine ⟨s₂, ?_, c1.trans c2, u2, v2⟩
          rw [fetch_run h1 (by rw [e1]; exact h2)]
          simp only [e1, e2, dif_pos hidx, hd, encodeSymbol_of_decodeSymbol hd]
      · simp [dif_neg hidx] at h

/-- When the bits ahead code an index at or above `0x112`, the call ends in OutOfSyncSymbol with that index, the cursor stands
after the code, and the directory is as it was (R83, R224). -/
theorem fetch_outOfSync {idx : Nat} {rest : List Bool} (hV : s.V < 32) (hr : s.OFF + s.END ≤ s.params.srcSize)
    (h : decodeInstr s.T s.DIR s.unread = .error (.outOfSync idx rest)) :
    ∃ s', fetch s = .error .callEnded (s'.endCall .outOfSyncSymbol (BitVec.ofNat 32 idx) .error) ∧ CursorOnly s s' ∧
      s'.unread = rest ∧ (s.V ≤ 7 → s'.V ≤ 7) := by
  unfold decodeInstr decodeCode at h
  cases ht : takeBits 4 s.unread with
  | none => simp [ht] at h
  | some p =>
    obtain ⟨v, bits₁⟩ := p
    simp only [ht] at h
    cases ht₁ : takeBits (s.T.lenAt (BitVec.ofNat 4 v)) bits₁ with
    | none => simp [ht₁] at h
    | some q =>
      obtain ⟨off, bits₂⟩ := q
      simp only [ht₁] at h
      obtain ⟨u0, hv⟩ := takeBits_eq_some ht
      obtain ⟨u1', hoff⟩ := takeBits_eq_some ht₁
      obtain ⟨s₁, h1, c1, u1, v1, w1⟩ := read_bits (by omega) hV hr hv u0
      have e1 : s₁.T = s.T := by rw [c1]
      obtain ⟨s₂, h2, c2, u2, _, w2⟩ := read_bits (s := s₁) (lenAt_le s.T _) v1 (by rw [c1]; exact hr) hoff
        (by rw [u1, u1'])
      by_cases hidx : s.T.baseAt (BitVec.ofNat 4 v) + off < nsym
      · simp only [dif_pos hidx] at h
        cases hd : decodeSymbol (s.DIR.ASSIGN[s.T.baseAt (BitVec.ofNat 4 v) + off]) (BitVec.ofNat 4 v) with
        | error e =>
          simp only [hd, Except.error.injEq] at h
          rw [(decodeSymbol_error hd).1] at h
          simp at h
        | ok j => simp [hd] at h
      · simp only [dif_neg hidx, Except.error.injEq, DecodeError.outOfSync.injEq] at h
        obtain ⟨rfl, rfl⟩ := h
        refine ⟨s₂, ?_, c1.trans c2, u2, fun h7 => w2 (w1 h7)⟩
        rw [fetch_run h1 (by rw [e1]; exact h2)]
        simp only [e1, dif_neg hidx]

/-- Everything the symbol decode can do in a call that START admitted, for invariants. -/
theorem wp_fetch {Q : Instr → State → Prop} {E : State → Prop} (hV : s.V < 32)
    (hr : s.OFF + s.END ≤ s.params.srcSize)
    (hQ : ∀ i s₁ s₂, Moved 4 s s₁ → (∃ n, Moved n s₁ s₂) → (encodeSymbol i).toNat < nsym →
      Q i (s₂.withDir (countUse s₂.DIR (encodeSymbol i))))
    (hSync : ∀ idx s₁ s₂, Moved 4 s s₁ → (∃ n, Moved n s₁ s₂) →
      E (s₂.endCall .outOfSyncSymbol (BitVec.ofNat 32 idx) .error))
    (hEOF : ∀ s₁ s₂, s₁ = s ∨ Moved 4 s s₁ → (∃ n, Moved n s₁ s₂) →
      E (s₂.endCall .prematureEOF (BitVec.ofNat 32 (s₂.UL - s₂.WO)) .error)) :
    wp fetch Q E s := by
  rw [fetch]
  simp only [wp_bind, wp_get, wp_resolve]
  refine wp_read (by omega) hV hr (fun v s₁ hv m₁ => ?_) (fun s' m => hEOF s s' (.inl rfl) ⟨4, m⟩)
  have e1 : s₁.OFF + s₁.END ≤ s₁.params.srcSize := by rw [m₁.same]; exact hr
  refine wp_read (lenAt_le _ _) m₁.small e1 (fun off s₂ hoff m₂ => ⟨fun hidx => ?_, fun _ => hSync _ s₁ s₂ m₁ ⟨_, m₂⟩⟩)
    (fun s' m => hEOF s₁ s' (.inr m₁) ⟨_, m⟩)
  cases hd : decodeSymbol (s₂.DIR.ASSIGN[s₁.T.baseAt (BitVec.ofNat 4 v) + off]) (BitVec.ofNat 4 v) with
  | error e => simp
  | ok i =>
    have henc := encodeSymbol_of_decodeSymbol hd
    simp only [recordUse, wp_bind, wp_modify, wp_pure]
    rw [← henc]
    refine hQ i s₁ s₂ m₁ ⟨_, m₂⟩ ?_
    rw [henc]
    exact lt_of_decodeSymbol hd

end Sys2Proof.Machine
end

