-- ==== Sys2Proof/Laws/Frame.lean ====
section
/-! SUPPORT. Frames that hold in every state: what the reader and the computations made of it may touch, and how a turn of the
engine splits into the loop top, the symbol decode and the instruction. -/

namespace Sys2Proof.Machine

/-- The two states differ in the cursor registers and the soft-fault flag at most, and the flag is not cleared. -/
structure ReaderOnly (s s' : State) : Prop where
  same : s' = { s with S := s'.S, POS := s'.POS, V := s'.V, SOFT := s'.SOFT }
  soft : s.SOFT = true → s'.SOFT = true

theorem ReaderOnly.refl (s : State) : ReaderOnly s s := ⟨rfl, id⟩

theorem ReaderOnly.trans {s₁ s₂ s₃ : State} (h₁ : ReaderOnly s₁ s₂) (h₂ : ReaderOnly s₂ s₃) : ReaderOnly s₁ s₃ :=
  ⟨by rw [h₂.same, h₁.same], fun h => h₂.soft (h₁.soft h)⟩

/-- The same as an equation to substitute. -/
theorem ReaderOnly.eq {s s' : State} (h : ReaderOnly s s') :
    ∃ x p v f, s' = { s with S := x, POS := p, V := v, SOFT := f } ∧ (s.SOFT = true → f = true) :=
  ⟨_, _, _, _, h.same, h.soft⟩

variable {s : State} {n : Nat}

/-- A computation that only reads the stream: whatever it yields, and in whatever state it raises a condition, only the cursor
and the soft-fault flag have moved. -/
def ReadsOnly {α : Type} (m : Engine α) : Prop :=
  ∀ s, wp m (fun _ s' => ReaderOnly s s') (fun r => ∃ s' c w, ReaderOnly s s' ∧ r = s'.endCall c w .error) s

theorem ReadsOnly.bind {α β : Type} {m : Engine α} {f : α → Engine β} (hm : ReadsOnly m) (hf : ∀ a, ReadsOnly (f a)) :
    ReadsOnly (m >>= f) := by
  intro s
  rw [wp_bind]
  refine wp_mono (hm s) (fun a s₁ h₁ => ?_) fun _ h => h
  exact wp_mono (hf a s₁) (fun _ _ h₂ => h₁.trans h₂) fun _ ⟨s', c, w, h₂, he⟩ => ⟨s', c, w, h₁.trans h₂, he⟩

theorem ReadsOnly.pure {α : Type} (a : α) : ReadsOnly (Pure.pure a : Engine α) := fun s => .refl s

theorem ReadsOnly.get : ReadsOnly (MonadState.get : Engine State) := fun s => .refl s

theorem ReadsOnly.raise {α : Type} (c : Condition) (w : Word) : ReadsOnly (Machine.raise c w : Engine α) :=
  fun s => ⟨s, c, w, .refl s, rfl⟩

theorem ReadsOnly.raisePrematureEOF {α : Type} : ReadsOnly (Machine.raisePrematureEOF : Engine α) :=
  fun s => ⟨s, _, _, .refl s, rfl⟩

theorem ReadsOnly.refill (n fuel : Nat) : ReadsOnly (Machine.refill n fuel) := by
  induction fuel with
  | zero => exact .pure ()
  | succ fuel ih =>
    intro s
    simp only [Machine.refill, wp_bind, wp_get]
    split
    · simp only [wp_bind, wp_srcRead, wp_modify]
      intro _
      have h₁ : ReaderOnly s (s.stage (Memory.read s.SRCMEM (s.OFF + s.POS))) := ⟨rfl, id⟩
      exact wp_mono (ih _) (fun _ _ h₂ => h₁.trans h₂) fun _ ⟨s', c, w, h₂, he⟩ => ⟨s', c, w, h₁.trans h₂, he⟩
    · exact .refl s

theorem ReadsOnly.readChecked (n : Nat) : ReadsOnly (Machine.readChecked n) := by
  refine .bind (.refill n n) fun _ s => ?_
  simp only [wp_bind, wp_get]
  split
  · have h : ReaderOnly s s.softFault := ⟨rfl, fun _ => rfl⟩
    simp only [wp_bind, underflow, wp_modify, wp_get]
    split
    · exact h
    · exact ⟨_, _, _, h, rfl⟩
  · exact ⟨rfl, id⟩

theorem ReadsOnly.read (n : Nat) : ReadsOnly (Machine.read n) := .bind (.readChecked n) fun _ => .pure _

theorem ReadsOnly.longLength (k : BitVec 3) (sel : Selector) : ReadsOnly (Machine.longLength k sel) :=
  .bind .get fun _ => .bind (.read _) fun _ => .pure _

theorem ReadsOnly.distance : ReadsOnly Machine.distance :=
  .bind (.read _) fun _ => .bind .get fun _ => .bind (.read _) fun _ => .bind (.read _) fun _ => .bind .get fun _ => .pure _

theorem ReadsOnly.unaryGroup (p : Params) (lrun slot fuel z : Nat) :
    ReadsOnly (Machine.unaryGroup p lrun slot fuel z) := by
  induction fuel generalizing z with
  | zero => exact .raise _ _
  | succ fuel ih =>
    refine .bind (.readChecked 1) fun r => ?_
    cases r with
    | none => exact .raisePrematureEOF
    | some b =>
      show ReadsOnly (if b = 1 then Pure.pure z
        else if p.lenCoding.lengthOf lrun (z + 1) > p.maxCodeLen.val then Machine.raise .tableFormatFault (BitVec.ofNat 32 slot)
        else Machine.unaryGroup p lrun slot fuel (z + 1))
      split
      · exact .pure _
      split
      · exact .raise _ _
      · exact ih _

theorem ReadsOnly.buildSlots (p : Params) (slots slot lrun run : Nat) (new : Table) :
    ReadsOnly (Machine.buildSlots p slots slot lrun run new) := by
  induction slots generalizing slot lrun run new with
  | zero => exact .pure _
  | succ slots ih => exact .bind (.unaryGroup _ _ _ _ _) fun _ => ih _ _ _ _

/-! ### A turn of the engine -/

theorem step_of_engineTurn (h : s.nextTurn = .engine) : step s = engineTurn s.turnTaken := by
  rw [step, h]

theorem step_of_hostTurn {a : HostAction} (h : s.nextTurn = .host a) : step s = hostTurn a s.turnTaken := by
  rw [step, h]

@[simp] theorem turnTaken_unread : s.turnTaken.unread = s.unread := rfl

@[simp] theorem turnTaken_capReached : s.turnTaken.capReached = s.capReached := rfl

theorem capReached_none (h : s.params.iterCap = none) : s.capReached = false := by
  simp [State.capReached, h]

theorem capReached_some {cap : IterCap} (h : s.params.iterCap = some cap) :
    s.capReached = true ↔ cap.limit s.UL ≤ s.ITER := by
  simp [State.capReached, h]

/-- A count that fits 32 bits is recorded as it stands (R222). -/
theorem iterationInfo_toNat {n : Nat} (h : n < 2 ^ 32) : (iterationInfo n).toNat = n := by
  rw [iterationInfo, if_pos h]
  exact Nat.mod_eq_of_lt h

/-- Everything the loop top can do (R161, R170, R225). -/
theorem wp_loopTop {Q : Unit → State → Prop} {E : State → Prop} :
    wp loopTop Q E s ↔
      if s.WO = s.UL then E (s.endCall .none 0 .done)
      else if s.V = 0 ∧ s.POS = s.END then E (s.endCall .prematureEOF (BitVec.ofNat 32 (s.UL - s.WO)) .error)
      else if s.capReached then E (s.endCall .iterationCapExceeded (iterationInfo s.ITER) .error)
      else Q () s.countIteration := by
  have h₁ : s.outputFull = true ↔ s.WO = s.UL := by simp [State.outputFull]
  have h₂ : s.sourceEof = true ↔ s.V = 0 ∧ s.POS = s.END := by simp [State.sourceEof]
  simp only [loopTop, wp_bind, wp_get, h₁, h₂]
  repeat' split
  all_goals rfl

/-- The loop top of an iteration that begins: it counts the iteration (R161). -/
theorem nextInstr_of_begins (hw : s.WO ≠ s.UL) (he : ¬(s.V = 0 ∧ s.POS = s.END)) (hc : s.capReached = false) :
    nextInstr s = fetch s.countIteration := by
  have h₁ : s.outputFull = false := by simp [State.outputFull, hw]
  have h₂ : s.sourceEof = false := by simpa [State.sourceEof] using he
  simp [nextInstr, loopTop, h₁, h₂, hc]

/-- A turn of the engine in a running call: the loop top and the symbol decode, then the instruction. -/
theorem engineTurn_decoding (h : s.ESTATE = .decoding) :
    engineTurn s = match nextInstr s with
      | .ok i s'              => exec i s'
      | .error .callEnded s'  => .next s'
      | .error (.fault r) _   => .fault r
      | .error (.refused r) _ => .refused r := by
  unfold engineTurn
  cases nextInstr s with
  | ok i s' => simp [h]
  | error e s' => cases e <;> simp [h]

/-- Bits ahead of the cursor mean that the source is not at its end (R106). -/
theorem not_sourceEof_of_unread (h : s.unread ≠ []) : ¬(s.V = 0 ∧ s.POS = s.END) := by
  rintro ⟨h₁, h₂⟩
  refine h (List.eq_nil_of_length_eq_zero ?_)
  rw [length_unread]
  omega

end Sys2Proof.Machine
end

