-- ==== Sys2Proof/Tests/Slice0.lean ====
section
/-! SUPPORT. The model's own tests. Expected values come from spec/95_test_vectors.md (the vector is named in the docstring)
or are worked out by hand from the rule named. Each theorem evaluates one step, or one decode, on a small state. -/

namespace Sys2Proof.Machine.Tests

set_option Elab.async false

/-! ### Helpers -/

/-- A call just started under TC on a source of the given bytes (R262). -/
def call (lenient : Bool) (bytes : List Byte) (ul : Nat) : State :=
  State.latch
    { State.reset with
      params := Config.tc, LENIENT := lenient, SRCMEM := Memory.load [] 0 bytes
      SRC_LENGTH := BitVec.ofNat 32 bytes.length, UNPACKED_LENGTH := BitVec.ofNat 32 ul }

/-- The call after bytes have been written: the writer stands after them. -/
def written (s : State) (out : List Byte) : State :=
  { s with OUTMEM := Memory.load s.OUTMEM 0 out, WO := out.length }

/-- The outcome is a next state with the given property. -/
def answers (o : Host.Outcome State Fault Refusal) (p : State → Bool) : Bool :=
  match o with
  | .next t     => p t
  | .fault _    => false
  | .refused _  => false

/-- The computation of the reader yields a value and a state with the given property. -/
def yields (r : EStateM.Result Stop State Nat) (p : Nat → State → Bool) : Bool :=
  match r with
  | .ok v t    => p v t
  | .error _ _ => false

/-- The first `n` bytes of the output. -/
def output (t : State) (n : Nat) : List Byte := (List.range n).map (Memory.read t.OUTMEM)

/-- `P_REORDER_swap` of program D: exchange `ASSIGN[0x41]` and `ASSIGN[0x42]`. -/
def swapDirectory (d : Directory) : Directory :=
  { d with ASSIGN := (d.ASSIGN.setIfInBounds 0x41 (d.ASSIGN[0x42]'(by decide))).setIfInBounds 0x42 (d.ASSIGN[0x41]'(by decide)) }

/-- A TABLE_SWAP with a stated reorder function (program A uses the identity). -/
def swapBy (f : Directory → Directory) (s : State) : Host.Outcome State Fault Refusal := outcomeOf (tableSwapBy f) s

/-! ### WellFormed: for each check an ill-formed term that it refuses -/

/-- R120 (b): a base that is not the sum of the slots before it. -/
theorem test_table_wf_refuses_a_wrong_base :
    Config.tc.defaultTable.WF ∧ ¬{ Config.tc.defaultTable with base := Config.tc.defaultTable.base.set 1 17 }.WF := by
  decide +kernel

/-- R25: an assignment with a symbol twice. -/
theorem test_directory_wf_refuses_a_repeated_symbol :
    Config.tcDirectory.WF ∧ ¬{ Config.tcDirectory with ASSIGN := Config.tcDirectory.ASSIGN.set 1 0 }.WF := by
  decide +kernel

/-- R5: an output capacity of `2^32`. -/
theorem test_params_wf_refuses_a_large_output : Config.tc.WF ∧ ¬{ Config.tc with outCapacity := 2 ^ 32 }.WF := by
  decide +kernel

/-- R5, R102, R124: a table, or a distance's low part, wider than `P_MAX_CODE_LEN` allows (TC's are 5 and 8 at most). -/
theorem test_params_wf_refuses_wide_fields :
    Params.WF { Config.tc with maxCodeLen := 8 } ∧
    ¬Config.tc.defaultTable.LengthsFit { Config.tc with maxCodeLen := 4 } ∧
    ¬Params.WidthsFit { Config.tc with maxCodeLen := 7 } := by
  decide +kernel

/-- R85: a low part that does not fit its bits (under TC, `ds = 3` has 4). -/
theorem test_distance_wf_refuses_a_wide_low_part :
    DistanceFields.WF Config.tc { ds := 3, hi := 0xFF, lo := 15 } ∧
    ¬DistanceFields.WF Config.tc { ds := 3, hi := 0xFF, lo := 16 } := by
  decide +kernel

/-- R85: a length's extra bits that do not fit (under TC, 2). -/
theorem test_fields_fit_refuses_wide_extra_bits :
    StreamInstr.FieldsFit Config.tc 15 (.matchLong 0 3 { ds := 0, hi := 0, lo := 1 }) ∧
    ¬StreamInstr.FieldsFit Config.tc 15 (.matchLong 0 4 { ds := 0, hi := 0, lo := 1 }) ∧
    ¬StreamInstr.FieldsFit Config.tc 15 (.matchShort 0 { ds := 0, hi := 0, lo := 2 }) := by
  decide +kernel

/-- R124: a description with a length of 24 (TB5), and one with 25 (TB7). -/
theorem test_fields_fit_refuses_a_long_slot :
    StreamInstr.FieldsFit Config.tc 15 (.tableSwap #v[24, 0, 0, 0, 0, 0, 0, 0, 0, 0, 0, 0, 0, 0, 0, 0]) ∧
    ¬StreamInstr.FieldsFit Config.tc 15 (.tableSwap #v[20, 5, 0, 0, 0, 0, 0, 0, 0, 0, 0, 0, 0, 0, 0, 0]) := by
  decide +kernel

/-- R89, TB3: with every length 0 only the indices 0 to 15 have codes, so the symbol `0x41` has none. -/
theorem test_no_code_for_an_uncovered_symbol :
    CodedUnder (Table.ofLengths (Vector.replicate 16 0)) Config.tcDirectory 15 15 ∧
    ∀ sel, ¬CodedUnder (Table.ofLengths (Vector.replicate 16 0)) Config.tcDirectory 0x41 sel := by
  decide +kernel

theorem test_instruction_without_a_code_is_ill_formed :
    ¬StreamInstr.WF Config.tc (Table.ofLengths (Vector.replicate 16 0)) Config.tcDirectory (.lit 0x41) :=
  fun ⟨sel, h, _⟩ => test_no_code_for_an_uncovered_symbol.2 sel h

/-! ### Decoding words written out from the spec's encodings -/

/-- The symbols of opcode_table.json, bit by bit: `0bbbbbbbb`, `100000kkk`, `100001kkk`, `100010000`, `100010001`. -/
theorem test_table_words :
    decodeTableWord 9 0b001000001 = some (.lit 0x41) ∧ decodeTableWord 9 0b011111111 = some (.lit 0xFF) ∧
    decodeTableWord 9 0b100000101 = some (.matchShort 5) ∧ decodeTableWord 9 0b100001010 = some (.matchLong 2 8) ∧
    decodeTableWord 9 0b100010000 = some .tableSwap ∧ decodeTableWord 9 0b100010001 = some .endSegment ∧
    decodeTableWord 9 0b100010010 = none ∧ decodeTableWord 9 0b111111111 = none := by
  decide +kernel

/-- 95_test_vectors.md section 1, R80: codes under TC, with all the trailing fields. E1: `MATCH_SHORT 2 ; ds 0, hi 0, lo 1`;
BC5: `MATCH_LONG 0, lx 3`; TB1: the description of TC's table. -/
theorem test_stream_words :
    let decode := decodeStream Config.tc Config.tc.defaultTable Config.tcDirectory
    decode [true, true, true, true, false, false, false, true, false, false, false, false, false, false, false, false,
      false, false, false, false, true, false] = .ok (.matchShort 2 { ds := 0, hi := 0, lo := 1 }, [false]) ∧
    decode [true, true, true, true, false, true, false, false, false, true, true, false, false, false, false, false,
      false, false, false, false, false, false, true] = .ok (.matchLong 0 3 { ds := 0, hi := 0, lo := 1 }, []) ∧
    decode ([true, true, true, true, true, false, false, false, false] ++ [false, false, false, false, true] ++
      List.replicate 13 true ++ [false, true] ++ [true]) =
      .ok (.tableSwap #v[4, 0, 0, 0, 0, 0, 0, 0, 0, 0, 0, 0, 0, 0, 1, 0], []) := by
  decide +kernel

/-- Program A's swap and program C's match, encoded (R88, R90): `1111 10000 | 000000001 | 1 x15`,
`1111 00111 | 000 | 00000001 | 1`. -/
theorem test_encode :
    encode Config.tc Config.tc.defaultTable Config.tcDirectory
        (.tableSwap #v[8, 0, 0, 0, 0, 0, 0, 0, 0, 0, 0, 0, 0, 0, 0, 0]) =
      some ([true, true, true, true, true, false, false, false, false] ++ List.replicate 8 false ++
        List.replicate 16 true) ∧
    encode Config.tc Config.tc.defaultTable Config.tcDirectory (.matchShort 7 { ds := 0, hi := 1, lo := 1 }) =
      some [true, true, true, true, false, false, true, true, true, false, false, false, false, false, false, false,
        false, false, false, true, true] := by
  decide +kernel

/-- BC1 to BC3: the distance arithmetic of R194. -/
theorem test_distance_arithmetic :
    distanceOf Config.tc 0 0 1 = 1 ∧ distanceOf Config.tc 7 1 2 = 3842 ∧ distanceOf Config.tc 3 0xFF 15 = 5631 := by
  decide +kernel

/-! ### The instructions, one step each -/

/-- DL1: a literal. -/
theorem test_lit : answers (step (call true [0x41, 0x42, 0x43] 3)) fun t =>
    t.WO == 1 && output t 2 == [0x41, 0] && t.ITER == 1 && t.DIR.FREQ[0x41] == 1 && t.POS == 1 && t.V == 0 := by
  decide +kernel

/-- DL3, program E: a literal whose offset is cut off, in lenient and in strict mode. -/
theorem test_lit_truncated :
    (answers (step (call true [0xE5] 1)) fun t => t.WO == 1 && output t 1 == [0xE0] && t.SOFT) ∧
    (answers (step (call false [0xE5] 1)) fun t =>
      t.ESTATE == .error && t.COND == .prematureEOF && t.INFO == 1 && t.WO == 0 && t.SOFT && t.DIR.FREQ[0xE0] == 0) := by
  decide +kernel

/-- E1 and BC4a: overlapping copies. The match `F1 00 08` of E1 (`n 6`, `dist 1`) after `AB`; and, written out for
`n 5`, `dist 2`: `1111 00001 | 000 | 00000001 | 0`, bytes `F0 80 10`. -/
theorem test_matchShort_overlaps :
    (answers (step (written (call true [0xF1, 0x00, 0x08] 7) [0xAB])) fun t =>
      t.WO == 7 && output t 8 == [0xAB, 0xAB, 0xAB, 0xAB, 0xAB, 0xAB, 0xAB, 0] && t.ESTATE == .decoding) ∧
    (answers (step (written (call true [0xF0, 0x80, 0x10] 9) [1, 2])) fun t =>
      t.WO == 7 && output t 8 == [1, 2, 1, 2, 1, 2, 1, 0]) := by
  decide +kernel

/-- BC7 and BC8: a source before the output, and a zero distance. -/
theorem test_matchShort_out_of_range :
    (answers (step (written (call true [0xF0, 0x00, 0x10] 4) [0x41])) fun t =>
      t.ESTATE == .error && t.COND == .backRefOutOfRange && t.INFO == 0xFFFFFFFF && t.WO == 1) ∧
    (answers (step (written (call true [0xF0, 0x00, 0x00] 4) [0x41])) fun t =>
      t.COND == .backRefOutOfRange && t.INFO == 1 && t.WO == 1) := by
  decide +kernel

/-- BC5: a long match meets a full output: 9 of its 15 bytes fit. -/
theorem test_matchLong_exhausts_the_output :
    answers (step (written (call true [0xF4, 0x60, 0x02] 10) [0x61])) fun t =>
      t.ESTATE == .error && t.COND == .outputBufferExhausted && t.INFO == 6 && t.WO == 10 &&
      output t 11 == List.replicate 10 0x61 ++ [0] := by
  decide +kernel

/-- BC6 and BC6': with `P_LENGTH_TABLE[i] = (0, i)` the length is `4 + sel` under SELECTOR and `4 + k` under SYMBOL_OFFSET. -/
theorem test_matchLong_length_index :
    (answers (step
        { written (call true [0xF4, 0x00, 0x08] 20) [0x61] with
          params := { Config.tc with
            lengthTable := .selector (Vector.ofFn fun i => { extraBits := 0, base := Fin.ofNat (2 ^ 31) i.val }) } }) fun t =>
      t.WO == 20 && output t 21 == List.replicate 20 0x61 ++ [0]) ∧
    (answers (step
        { written (call true [0xF4, 0x00, 0x08] 20) [0x61] with
          params := { Config.tc with
            lengthTable := .symbolOffset (Vector.ofFn fun i => { extraBits := 0, base := Fin.ofNat (2 ^ 31) i.val }) } }) fun t =>
      t.WO == 5 && output t 6 == List.replicate 5 0x61 ++ [0]) := by
  decide +kernel

/-- TB2, program A: every slot 8; TB4: the ABSOLUTE coding of TC's table (`00001` x14, `000001` x2). The identity reorder. -/
theorem test_tableSwap_builds_the_table :
    (answers (swapBy id (call true [0x00, 0xFF, 0xFF] 6)) fun t =>
      t.T == Table.ofLengths (Vector.replicate 16 8) && t.POS == 3 && t.V == 0 && t.ESTATE == .decoding) ∧
    (answers (swapBy id
        { call true [0x08, 0x42, 0x10, 0x84, 0x21, 0x08, 0x42, 0x10, 0x84, 0x10, 0x40] 2 with
          params := { Config.tc with lenCoding := .absolute } }) fun t =>
      t.T == Config.tc.defaultTable) := by
  decide +kernel

/-- TB7, TB8: a slot length of 25, and a source that ends inside a group, in lenient mode. -/
theorem test_tableSwap_faults :
    (answers (swapBy swapDirectory (call true [0x00, 0x00, 0x08, 0x00] 4)) fun t =>
      t.ESTATE == .error && t.COND == .tableFormatFault && t.INFO == 1 && t.T == Config.tc.defaultTable &&
      t.DIR.ASSIGN[0x41] == 0x42) ∧
    (answers (swapBy id (call true [0x04] 4)) fun t =>
      t.ESTATE == .error && t.COND == .prematureEOF && t.INFO == 4 && t.SOFT && t.T == Config.tc.defaultTable) := by
  decide +kernel

/-- Program B: `END` with three source bytes left is a boundary. -/
theorem test_endSegment_boundary :
    answers (step (written (call true [0xF8, 0x80, 0x42, 0x43, 0x44] 4) [0x41])) fun t =>
      t.ESTATE == .decoding && t.POS == 2 && t.V == 0 && t.WO == 1 && t.DIR.FREQ[0x111] == 1 := by
  decide +kernel

/-- DL7: `END` with two source bytes left ends the stream. -/
theorem test_endSegment_desync :
    answers (step (written (call true [0xF8, 0x80, 0x42, 0x43] 4) [0x41])) fun t =>
      t.ESTATE == .done && t.COND == .streamDesyncAtEnd && t.INFO == 3 && t.sourceLeft == 2 := by
  decide +kernel

/-! ### The reader, the conditions and the host -/

/-- BR5, BR6, BR10: a read over a byte boundary, and an underflow that drains or keeps the staged bits. -/
theorem test_read :
    (yields (read 12 (call true [0xA5, 0x3C] 1)) fun v t => v == 0xA53 && t.POS == 2 && t.V == 4) ∧
    (yields (read 17 { call true [0xA5, 0x3C] 1 with POS := 2, V := 4, S := 0xA53C }) fun v t =>
      v == 0 && t.POS == 2 && t.V == 0 && t.SOFT) ∧
    (yields (read 8
        { call true [0xA5] 1 with
          POS := 1, V := 4, S := 0xA5, params := { Config.tc with underflowDrain := false } }) fun v t =>
      v == 0 && t.V == 4 && t.SOFT) := by
  decide +kernel

/-- EX1: the first illegal index. -/
theorem test_out_of_sync : answers (step (call true [0xF9, 0x00] 4)) fun t =>
    t.ESTATE == .error && t.COND == .outOfSyncSymbol && t.INFO == 0x112 && t.WO == 0 := by
  decide +kernel

/-- E4, DL4: the loop top. -/
theorem test_loop_top :
    (answers (step (call true [0x41] 0)) fun t => t.ESTATE == .done && t.COND == .none && t.sourceLeft == 1 && t.ITER == 0) ∧
    (answers (step (written { call true [0x41] 2 with POS := 1 } [0x41])) fun t =>
      t.ESTATE == .error && t.COND == .prematureEOF && t.INFO == 1) := by
  decide +kernel

/-- EX11 at its third iteration: a cap of 2. -/
theorem test_iteration_cap :
    answers (step
        { written (call true [0x41, 0x42, 0x43] 3) [0x41, 0x42] with
          POS := 2, ITER := 2, params := { Config.tc with iterCap := some { listed := [], scale := 0, offset := 2 } } }) fun t =>
      t.ESTATE == .error && t.COND == .iterationCapExceeded && t.INFO == 2 && t.WO == 2 && t.sourceLeft == 1 := by
  decide +kernel

/-- R222 at the edge of 32 bits: the last count that `INFO` can hold is recorded; the next one ends the call all the same. -/
theorem test_iteration_cap_at_32_bits :
    let capped (n : Nat) : State :=
      { call true [0x41] 1 with
        ITER := n, params := { Config.tc with iterCap := some { listed := [], scale := 0, offset := 4294967295 } } }
    (answers (step (capped 4294967295)) fun t => t.COND == .iterationCapExceeded && t.INFO == 0xFFFFFFFF) ∧
    (answers (step (capped 4294967296)) fun t => t.ESTATE == .error && t.COND == .iterationCapExceeded) := by
  decide +kernel

/-- EX8 and EX10: a truncated match in lenient mode, with draining underflows and without. -/
theorem test_lenient_truncated_match :
    (answers (step (call true [0xF8] 3)) fun t => t.COND == .backRefOutOfRange && t.INFO == 0 && t.SOFT && t.V == 0) ∧
    (answers (step { call true [0xF8] 3 with params := { Config.tc with underflowDrain := false } }) fun t =>
      t.COND == .backRefOutOfRange && t.INFO == 0xFFFFF800 && t.SOFT && t.V == 1) := by
  decide +kernel

/-- EX7, EX7': START with a range that does not fit. -/
theorem test_config_fault :
    (answers (hostTurn (.writeReg 0 4 3)
        { State.reset with params := Config.tc, SRC_OFFSET := 4094, SRC_LENGTH := 4, UNPACKED_LENGTH := 3 }) fun t =>
      t.ESTATE == .error && t.COND == .configFault && t.INFO == 1 && t.srcLeft == 4) ∧
    (answers (hostTurn (.writeReg 0 4 3) { State.reset with params := Config.tc, UNPACKED_LENGTH := 5000 }) fun t =>
      t.COND == .configFault && t.INFO == 2) := by
  decide +kernel

/-- HR1, R32: what STATUS reads as after reset and after EX1's end (STATE 3, COND 1). -/
theorem test_status_word :
    (answers (hostTurn (.readReg 4 4) State.reset) fun t => t.lastRead == 0) ∧
    (answers (hostTurn (.readReg 4 4) ((call true [] 0).endCall .outOfSyncSymbol 0x112 .error)) fun t =>
      t.lastRead == 0x13) := by
  decide +kernel

/-! ### Witnesses: for every statement of Certificates/Slice0/Obligations.lean that has hypotheses, a state and operands that
meet them together, clause by clause, at a boundary value where the clause has a range -/

theorem witness_SymbolClassesAreTheOpcodeTable :
    (0x0FF &&& 0x100 : Symbol) = 0x000 ∧ (0x100 &&& 0x1F8 : Symbol) = 0x100 ∧ (0x107 &&& 0x1F8 : Symbol) = 0x100 ∧
    (0x108 &&& 0x1F8 : Symbol) = 0x108 ∧ (0x10F &&& 0x1F8 : Symbol) = 0x108 ∧ (0x110 &&& 0x1FF : Symbol) = 0x110 ∧
    (0x111 &&& 0x1FF : Symbol) = 0x111 := by
  decide

/-- TC's tables are well-formed, and code the instructions of every class. -/
theorem witness_DecodeOfEncode :
    Config.tc.defaultTable.WF ∧ Config.tcDirectory.WF ∧
    StreamInstr.WF Config.tc Config.tc.defaultTable Config.tcDirectory (.lit 0xFF) ∧
    StreamInstr.WF Config.tc Config.tc.defaultTable Config.tcDirectory (.matchShort 7 { ds := 7, hi := 0xFF, lo := 255 }) ∧
    StreamInstr.WF Config.tc Config.tc.defaultTable Config.tcDirectory (.matchLong 7 3 { ds := 0, hi := 0, lo := 1 }) ∧
    StreamInstr.WF Config.tc Config.tc.defaultTable Config.tcDirectory (.tableSwap (Vector.replicate 16 1)) ∧
    StreamInstr.WF Config.tc Config.tc.defaultTable Config.tcDirectory .endSegment :=
  ⟨by decide +kernel, by decide +kernel, ⟨14, by decide +kernel⟩, ⟨15, by decide +kernel⟩, ⟨15, by decide +kernel⟩,
    ⟨15, by decide +kernel⟩, ⟨15, by decide +kernel⟩⟩

theorem witness_EncodeOfDecode :
    Config.tc.defaultTable.WF ∧ Config.tcDirectory.WF ∧
    decodeStream Config.tc Config.tc.defaultTable Config.tcDirectory
      [false, true, false, false, false, false, false, true, true] = .ok (.lit 0x41, [true]) := by
  decide +kernel

/-- The last index that TC's table covers (`256 + 2^5 - 1`), and the first that it does not. -/
theorem witness_SlotsPartitionTheIndices :
    Config.tc.defaultTable.WF ∧ Config.tc.defaultTable.Covers 15 287 ∧ ∀ sel, ¬Config.tc.defaultTable.Covers sel 288 := by
  decide +kernel

theorem witness_DistanceIsOneNumber : DistanceFields.WF Config.tc { ds := 7, hi := 0xFF, lo := 255 } := by decide +kernel

/-- 24 bits from bit 4 on end exactly at the source's end; 24 from bit 5 on pass it. -/
theorem witness_ReadFollowsTheAbstractCursor :
    let s := { call true [0xA5, 0x3C, 0x7E, 0x81] 1 with POS := 1, V := 4, S := 0xA5 }
    let u := { call true [0xA5, 0x3C, 0x7E, 0x81] 1 with POS := 2, V := 7, S := 0xA53C }
    (s.Readable ∧ s.StagedFromSource ∧ s.POS ≤ s.END ∧ s.cursor + 24 ≤ 8 * s.END ∧ s.cursor = 4) ∧
    (u.Readable ∧ u.StagedFromSource ∧ u.POS ≤ u.END ∧ 8 * u.END < u.cursor + 24 ∧ u.params.underflowDrain = true) := by
  decide +kernel

theorem witness_LenientDistanceGoesOn :
    let s := call true [0x00] 1
    s.Readable ∧ s.LEN = true ∧ s.params.underflowDrain = true ∧
    decodeDistance s.params s.unread = .error .truncated := by
  decide +kernel

/-- A configuration of a host before START, with a source of one byte. -/
def configured (srcOffset srcLength ul : Word) : State :=
  { State.reset with params := Config.tc, SRC_OFFSET := srcOffset, SRC_LENGTH := srcLength, UNPACKED_LENGTH := ul }

/-- The ranges at their last admitted value, and one past it; and a busy machine. -/
theorem witness_StartBeginsACall :
    let fits (s : State) := s.busy = false ∧ s.params.WF ∧
      ¬s.params.srcSize < s.SRC_OFFSET.toNat + s.SRC_LENGTH.toNat ∧ ¬s.params.outCapacity < s.UNPACKED_LENGTH.toNat
    (1 : Word).getLsbD 0 = true ∧ fits (configured 4092 4 4096) ∧
    ((configured 4093 4 4096).busy = false ∧ (configured 4093 4 4096).params.srcSize < 4093 + 4) ∧
    ((configured 4092 4 4097).busy = false ∧ (configured 4092 4 4097).params.outCapacity < 4097) ∧
    ((call true [0x41] 1).busy = true ∧ (call true [0x41] 1).params.WF) := by
  decide +kernel

theorem witness_CtrlWriteWithoutStart : (0xFFFFFFFE : Word).getLsbD 0 = false := by decide

theorem witness_StartNeedsValidConstants :
    let s := { configured 0 0 0 with params := { Config.tc with outCapacity := 2 ^ 32 } }
    ¬s.params.WF ∧ (1 : Word).getLsbD 0 = true ∧ s.busy = false := by
  decide +kernel

/-- A machine after reset and one that has run a call to its end. -/
theorem witness_StartForgetsThePreviousCall :
    let s₁ := configured 0 1 2
    let s₂ := { s₁ with POS := 1, S := 0x41, V := 3, WO := 1, SOFT := true, ESTATE := .error, COND := .prematureEOF, INFO := 1 }
    s₁.busy = false ∧ s₂.busy = false ∧ s₁.params = s₂.params ∧ s₁.OUTMEM = s₂.OUTMEM := by
  decide +kernel

theorem witness_RegistersReadTheirValues :
    State.reset.busy = false ∧ ((call true [0x41] 1).endCall .prematureEOF 1 .error).busy = false := by
  decide +kernel

/-- Two calls at different points; a register read and a read of the output both answer. -/
theorem witness_BusyReadsRevealNothing :
    let s₁ := call true [0x41, 0x42] 2
    let s₂ := written { s₁ with POS := 1, SOFT := true } [0x41]
    s₁.busy = true ∧ s₂.busy = true ∧ s₁.draws = s₂.draws ∧ s₁.UNPACKED_LENGTH = s₂.UNPACKED_LENGTH ∧
    (answers (hostTurn (.readReg 0x04 4) s₁) fun _ => true) ∧ (answers (hostTurn (.readReg 0x3C 4) s₂) fun _ => true) ∧
    (answers (hostTurn (.readOut 4095) s₁) fun _ => true) ∧ (answers (hostTurn (.readOut 4095) s₂) fun _ => true) := by
  decide +kernel

theorem witness_InputRegistersAreStored :
    State.reset.busy = false ∧ (1 : Word).getLsbD 0 = true ∧ (configured 0 1 2).busy = false ∧ (configured 0 1 2).params.WF := by
  decide +kernel

theorem witness_ReadOnlyRegistersIgnoreWrites :
    0x1C ∈ [0x04, 0x14, 0x18, 0x1C] ∧ (0x20 ≤ 0x3C ∧ 0x3C < 0x40 ∧ 0x3C % 4 = 0) := by decide

theorem witness_OtherRegisterAccessesAreRefused : ((2 : Nat) ≠ 4 ∨ 0x08 % 4 ≠ 0) ∧ ((4 : Nat) ≠ 4 ∨ 0x0A % 4 ≠ 0) := by decide

/-- The last byte of a busy call's source range and the first after it; the same of its output range. -/
theorem witness_HostMemoryWrites :
    let s := call true [0x41, 0x42] 3
    Memory.wf s.SRCMEM ∧ Memory.wf s.OUTMEM ∧ 4095 < s.params.srcSize ∧ 4095 < s.params.outCapacity ∧
    (s.busy = true ∧ s.OFF ≤ 1 ∧ 1 < s.OFF + s.END) ∧ ¬(s.busy = true ∧ s.OFF ≤ 2 ∧ 2 < s.OFF + s.END) ∧
    (s.busy = true ∧ 2 < s.UL) ∧ ¬(s.busy = true ∧ 3 < s.UL) := by
  decide +kernel

theorem witness_HostReadsTheOutput : (configured 0 0 0).busy = false ∧ 4095 < (configured 0 0 0).params.outCapacity := by
  decide +kernel

theorem witness_HardwareResetKeepsTheMemories :
    State.reset.busy = false ∧ ((call true [0x41] 3).busy = true ∧ (call true [0x41] 3).UL ≤ 3) := by
  decide +kernel

/-- HR4, HR5: a START bit and a write of an input to a busy machine; and a memory write outside its ranges. -/
theorem witness_HostCannotTouchARunningCall :
    let s := call true [0x41, 0x42] 3
    s.busy = true ∧ (answers (hostTurn (.writeReg 0 4 3) s) fun t => t.UL == 3) ∧
    (answers (hostTurn (.writeReg 0x10 4 9) s) fun t => t.UL == 3) ∧ (answers (hostTurn (.writeOut 3 9) s) fun _ => true) := by
  decide +kernel

/-- One code of each class ahead. -/
theorem witness_StepRunsTheDecodedInstruction :
    let ready (s : State) (i : Instr) (n : Nat) := s.nextTurn = .engine ∧ s.ESTATE = .decoding ∧ s.WO ≠ s.UL ∧ s.capReached = false ∧ s.Readable ∧
      decodeInstr s.T s.DIR s.unread = .ok (i, s.unread.drop n)
    ready (call true [0x41] 1) (.lit 0x41) 8 ∧ ready (call true [0xF3, 0x80] 1) (.matchShort 7) 9 ∧
    ready (call true [0xF7, 0x80] 1) (.matchLong 7 15) 9 ∧ ready (call true [0xF8, 0x00] 1) .tableSwap 9 ∧
    ready (call true [0xF8, 0x80] 1) .endSegment 9 := by
  decide +kernel

/-- An engine turn with a host turn still to come, and a host turn first. -/
theorem test_turns :
    let s := call true [0x41] 1
    (answers (step { s with agenda := [.engine, .host (.readOut 0)] }) fun t =>
      t.WO == 1 && t.agenda == [.host (.readOut 0)]) ∧
    (answers (step { s with agenda := [.host (.writeReg 0x10 4 9), .engine] }) fun t =>
      t.WO == 0 && t.UNPACKED_LENGTH == 9 && t.agenda == [.engine]) := by
  decide +kernel

theorem witness_RecordUseCountsTheSymbol :
    (0x111 : Symbol).toNat < nsym ∧ (call true [0xF8, 0x80] 1).Readable ∧
    decodeInstr Config.tc.defaultTable Config.tcDirectory (call true [0xF8, 0x80] 1).unread =
      .ok (.endSegment, List.replicate 7 false) := by
  decide +kernel

theorem witness_LoopTopEndsTheCall :
    let s := call true [] 0
    let u := call true [] 1
    (s.nextTurn = .engine ∧ s.ESTATE = .decoding ∧ s.WO = s.UL) ∧
    (u.nextTurn = .engine ∧ u.ESTATE = .decoding ∧ u.WO ≠ u.UL ∧ u.V = 0 ∧ u.POS = u.END) := by
  decide +kernel

/-- EX11's constant cap of 2, met at 2 and not at 1; the whole-call form of EX11 at its last step. -/
theorem witness_IterationCapEndsTheCall :
    let cap : IterCap := { listed := [], scale := 0, offset := 2 }
    let s := { call true [0x41, 0x42, 0x43] 3 with ITER := 2, params := { Config.tc with iterCap := some cap } }
    let u := { s with ITER := 1 }
    s.WO ≠ s.UL ∧ ¬(s.V = 0 ∧ s.POS = s.END) ∧ s.params.iterCap = some cap ∧ cap.limit s.UL ≤ s.ITER ∧
    s.nextTurn = .engine ∧ s.ESTATE = .decoding ∧ s.ITER < 2 ^ 32 ∧ u.ITER < cap.limit u.UL ∧
    (call true [0x41] 1).params.iterCap = none := by
  decide +kernel

theorem witness_IllegalIndexEndsTheCall :
    let s := call true [0xF9, 0x00] 4
    s.nextTurn = .engine ∧ s.ESTATE = .decoding ∧ s.WO ≠ s.UL ∧ s.capReached = false ∧ s.Readable ∧
    decodeInstr s.T s.DIR s.unread = .error (.outOfSync 0x112 (List.replicate 7 false)) ∧ s.V ≤ 7 ∧ s.DIR.WF := by
  decide +kernel

theorem witness_StrictTruncatedCodeEndsTheCall :
    let s := call false [0xF8] 3
    s.nextTurn = .engine ∧ s.ESTATE = .decoding ∧ s.WO ≠ s.UL ∧ s.capReached = false ∧ s.Readable ∧ s.LEN = false ∧
    decodeInstr s.T s.DIR s.unread = .error .truncated ∧ s.unread ≠ [] := by
  decide +kernel

/-- EX8: the zeros decode to MATCH_SHORT 0. The same bits under a table whose slot 15 begins at `0x112` or above. -/
theorem witness_LenientTruncatedCodeGoesOn :
    let s := call true [0xF8] 3
    let u := { s with T := Table.ofLengths (Vector.replicate 16 5) }
    let v := { s with T := Table.ofLengths (Vector.replicate 16 8) }
    s.nextTurn = .engine ∧ s.ESTATE = .decoding ∧ s.WO ≠ s.UL ∧ s.capReached = false ∧ s.Readable ∧ s.LEN = true ∧
    s.unread ≠ [] ∧ decodeInstr s.T s.DIR s.unread = .error .truncated ∧
    (lenientTake true 4 s.unread).1 = 15 ∧ lenientTake true (s.T.lenAt 15) (lenientTake true 4 s.unread).2 = (0, []) ∧
    decodeSymbol (s.DIR.ASSIGN[256]'(by decide)) 15 = .ok (.matchShort 0) ∧
    (u.T.lenAt 15 = 5 ∧ u.T.baseAt 15 = 480 ∧ nsym ≤ u.T.baseAt 15) ∧
    (v.T.lenAt 15 = 8 ∧ nsym ≤ v.T.baseAt 15) := by
  decide +kernel

theorem witness_IdleEngineDoesNothing : State.reset.nextTurn = .engine ∧ State.reset.ESTATE = .idle := ⟨rfl, rfl⟩

theorem witness_LitAppendsItsByte :
    let s := written (call true [] 2) [0x41]
    Memory.wf s.OUTMEM ∧ s.WO ≠ s.UL ∧ s.WO < s.params.outCapacity := by
  decide +kernel

theorem witness_LitOnAFullOutput : (written (call true [] 1) [0x41]).WO = (written (call true [] 1) [0x41]).UL := by
  decide +kernel

/-- E1's distance fields `ds 0, hi 0, lo 1`. -/
def near : DistanceFields := { ds := 0, hi := 0, lo := 1 }

/-- E1: a match that ends exactly at the declared length, its distance the shortest. -/
theorem witness_MatchShortCopies :
    let s := written (call true [0x00, 0x10] 12) [0xAB]
    s.Readable ∧ Memory.wf s.OUTMEM ∧ near.WF s.params ∧
    s.unread = encodeDistance s.params near ++ [false, false, false, false] ∧
    1 ≤ fieldsDistance s.params near ∧ fieldsDistance s.params near ≤ s.WO ∧ s.WO + (4 + (7 : BitVec 3).toNat) ≤ s.UL ∧
    s.UL ≤ s.params.outCapacity := by
  decide +kernel

/-- BC5's fields `lx 3 ; ds 0, hi 0, lo 1`, with room for the 15 bytes. -/
theorem witness_MatchLongCopies :
    let s := written (call true [0xC0, 0x04] 16) [0x61]
    let e := s.params.lengthTable.entry 0 15
    s.Readable ∧ Memory.wf s.OUTMEM ∧ 3 < 2 ^ e.extraBits.val ∧ near.WF s.params ∧
    s.unread = bitsOf e.extraBits.val 3 ++ encodeDistance s.params near ++ [false, false] ∧
    1 ≤ fieldsDistance s.params near ∧ fieldsDistance s.params near ≤ s.WO ∧ s.WO + (4 + (e.base.val + 3)) ≤ s.UL ∧
    s.UL ≤ s.params.outCapacity := by
  decide +kernel

/-- BC7 and BC8: a distance one above the write offset, and a distance of 0, after a short and a long symbol. -/
theorem witness_MatchOutOfRangeFaults :
    let far : DistanceFields := { ds := 0, hi := 1, lo := 0 }
    let zero : DistanceFields := { ds := 0, hi := 0, lo := 0 }
    let s := written (call true [0x00, 0x20] 4) [0x41]
    let u := written (call true [0x00, 0x00] 4) [0x41]
    let e := s.params.lengthTable.entry 0 15
    (s.Readable ∧ far.WF s.params ∧ s.WO < fieldsDistance s.params far ∧
      s.unread = encodeDistance s.params far ++ [false, false, false, false]) ∧
    (u.Readable ∧ zero.WF u.params ∧ fieldsDistance u.params zero = 0 ∧
      u.unread = encodeDistance u.params zero ++ [false, false, false, false]) ∧
    (0 < 2 ^ e.extraBits.val ∧
      u.unread = bitsOf e.extraBits.val 0 ++ encodeDistance u.params zero ++ [false, false]) := by
  decide +kernel

/-- BC5, and a short match that is one byte too long. -/
theorem witness_MatchExhaustsTheOutput :
    let s := written (call true [0x00, 0x10] 4) [0xAB]
    let u := written (call true [0xC0, 0x04] 10) [0x61]
    let e := u.params.lengthTable.entry 0 15
    (s.Readable ∧ Memory.wf s.OUTMEM ∧ near.WF s.params ∧ 1 ≤ fieldsDistance s.params near ∧
      fieldsDistance s.params near ≤ s.WO ∧ s.WO ≤ s.UL ∧ s.UL ≤ s.params.outCapacity ∧
      s.UL < s.WO + (4 + (0 : BitVec 3).toNat) ∧
      s.unread = encodeDistance s.params near ++ [false, false, false, false]) ∧
    (u.Readable ∧ Memory.wf u.OUTMEM ∧ u.WO ≤ u.UL ∧ u.UL < u.WO + (4 + (e.base.val + 3)) ∧ 3 < 2 ^ e.extraBits.val ∧
      u.unread = bitsOf e.extraBits.val 3 ++ encodeDistance u.params near ++ [false, false]) := by
  decide +kernel

/-- A source that ends inside the distance fields, before the extra bits, and between the two. -/
theorem witness_StrictTruncatedMatchEndsTheCall :
    let s := call false [0x00] 4
    let u := call false [] 4
    let e := s.params.lengthTable.entry 0 15
    (s.Readable ∧ s.LEN = false ∧ decodeDistance s.params s.unread = .error .truncated) ∧
    (u.Readable ∧ u.LEN = false ∧ takeBits e.extraBits.val u.unread = none) ∧
    (takeBits e.extraBits.val s.unread = some (0, List.replicate 6 false) ∧
      decodeDistance s.params (List.replicate 6 false) = .error .truncated) := by
  decide +kernel

/-- A lenient match with no field bit ahead, with draining underflows (EX8) and without (EX10). -/
theorem witness_LenientMatchesGoOn :
    let s := written (call true [] 9) [0xAB]
    let u := { s with params := { Config.tc with underflowDrain := false } }
    (s.Readable ∧ s.LEN = true ∧ Memory.wf s.OUTMEM ∧ s.WO ≤ s.UL ∧ s.UL ≤ s.params.outCapacity ∧
      takeBits (s.params.lengthTable.entry 0 15).extraBits.val s.unread = none) ∧
    (u.Readable ∧ u.LEN = true ∧ Memory.wf u.OUTMEM ∧ u.WO ≤ u.UL ∧ u.UL ≤ u.params.outCapacity) := by
  decide +kernel

/-- TB2, and TB5, whose slot lengths are all 24. -/
theorem witness_TableSwapInstallsTheTable :
    let s := call true [0x00, 0xFF, 0xFF] 6
    let u := call true [0x00, 0x00, 0x00, 0xFF, 0xFF] 6
    let tb2 : Vector Nat 16 := #v[8, 0, 0, 0, 0, 0, 0, 0, 0, 0, 0, 0, 0, 0, 0, 0]
    let tb5 : Vector Nat 16 := #v[24, 0, 0, 0, 0, 0, 0, 0, 0, 0, 0, 0, 0, 0, 0, 0]
    (s.Readable ∧ GroupsFit s.params tb2.toList ∧ s.unread = encodeGroups tb2.toList ++ []) ∧
    (u.Readable ∧ GroupsFit u.params tb5.toList ∧ u.unread = encodeGroups tb5.toList ++ []) := by
  decide +kernel

/-- TB6, TB7, TB8. -/
theorem witness_TableSwapFaults :
    let s := call true [0x00, 0x00, 0x00, 0x00] 4
    let u := call true [0x00, 0x00, 0x08, 0x00] 4
    let v := call true [0x04] 4
    (s.Readable ∧ s.V ≤ 7 ∧ s.params.underflowDrain = true ∧ decodeGroups s.params 16 0 0 s.unread = .error (.tableFormat 0 (List.replicate 7 false))) ∧
    (u.Readable ∧ decodeGroups u.params 16 0 0 u.unread = .error (.tableFormat 1 (List.replicate 6 false))) ∧
    (v.Readable ∧ decodeGroups v.params 16 0 0 v.unread = .error .truncated) := by
  decide +kernel

/-- Three bytes left, two bytes left, and a full output. -/
theorem witness_EndSegmentRealignsOrEnds :
    let s := call true [0x42, 0x43, 0x44] 4
    let u := call true [0x42, 0x43] 4
    let v := call true [0x42, 0x43] 0
    (s.END - s.POS > s.params.segmentThreshold ∧ s.WO < s.UL) ∧
    (¬(u.END - u.POS > u.params.segmentThreshold) ∧ u.WO < u.UL) ∧ ¬v.WO < v.UL := by
  decide +kernel

/-- Every instruction answers a next state somewhere (TABLE_SWAP's reorder is uninterpreted, so that nothing but the answer is
tested of it here). -/
theorem witness_frames :
    (answers (exec (.lit 0x41) (call true [] 1)) fun t => t.WO == 1) ∧
    (answers (exec (.matchShort 0) (written (call true [0x00, 0x10] 9) [0xAB])) fun t => t.ESTATE == .decoding) ∧
    (answers (exec (.matchLong 0 15) (written (call true [0xC0, 0x04] 16) [0x61])) fun t => t.ESTATE == .decoding) ∧
    (answers (exec (.matchLong 0 15) (call false [] 16)) fun t => t.ESTATE == .error) ∧
    (answers (exec .tableSwap (call true [0x00, 0xFF, 0xFF] 6)) fun t => t.ESTATE == .decoding) ∧
    (answers (exec .tableSwap (call true [0x04] 6)) fun t => t.ESTATE == .error) ∧
    (answers (exec .endSegment (call true [0x42, 0x43, 0x44] 4)) fun t => t.ESTATE == .decoding) ∧
    (answers (exec .endSegment (call true [0x42, 0x43] 4)) fun t => t.ESTATE == .done) := by
  decide +kernel

/-- The length that MatchFrame speaks of, when the extra bits are there and when strict mode misses them. -/
theorem witness_MatchFrame :
    (yields (longLength 0 15 ((call true [0xC0, 0x04] 16).withEState .backReference)) fun n _ => n == 15) ∧
    ¬(yields (longLength 0 15 ((call false [] 16).withEState .backReference)) fun _ _ => true) := by
  decide +kernel

/-- The symbol decode answers an instruction, and the loop top ends a call. -/
theorem witness_OnlyTableSwapChangesTheTables :
    (match nextInstr (call true [] 0) with
      | .error .callEnded _ => true
      | _                   => false) = true ∧
    (match nextInstr (call true [0x41] 1) with
      | .ok i _    => i == .lit 0x41
      | .error _ _ => false) = true ∧ (Instr.lit 0x41 ≠ .tableSwap) := by
  decide +kernel

/-- A call that has just been started meets the invariant, and its step answers. -/
theorem witness_inv : (call true [0x41, 0xF8, 0x80] 3).Inv where
  params     := by decide +kernel
  registers  := by decide +kernel
  memories   := by decide +kernel
  table      := by decide +kernel
  lengths    := by decide +kernel
  directory  := by decide +kernel
  staged     := by decide +kernel
  boundary   := by decide +kernel
  condition  := by decide +kernel
  admitted   := by decide +kernel
  fromSource := by decide +kernel

theorem witness_EveryStepKeepsTheInvariant :
    (call true [0x41, 0xF8, 0x80] 3).nextTurn = .engine ∧
    (answers (step (call true [0x41, 0xF8, 0x80] 3)) fun t => t.WO == 1) ∧
    (answers (step { call true [0x41, 0xF8, 0x80] 3 with agenda := [.host .hardReset] }) fun t => t.ESTATE == .idle) := by
  decide +kernel

theorem witness_CallIgnoresOldOutput :
    let s := written (call true [0xF1, 0x00, 0x08] 7) [0xAB]
    let m : List Host.Cell := [(0, 0xAB), (1, 0x55), (6, 0x66)]
    s.nextTurn = .engine ∧ Memory.wf m ∧ Memory.wf s.OUTMEM ∧ (∀ p < s.WO, Memory.read m p = Memory.read s.OUTMEM p) ∧
    (answers (step s) fun t => t.WO == 7) := by
  decide +kernel

theorem witness_EveryCallEnds :
    let s := call true [0x41, 0xF8, 0x80] 3
    (∀ turn ∈ s.agenda, turn = .engine) ∧ s.params.underflowDrain = true ∧ s.ESTATE = .decoding ∧ s.POS = 0 ∧ s.V = 0 ∧
    s.WO = 0 ∧ s.ITER = 0 := by
  decide +kernel

end Sys2Proof.Machine.Tests
end

section
/-! The form of `P_ITER_CAP` (R5, R170; log 26). -/
namespace Sys2Proof

/-- The cap that lists the value of `f` at every `UL` below `n`. The bound is a variable, so that no proof evaluates a list of
2^32 entries. -/
def IterCap.tabulate (f : Nat → Nat) (n : Nat) : IterCap where
  listed := (List.range n).map fun ul => (ul, f ul)
  scale  := 0
  offset := 0

theorem IterCap.limit_of_lookup {c : IterCap} {ul v : Nat} (h : c.listed.lookup ul = some v) : c.limit ul = v := by
  rw [IterCap.limit, h, Option.getD_some]

theorem IterCap.limit_tabulate (f : Nat → Nat) {n ul : Nat} (h : ul < n) : (IterCap.tabulate f n).limit ul = f ul :=
  IterCap.limit_of_lookup (List.lookup_graph f (List.mem_range.mpr h))

/-- Settles O56: the cap that lists `f` at every 32-bit `UL` has the limit `f ul` there. -/
theorem everyCapFunctionHasACap : Obligations.EveryCapFunctionHasACap := by
  intro f
  exact ⟨IterCap.tabulate f (2 ^ 32), fun _ h => IterCap.limit_tabulate f h⟩

end Sys2Proof
end

section
/-! The host's turns: what an aligned register access does, what START makes of the state, and everything a turn of the host can
do (R30 to R39, R160, R233, R260). -/
namespace Sys2Proof.Machine

variable {s t : State} {offset : Nat}

/-! ### Register accesses -/

theorem accessRegister_aligned (ha : offset % 4 = 0) (hb : offset < 0x40)
    (effect : State → Host.Outcome State Fault Refusal) (s : State) : accessRegister offset 4 effect s = effect s := by
  have hcond : ¬(4 ≠ 4 ∨ offset % 4 ≠ 0) := by omega
  rw [accessRegister, if_neg hcond, if_neg (Nat.not_le.mpr hb)]

/-- An access that answers is aligned and inside the block (R30, R66), so that it has its effect. -/
theorem accessRegister_eq_next {width : Nat} {effect : State → Host.Outcome State Fault Refusal}
    (h : accessRegister offset width effect s = .next t) : effect s = .next t := by
  unfold accessRegister at h
  split at h
  · cases h
  split at h
  · cases h
  · exact h

theorem hostTurn_writeReg (ha : offset % 4 = 0) (hb : offset < 0x40) (v : Word) (s : State) :
    hostTurn (.writeReg offset 4 v) s = writeWord offset v s :=
  accessRegister_aligned ha hb _ s

theorem hostTurn_readReg (ha : offset % 4 = 0) (hb : offset < 0x40) (s : State) :
    hostTurn (.readReg offset 4) s = .next (readWord offset s) :=
  accessRegister_aligned ha hb (fun s => .next (readWord offset s)) s

theorem hostTurn_writeCtrl (v : Word) (s : State) : hostTurn (.writeReg 0 4 v) s = writeCtrl v s :=
  hostTurn_writeReg rfl (by omega) v s

/-- Only CTRL and the three inputs can be written (R30, R233). -/
theorem writeWord_readOnly (h : offset ∉ [0x00, 0x08, 0x0C, 0x10]) (v : Word) (s : State) :
    writeWord offset v s = .next s := by
  unfold writeWord
  split
  case h_5 => rfl
  all_goals simp at h

/-- Beyond the eight registers every offset reads 0 (R30). -/
theorem readWord_reserved (h : 0x20 ≤ offset) (s : State) : readWord offset s = s.withLastRead 0 := by
  unfold readWord
  split
  case h_9 => rfl
  all_goals omega

theorem ctrlWord_eq (s : State) : s.ctrlWord = if s.LENIENT then 2 else 0 := by
  unfold State.ctrlWord
  cases s.LENIENT <;> rfl

theorem readResult_idle (h : s.busy = false) (value : Word) (busyValue : Word → Word) :
    readResult value busyValue s = s.withLastRead value := by
  rw [readResult, h]
  rfl

theorem readResult_busy (h : s.busy = true) (value : Word) (busyValue : Word → Word) :
    readResult value busyValue s = s.drawWord busyValue := by
  rw [readResult, h]
  rfl

/-! ### START -/

/-- The state with `CTRL.LENIENT` stored (R31). -/
def State.withLenient (s : State) (b : Bool) : State := { s with LENIENT := b }

theorem writeCtrl_noStart {v : Word} (h : v.getLsbD 0 = false) (s : State) :
    writeCtrl v s = .next (s.withLenient (v.getLsbD 1)) := by
  simp only [writeCtrl, h]
  rfl

theorem writeCtrl_busy (h : s.busy = true) (v : Word) : writeCtrl v s = .next (s.withLenient (v.getLsbD 1)) :=
  if_neg fun hstart => hstart.2 h

theorem writeCtrl_start {v : Word} (h : s.busy = false) (hv : v.getLsbD 0 = true) :
    writeCtrl v s = start (s.withLenient (v.getLsbD 1)) :=
  if_pos ⟨hv, fun hbusy => absurd hbusy (Bool.eq_false_iff.mp h)⟩

theorem configFaultBits_eq_zero : configFaultBits s = 0 ↔ s.Admitted := by
  unfold configFaultBits State.Admitted
  by_cases h₁ : s.OFF + s.END > s.params.srcSize <;> by_cases h₂ : s.UL > s.params.outCapacity <;>
    simp [h₁, h₂]
  all_goals omega

/-- A START of valid constants whose ranges fit (R160, R64). -/
theorem start_admitted (hp : s.params.WF) (h : s.latch.Admitted) : start s = .next s.latch := by
  rw [start, if_pos hp]
  exact if_pos (configFaultBits_eq_zero.mpr h)

/-- A START of valid constants with a range that does not fit (R160, R220). -/
theorem start_configFault (hp : s.params.WF) (h : ¬s.latch.Admitted) :
    start s = .next (s.latch.endCall .configFault (configFaultBits s.latch) .error) := by
  rw [start, if_pos hp]
  exact if_neg (mt configFaultBits_eq_zero.mp h)

/-- A START that answers had valid constants (R263), and its ranges decide how it answers. -/
theorem start_eq_next (h : start s = .next t) :
    s.params.WF ∧ ((s.latch.Admitted ∧ t = s.latch) ∨
      (¬s.latch.Admitted ∧ t = s.latch.endCall .configFault (configFaultBits s.latch) .error)) := by
  by_cases hp : s.params.WF
  · refine ⟨hp, ?_⟩
    by_cases ha : s.latch.Admitted
    · rw [start_admitted hp ha] at h
      exact .inl ⟨ha, by cases h; rfl⟩
    · rw [start_configFault hp ha] at h
      exact .inr ⟨ha, by cases h; rfl⟩
  · rw [start, if_neg hp] at h
    cases h

/-! ### Everything a turn of the host can do -/

/-- What a turn of the host that answers may have done to the state (R233). -/
inductive HostEffect (s : State) : State → Prop
  /-- A write of the register block that begins no call, an ignored one among them. -/
  | registers (lenient : Bool) (off len ul : Word) : HostEffect s
      { s with LENIENT := lenient, SRC_OFFSET := off, SRC_LENGTH := len, UNPACKED_LENGTH := ul }
  /-- A read. -/
  | sees (w : Word) (d : Nat) : HostEffect s { s with lastRead := w, draws := d }
  /-- A START whose ranges fit. -/
  | begins (lenient : Bool) (hb : s.busy = false) (hp : s.params.WF) (ha : (s.withLenient lenient).latch.Admitted) :
      HostEffect s (s.withLenient lenient).latch
  /-- A START with a range that does not fit. -/
  | rejects (lenient : Bool) (hb : s.busy = false) (hp : s.params.WF) (ha : ¬(s.withLenient lenient).latch.Admitted) :
      HostEffect s ((s.withLenient lenient).latch.endCall .configFault
        (configFaultBits (s.withLenient lenient).latch) .error)
  | storesSrc (a : Nat) (v : Byte) (ha : a < s.params.srcSize)
      (hfree : s.busy = true → ¬(s.OFF ≤ a ∧ a < s.OFF + s.END)) :
      HostEffect s { s with SRCMEM := Memory.write s.SRCMEM a v }
  | storesOut (p : Nat) (v : Byte) (hp : p < s.params.outCapacity) (hfree : s.busy = true → s.UL ≤ p) :
      HostEffect s { s with OUTMEM := Memory.write s.OUTMEM p v }
  | resets : HostEffect s (hardReset s)

theorem writeCtrl_effect {v : Word} (h : writeCtrl v s = .next t) : HostEffect s t := by
  by_cases hs : v.getLsbD 0 = true ∧ s.busy = false
  · rw [writeCtrl_start hs.2 hs.1] at h
    obtain ⟨hp, ⟨ha, rfl⟩ | ⟨ha, rfl⟩⟩ := start_eq_next h
    · exact .begins _ hs.2 hp ha
    · exact .rejects _ hs.2 hp ha
  · have hstored : writeCtrl v s = .next (s.withLenient (v.getLsbD 1)) := by
      cases hb : s.busy
      · exact writeCtrl_noStart (by simpa [hb] using hs) s
      · exact writeCtrl_busy hb v
    rw [hstored] at h
    cases h
    exact .registers ..

theorem writeWord_effect {v : Word} (h : writeWord offset v s = .next t) : HostEffect s t := by
  unfold writeWord at h
  split at h
  case h_1 => exact writeCtrl_effect h
  all_goals
    cases h
    exact .registers ..

theorem readResult_effect (value : Word) (busyValue : Word → Word) (s : State) :
    HostEffect s (readResult value busyValue s) := by
  unfold readResult
  split <;> exact .sees ..

theorem readWord_effect (offset : Nat) (s : State) : HostEffect s (readWord offset s) := by
  unfold readWord
  split
  case h_2 | h_6 | h_7 | h_8 => exact readResult_effect ..
  all_goals exact .sees ..

theorem hostWriteSrc_effect {a : Nat} {v : Byte} (h : hostWriteSrc a v s = .next t) : HostEffect s t := by
  unfold hostWriteSrc at h
  split at h
  · cases h
  next ha =>
  split at h
  · cases h
  next hfree =>
  cases h
  exact .storesSrc a v (Nat.lt_of_not_le ha) fun hb hr => hfree ⟨hb, hr⟩

theorem hostWriteOut_effect {p : Nat} {v : Byte} (h : hostWriteOut p v s = .next t) : HostEffect s t := by
  unfold hostWriteOut at h
  split at h
  · cases h
  next hp =>
  split at h
  · cases h
  next hfree =>
  cases h
  exact .storesOut p v (Nat.lt_of_not_le hp) fun hb => Nat.le_of_not_lt fun hr => hfree ⟨hb, hr⟩

theorem hostReadOut_effect {p : Nat} (h : hostReadOut p s = .next t) : HostEffect s t := by
  unfold hostReadOut at h
  split at h
  · cases h
  split at h <;>
  · cases h
    exact .sees ..

theorem hostTurn_effect {a : HostAction} (h : hostTurn a s = .next t) : HostEffect s t := by
  cases a with
  | writeReg offset width v => exact writeWord_effect (accessRegister_eq_next h)
  | readReg offset width =>
    cases accessRegister_eq_next h
    exact readWord_effect offset s
  | writeSrc a v => exact hostWriteSrc_effect h
  | writeOut p v => exact hostWriteOut_effect h
  | readOut p => exact hostReadOut_effect h
  | hardReset =>
    cases h
    exact .resets

@[simp] theorem abandonOutput_params (s : State) : s.abandonOutput.params = s.params := by
  unfold State.abandonOutput
  split <;> rfl

@[simp] theorem abandonOutput_SRCMEM (s : State) : s.abandonOutput.SRCMEM = s.SRCMEM := by
  unfold State.abandonOutput
  split <;> rfl

theorem HostEffect.params_eq (h : HostEffect s t) : t.params = s.params := by
  cases h with
  | resets => exact abandonOutput_params s
  | _ => rfl

end Sys2Proof.Machine
end

section
/-! The statements about reset, START and the host's registers. -/
namespace Sys2Proof.Machine

/-- Settles O11: without START only LENIENT is stored. -/
theorem ctrlWriteWithoutStart : Obligations.CtrlWriteWithoutStart := by
  intro s v hv
  rw [hostTurn_writeCtrl, writeCtrl_noStart hv]
  rfl

/-- Settles O10: a START of valid constants is ignored while busy, and otherwise latches and checks the two ranges. -/
theorem startBeginsACall : Obligations.StartBeginsACall := by
  intro s v hp hv started badSource badOutput
  have hstarted : (s.withLenient (v.getLsbD 1)).latch = started := rfl
  have hadmitted : started.Admitted ↔ ¬badSource ∧ ¬badOutput := by
    simp only [State.Admitted, started, badSource, badOutput, Nat.not_lt]
  have hfault (hb : s.busy = false) (hbad : badSource ∨ badOutput) : hostTurn (.writeReg 0 4 v) s =
      .next (started.endCall .configFault (configFaultBits started) .error) := by
    rw [hostTurn_writeCtrl, writeCtrl_start hb hv]
    refine start_configFault hp ?_
    rw [hstarted, hadmitted]
    tauto
  have hbits : configFaultBits started =
      (if badSource then 1 else 0) ||| (if badOutput then 2 else 0) := rfl
  refine ⟨fun hb => ?_, fun hb h₁ h₂ => ?_, fun hb h₁ h₂ => ?_, fun hb h₁ h₂ => ?_, fun hb h₁ h₂ => ?_⟩
  · rw [hostTurn_writeCtrl, writeCtrl_busy hb]
    rfl
  · rw [hostTurn_writeCtrl, writeCtrl_start hb hv]
    exact start_admitted hp (hadmitted.mpr ⟨h₁, h₂⟩)
  · rw [hfault hb (.inl h₁), hbits, if_pos h₁, if_neg h₂]
    rfl
  · rw [hfault hb (.inr h₂), hbits, if_neg h₁, if_pos h₂]
    rfl
  · rw [hfault hb (.inl h₁), hbits, if_pos h₁, if_pos h₂]
    rfl

/-- START reads of the state only the constants and what it latches. -/
theorem start_congr {s₁ s₂ : State} (hp : s₁.params = s₂.params) (hl : s₁.latch = s₂.latch) : start s₁ = start s₂ := by
  simp only [start, hp, hl]

/-- Settles O13: what START latches depends on no per-call register. -/
theorem startForgetsThePreviousCall : Obligations.StartForgetsThePreviousCall := by
  intro s₁ s₂ v hv hb₁ hb₂ hoff hlen hul hsrc hout hp hagenda hlast hdraws
  rw [hostTurn_writeCtrl, hostTurn_writeCtrl, writeCtrl_start hb₁ hv, writeCtrl_start hb₂ hv]
  refine start_congr hp ?_
  simp only [State.latch, State.withLenient, hoff, hlen, hul, hsrc, hout, hp, hagenda, hlast, hdraws]

/-- Settles O14: each offset in turn, the result registers in a state that is not busy. -/
theorem registersReadTheirValues : Obligations.RegistersReadTheirValues := by
  intro s hb sees
  have hread (offset : Nat) (ha : offset % 4 = 0) (ho : offset < 0x40) := hostTurn_readReg ha ho s
  refine ⟨?_, ?_, hread _ rfl (by omega), hread _ rfl (by omega), hread _ rfl (by omega), ?_, ?_, ?_, fun k h₁ h₂ => ?_⟩
  · rw [hread _ rfl (by omega), readWord, ctrlWord_eq]
    rfl
  iterate 4
    rw [hread _ rfl (by omega), readWord, readResult_idle hb]
    rfl
  · rw [hread _ (by omega) (by omega), readWord_reserved (by omega)]
    rfl

/-- Settles O9: the reset state is not busy, so its registers read as their reset values. -/
theorem resetReadsAsTheSpecSays : Obligations.ResetReadsAsTheSpecSays := by
  refine ⟨rfl, rfl, rfl, rfl, rfl, fun k hk => ?_⟩
  obtain ⟨r0, r1, r2, r3, r4, r5, r6, r7, hreserved⟩ := registersReadTheirValues State.reset rfl
  by_cases h8 : 8 ≤ k
  · rw [hreserved k h8 hk, if_neg (by omega)]
  · interval_cases k
    exacts [r0, r1, r2, r3, r4, r5, r6, r7]

/-- Settles O15, over all 128 values of the fields. -/
theorem statusFieldsStandAtTheirBits : Obligations.StatusFieldsStandAtTheirBits := by
  unfold Obligations.StatusFieldsStandAtTheirBits
  decide +kernel

/-- Two busy states with the same host registers and draws show the host the same word of any register (R37). -/
theorem readWord_busy_congr {s₁ s₂ : State} (hb₁ : s₁.busy = true) (hb₂ : s₂.busy = true) (hl : s₁.LENIENT = s₂.LENIENT)
    (hoff : s₁.SRC_OFFSET = s₂.SRC_OFFSET) (hlen : s₁.SRC_LENGTH = s₂.SRC_LENGTH)
    (hul : s₁.UNPACKED_LENGTH = s₂.UNPACKED_LENGTH) (hdraws : s₁.draws = s₂.draws) (offset : Nat) :
    (readWord offset s₁).lastRead = (readWord offset s₂).lastRead := by
  unfold readWord
  split
  case h_1 => simp only [ctrlWord_eq, State.withLastRead_lastRead, hl]
  case h_2 | h_6 | h_7 | h_8 => simp only [readResult_busy hb₁, readResult_busy hb₂, State.drawWord, hdraws]
  all_goals simp only [State.withLastRead_lastRead, hoff, hlen, hul]

/-- The word that a host read of `OUTMEM` shows while busy is the next free byte, whatever the memory holds (R71). -/
theorem hostReadOut_busy {s t : State} {p : Nat} (hb : s.busy = true) (h : hostReadOut p s = .next t) :
    t.lastRead = (Config.freeByte s.draws).zeroExtend 32 := by
  unfold hostReadOut at h
  split at h
  · cases h
  · cases h
    rfl

/-- Settles O16: register reads by `readWord_busy_congr`, output reads by `hostReadOut_busy`. -/
theorem busyReadsRevealNothing : Obligations.BusyReadsRevealNothing := by
  intro s₁ s₂ t₁ t₂ a hb₁ hb₂ hl hoff hlen hul hdraws ha h₁ h₂
  obtain ⟨offset, rfl⟩ | ⟨p, rfl⟩ := ha
  · cases accessRegister_eq_next h₁
    cases accessRegister_eq_next h₂
    refine ⟨readWord_busy_congr hb₁ hb₂ hl hoff hlen hul hdraws offset, fun hstatus => ?_⟩
    cases hstatus
    rw [readWord, readResult_busy hb₁]
    obtain ⟨hstate, -, hbit, -, hhigh⟩ := statusFieldsStandAtTheirBits 1 ((Config.freeWord s₁.draws).getLsbD 2)
      ((Config.freeWord s₁.draws).extractLsb' 4 4)
    exact ⟨hstate, hbit, hhigh⟩
  · refine ⟨?_, fun hstatus => by cases hstatus⟩
    rw [hostReadOut_busy hb₁ h₁, hostReadOut_busy hb₂ h₂, hdraws]

/-- Settles O17: the writes and reads one by one; a START latches the inputs whether or not its ranges fit. -/
theorem inputRegistersAreStored : Obligations.InputRegistersAreStored := by
  refine ⟨⟨rfl, rfl, rfl⟩, fun s v => ⟨⟨?_, ?_, ?_⟩, ⟨?_, ?_, ?_⟩, fun hb hv hp => ?_⟩⟩
  iterate 3 exact hostTurn_writeReg rfl (by omega) v s
  iterate 3 exact hostTurn_readReg rfl (by omega) s
  rw [hostTurn_writeCtrl, writeCtrl_start hb hv]
  by_cases ha : (s.withLenient (v.getLsbD 1)).latch.Admitted
  · exact ⟨_, start_admitted hp ha, rfl, rfl, rfl⟩
  · exact ⟨_, start_configFault hp ha, rfl, rfl, rfl⟩

/-- Settles O18: none of these offsets is CTRL or an input register. -/
theorem readOnlyRegistersIgnoreWrites : Obligations.ReadOnlyRegistersIgnoreWrites := by
  intro s v offset hoff
  simp only [List.mem_cons, List.not_mem_nil, or_false] at hoff
  rw [hostTurn_writeReg (by omega) (by omega)]
  refine writeWord_readOnly ?_ v s
  simp only [List.mem_cons, List.not_mem_nil, or_false]
  omega

end Sys2Proof.Machine
end

section
/-! Pre- and postconditions of the engine's computations, and how a turn of the engine splits into them. -/
namespace Sys2Proof.Machine

variable {α β : Type} {P Q R E : State → Prop}

/-- From a state that meets `P`, `m` yields a state that meets `Q`, or ends the call in one that meets `E`. -/
def Triple (P Q E : State → Prop) (m : Engine α) : Prop := ∀ s, P s → wp m (fun _ => Q) E s

theorem Triple.bind {m : Engine α} {f : α → Engine β} (hm : Triple P Q E m) (hf : ∀ a, Triple Q R E (f a)) :
    Triple P R E (m >>= f) := fun s h =>
  wp_bind.mpr (wp_mono (hm s h) (fun a s' => hf a s') fun _ => id)

theorem Triple.pure (a : α) : Triple P P E (Pure.pure a) := fun _ h => h

theorem Triple.get : Triple P P E (MonadState.get : Engine State) := fun _ h => h

theorem Triple.update {f : State → State} (h : ∀ s, P s → Q (f s)) : Triple P Q E (modify f) := h

theorem Triple.outcome {m : Engine Unit} (hm : Triple P Q E m) (hQ : ∀ s, Q s → R s) (hE : ∀ s, E s → R s) {s t : State}
    (h : P s) (ht : outcomeOf m s = .next t) : R t :=
  wp_outcomeOf (wp_mono (hm s h) (fun _ => hQ) hE) ht

/-- A turn of the engine that answers (R161, R232): outside a call it changes nothing; in a call the loop top or the symbol
decode ends the call, or the decoded instruction answers. -/
theorem engineTurn_post {P : State → Prop} {s t : State} (hout : s.ESTATE ≠ .decoding → P s)
    (hin : s.ESTATE = .decoding → wp nextInstr (fun i s' => ∀ t, exec i s' = .next t → P t) P s)
    (h : engineTurn s = .next t) : P t := by
  by_cases hd : s.ESTATE = .decoding
  · have hwp := hin hd
    rw [engineTurn_decoding hd] at h
    unfold wp at hwp
    cases hn : nextInstr s with
    | ok i s' =>
      rw [hn] at hwp h
      exact hwp t h
    | error stop s' =>
      rw [hn] at hwp h
      cases stop with
      | callEnded =>
        cases h
        exact hwp
      | fault r | refused r => cases h
  · unfold engineTurn at h
    split at h
    case h_1 | h_2 | h_3 =>
      cases h
      exact hout hd
    case h_7 => contradiction
    all_goals cases h

end Sys2Proof.Machine
end

section
/-! What the engine may change: an instruction's effect on the state, and that of a whole turn. -/
namespace Sys2Proof.Machine

variable {s s₀ t : State}

/-- What a part of an iteration may do to the state, in any state: the host's registers, the latched inputs, the source memory,
the constants and the model's own fields stay, and the output is only written upwards from `WO`, below `UL` (R26, R27, R60). -/
structure EngineEffect (s t : State) : Prop where
  same    : t = { s with
    POS := t.POS, S := t.S, V := t.V, SOFT := t.SOFT, COND := t.COND, INFO := t.INFO, T := t.T, DIR := t.DIR
    WO := t.WO, ESTATE := t.ESTATE, OUTMEM := t.OUTMEM }
  low     : s.WO ≤ t.WO
  room    : s.WO ≤ s.UL → t.WO ≤ s.UL
  outside : ∀ p, p < s.WO ∨ t.WO ≤ p → Memory.read t.OUTMEM p = Memory.read s.OUTMEM p

/-- An update that leaves the output alone. -/
theorem EngineEffect.of_eq (h : t = { s with
      POS := t.POS, S := t.S, V := t.V, SOFT := t.SOFT, COND := t.COND, INFO := t.INFO, T := t.T, DIR := t.DIR
      ESTATE := t.ESTATE }) : EngineEffect s t := by
  have hw : t.WO = s.WO := by rw [h]
  have ho : t.OUTMEM = s.OUTMEM := by rw [h]
  refine ⟨?_, by omega, by omega, fun p _ => by rw [ho]⟩
  rw [hw, ho]
  exact h

theorem EngineEffect.refl (s : State) : EngineEffect s s := .of_eq rfl

theorem EngineEffect.trans {s₁ s₂ s₃ : State} (h₁ : EngineEffect s₁ s₂) (h₂ : EngineEffect s₂ s₃) :
    EngineEffect s₁ s₃ where
  same := by rw [h₂.same, h₁.same]
  low := Nat.le_trans h₁.low h₂.low
  room h := by
    have hul : s₂.UL = s₁.UL := by rw [h₁.same]
    exact hul ▸ h₂.room (hul ▸ h₁.room h)
  outside p hp := by
    have := h₁.low
    have := h₂.low
    rw [h₂.outside p (by omega), h₁.outside p (by omega)]

theorem ReaderOnly.engineEffect (h : ReaderOnly s t) : EngineEffect s t := by
  obtain ⟨x, p, v, f, rfl, -⟩ := h.eq
  exact .of_eq rfl

theorem Wrote.engineEffect {n : Nat} (h : Wrote n s t) : EngineEffect s t where
  same := by
    obtain ⟨m, w, rfl⟩ := h.same.eq
    rfl
  low := h.low
  room := h.room
  outside := h.outside

/-! ### Computations with such an effect on a state reached from `s₀` -/

/-- Whatever `m` yields, and however it ends the call, only `EngineEffect` has happened since `s₀`. -/
abbrev ActsFrom {α : Type} (s₀ : State) (m : Engine α) : Prop :=
  Triple (EngineEffect s₀) (EngineEffect s₀) (EngineEffect s₀) m

variable {α β : Type}

theorem ActsFrom.bind {m : Engine α} {f : α → Engine β} (hm : ActsFrom s₀ m) (hf : ∀ a, ActsFrom s₀ (f a)) :
    ActsFrom s₀ (m >>= f) := Triple.bind hm hf

theorem ActsFrom.get : ActsFrom s₀ (MonadState.get : Engine State) := Triple.get

theorem ActsFrom.of_readsOnly {m : Engine α} (hm : ReadsOnly m) : ActsFrom s₀ m := by
  refine fun s h => wp_mono (hm s) (fun _ s' hr => h.trans hr.engineEffect) ?_
  rintro _ ⟨s', c, w, hr, rfl⟩
  exact h.trans (hr.engineEffect.trans (.of_eq rfl))

theorem ActsFrom.update {f : State → State} (hf : ∀ s, EngineEffect s (f s)) :
    ActsFrom s₀ (modify f) := Triple.update fun s h => h.trans (hf s)

theorem ActsFrom.withEState (e : EState) : ActsFrom s₀ (modify (·.withEState e)) := .update fun _ => .of_eq rfl

theorem ActsFrom.finish (c : Condition) (w : Word) : ActsFrom s₀ (Machine.finish c w : Engine α) :=
  fun _ h => h.trans (.of_eq rfl)

theorem ActsFrom.copy (n : Nat) (src : Int) : ActsFrom s₀ (Machine.copy n src) := fun _ h =>
  wp_copy (fun _ hw _ => h.trans hw.engineEffect)
    (fun _ _ _ hw _ => h.trans (hw.engineEffect.trans (.of_eq rfl)))

theorem ActsFrom.setByte (v : Byte) (remaining : Nat) : ActsFrom s₀ (Machine.setByte v remaining) := fun _ h =>
  (wp_setByte v remaining).mpr
    ⟨fun _ => h.trans (.of_eq rfl), fun hne hcap => h.trans (Wrote.emit v hne hcap).engineEffect⟩

theorem ActsFrom.reorderBy (f : Directory → Directory) : ActsFrom s₀ (Machine.reorderBy f) :=
  .update fun s => .of_eq (t := s.withDir (f s.DIR)) rfl

theorem ActsFrom.buildTable : ActsFrom s₀ Machine.buildTable :=
  .bind .get fun _ => .bind (.of_readsOnly (.buildSlots _ _ _ _ _ _)) fun _ => .update fun _ => .of_eq rfl

theorem ActsFrom.resolve (idx : Nat) : ActsFrom s₀ (Machine.resolve idx) := fun _ h =>
  (wp_resolve idx).mpr ⟨fun _ => h, fun _ => h.trans (.of_eq rfl)⟩

theorem ActsFrom.fetch : ActsFrom s₀ Machine.fetch := by
  refine .bind (.of_readsOnly (.read 4)) fun v => .bind .get fun s => .bind (.of_readsOnly (.read _)) fun off =>
    .bind (.resolve _) fun sym => ?_
  cases decodeSymbol sym (BitVec.ofNat 4 v) with
  | error e => exact fun _ _ => trivial
  | ok i => exact .bind (.update fun _ => .of_eq rfl) fun _ => Triple.pure i

/-! ### Instructions and turns -/

theorem outcomeOf_engineEffect {m : Engine Unit} (hm : ActsFrom s m) (h : outcomeOf m s = .next t) : EngineEffect s t :=
  hm.outcome (fun _ => id) (fun _ => id) (.refl s) h

theorem exec_engineEffect {i : Instr} (h : exec i s = .next t) : EngineEffect s t := by
  cases i with
  | lit b => exact outcomeOf_engineEffect (.setByte b 1) h
  | matchShort k =>
    refine outcomeOf_engineEffect ?_ h
    exact .bind (.withEState _) fun _ => .bind (.of_readsOnly .distance) fun _ => .bind (.copy _ _) fun _ =>
      .withEState _
  | matchLong k sel =>
    refine outcomeOf_engineEffect ?_ h
    exact .bind (.withEState _) fun _ => .bind (.of_readsOnly (.longLength k sel)) fun _ =>
      .bind (.of_readsOnly .distance) fun _ => .bind (.copy _ _) fun _ => .withEState _
  | tableSwap =>
    refine outcomeOf_engineEffect ?_ h
    exact .bind (.withEState _) fun _ => .bind (.reorderBy _) fun _ => .bind .buildTable fun _ =>
      .withEState _
  | endSegment =>
    refine outcomeOf_engineEffect ?_ h
    refine .bind (.withEState _) fun _ => .bind .get fun s₁ => ?_
    split
    · exact .bind (.update fun _ => .of_eq rfl) fun _ => .withEState _
    split
    · exact .finish _ _
    · exact .finish _ _

/-- A turn of the engine that answers has an iteration's effect, from the state with the iteration counted or, where the loop top
ends the call, as it was (R161). -/
theorem engineTurn_engineEffect (h : engineTurn s = .next t) : EngineEffect s t ∨ EngineEffect s.countIteration t := by
  refine engineTurn_post (P := fun t => EngineEffect s t ∨ EngineEffect s.countIteration t)
    (fun _ => .inl (.refl s)) (fun _ => ?_) h
  rw [nextInstr, wp_bind, wp_loopTop]
  repeat' split
  case isFalse.isFalse.isFalse =>
    exact wp_mono (ActsFrom.fetch s.countIteration (.refl _)) (fun _ _ hf _ hx => .inr (hf.trans (exec_engineEffect hx)))
      fun _ => .inr
  all_goals exact .inl (.of_eq rfl)

/-- Settles O43: the fields are outside an instruction's effect. -/
theorem instructionsKeepTheInputs : Obligations.InstructionsKeepTheInputs := by
  intro i s t h
  rw [(exec_engineEffect h).same]
  simp

theorem EngineEffect.inputs (h : EngineEffect s t) : t.params = s.params ∧ t.SRCMEM = s.SRCMEM ∧ t.LENIENT = s.LENIENT ∧
    t.SRC_OFFSET = s.SRC_OFFSET ∧ t.SRC_LENGTH = s.SRC_LENGTH ∧ t.UNPACKED_LENGTH = s.UNPACKED_LENGTH := by
  rw [h.same]
  simp

/-- Settles O51: an engine turn by its effect, a host turn by `hostTurn_effect`. -/
theorem engineOnlyReadsItsInputs : Obligations.EngineOnlyReadsItsInputs := by
  intro s t h
  cases hturn : s.nextTurn with
  | engine =>
    rw [step_of_engineTurn hturn] at h
    obtain he | he := engineTurn_engineEffect h <;> exact ⟨he.inputs.1, fun _ => he.inputs.2⟩
  | host a =>
    rw [step_of_hostTurn hturn] at h
    exact ⟨(hostTurn_effect h).params_eq, fun he => by cases he⟩

/-- Settles O52: the output clauses of an engine turn's effect. -/
theorem outputIsWrittenOnceAscending : Obligations.OutputIsWrittenOnceAscending := by
  intro s t hturn h
  rw [step_of_engineTurn hturn] at h
  obtain he | he := engineTurn_engineEffect h <;> exact ⟨he.low, he.room, he.outside⟩

end Sys2Proof.Machine
end

section
/-! Well-formed constants: the tables, directories and parameters that the machine starts from or computes. -/
namespace Sys2Proof

theorem Table.ofLengths_wf (len : Vector (Fin 25) 16) : (Table.ofLengths len).WF := fun s => by
  simp [Table.ofLengths]

/-- The assignment of a permutation lists every symbol once (R25). -/
theorem assignOfPerm_perm_symbols (σ : Equiv.Perm (Fin nsym)) : (assignOfPerm σ).toList.Perm symbols := by
  have hsymbols : symbols = List.ofFn fun i : Fin nsym => BitVec.ofNat 9 i.val := by
    rw [symbols, List.ofFn_eq_map, ← List.map_coe_finRange_eq_range, List.map_map]
    rfl
  rw [hsymbols, assignOfPerm, Vector.toList_ofFn]
  exact Equiv.Perm.ofFn_comp_perm σ fun i => BitVec.ofNat 9 i.val

theorem Config.reorder_wf (d : Directory) : (Config.reorder d).WF := assignOfPerm_perm_symbols _

theorem Machine.countUse_ASSIGN (d : Directory) (y : Symbol) : (Machine.countUse d y).ASSIGN = d.ASSIGN := by
  unfold Machine.countUse
  split <;> rfl

theorem Machine.countUse_wf {d : Directory} (h : d.WF) (y : Symbol) : (Machine.countUse d y).WF := by
  rw [Directory.WF, Machine.countUse_ASSIGN]
  exact h

/-- A table whose lengths are slot lengths that fit has lengths that fit (R124). -/
theorem Table.lengthsFit_of_groupsFit {p : Params} {t : Table} {zs : List Nat} (hz : GroupsFit p zs)
    (ht : t.len.toList.map Fin.val = slotLengths p.lenCoding 0 zs) : t.LengthsFit p := fun l hl =>
  hz l.val (ht ▸ List.mem_map_of_mem hl)

/-- The hardware's parameters meet their constraints, whatever the OPEN constants are (R263). -/
theorem Config.params_wf : Config.params.WF := by
  have hcap : Config.outCapacity.val ≤ 2 ^ 32 - 1 := by omega
  refine ⟨Table.ofLengths_wf _, fun l _ => l.is_le, ⟨by decide, fun w hw => ?_, fun e _ => e.extraBits.isLt⟩,
    assignOfPerm_perm_symbols _, Config.srcSize.is_le, hcap⟩
  obtain ⟨e, -, rfl⟩ := List.mem_map.mp hw
  exact e.extraBits.is_le

theorem Machine.Memory.mem_scramble {m : List Host.Cell} {draw n : Nat} {c : Host.Cell} (h : c ∈ scramble m draw n) :
    c.1 < n ∨ c ∈ m := by
  induction n with
  | zero => exact .inr h
  | succ n ih =>
    obtain ⟨rfl, -⟩ | h := mem_write h
    · exact .inl (Nat.lt_succ_self n)
    · exact (ih h).imp (Nat.lt_succ_of_lt ·) id

end Sys2Proof
end

section
/-! The invariant inside a running call: what every computation of the engine keeps, and how a call's end restores it. -/
namespace Sys2Proof.Machine

variable {s s' t : State} {e : EState}

/-- The invariant of a call that runs, in the engine state `e`, a sub-state or not: no condition yet, the ranges admitted, and the
staged bits the source's. -/
structure State.Running (e : EState) (s : State) : Prop where
  estate     : s.ESTATE = e
  params     : s.params.WF
  registers  : s.RegistersFit
  memories   : s.MemoriesFit
  table      : s.T.WF
  lengths    : s.T.LengthsFit s.params
  directory  : s.DIR.WF
  staged     : s.params.underflowDrain = true → s.V ≤ 7
  quiet      : s.COND = .none ∧ s.INFO = 0
  admitted   : s.Admitted
  fromSource : s.StagedFromSource

/-- Between two iterations of a call the invariant says that the call runs. -/
theorem State.Inv.running (h : s.Inv) (hd : s.ESTATE = .decoding) : s.Running .decoding :=
  { h with
    estate := hd
    quiet := by
      obtain ⟨hnone, -, -, hinfo⟩ := h.condition
      exact ⟨hnone (.inr hd), hinfo (hnone (.inr hd))⟩
    admitted := h.admitted hd
    fromSource := h.fromSource hd }

namespace State.Running

/-- An iteration that goes on leaves the invariant. -/
theorem inv (h : s.Running .decoding) : s.Inv :=
  { h with
    boundary := .inr (.inl h.estate)
    condition := by
      have he := h.estate
      exact ⟨fun _ => h.quiet.1, by simp [he], by simp [he], fun _ => h.quiet.2⟩
    admitted := fun _ => h.admitted
    fromSource := fun _ => h.fromSource }

theorem inv_endCall (h : s.Running e) {code : Condition} {info : Word} {e' : EState} (he : e' = .done ∨ e' = .error)
    (hc : (s.endCall code info e').ConditionFits) : (s.endCall code info e').Inv :=
  { h with
    boundary := .inr (.inr he)
    condition := hc
    admitted := fun _ => h.admitted
    fromSource := fun _ => h.fromSource }

/-- A fatal condition ends the call in ERROR (R221). -/
theorem inv_raise (h : s.Running e) {code : Condition} (hfatal : code.fatal = true) (info : Word) :
    (s.endCall code info .error).Inv := by
  refine h.inv_endCall (.inr rfl) ⟨by simp, by simp, fun _ => hfatal, fun hnone => ?_⟩
  rw [State.endCall_COND] at hnone
  rw [hnone] at hfatal
  cases hfatal

/-- A call that filled its output ends in DONE without a condition (R167). -/
theorem inv_finish (h : s.Running e) (hfull : s.WO = s.UL) : (s.endCall .none 0 .done).Inv :=
  h.inv_endCall (.inl rfl) ⟨by simp, fun _ => .inl ⟨rfl, hfull⟩, by simp, fun _ => rfl⟩

/-- A stream that ends before the output is full ends the call in DONE with StreamDesyncAtEnd (R166). -/
theorem inv_finish_desync (h : s.Running e) (hroom : s.WO < s.UL) (info : Word) :
    (s.endCall .streamDesyncAtEnd info .done).Inv :=
  h.inv_endCall (.inl rfl) ⟨by simp, fun _ => .inr ⟨rfl, hroom⟩, by simp, by simp⟩

/-! ### The updates of a running call -/

theorem countIteration (h : s.Running e) : s.countIteration.Running e := { h with }

theorem withEState (h : s.Running e) (e' : EState) : (s.withEState e').Running e' := { h with estate := rfl }

theorem withDir (h : s.Running e) {d : Directory} (hd : d.WF) : (s.withDir d).Running e := { h with directory := hd }

theorem withTable (h : s.Running e) {t : Table} (ht : t.WF) (hl : t.LengthsFit s.params) : (s.withTable t).Running e :=
  { h with table := ht, lengths := hl }

/-- Dropping the staged bits gives whole bytes back to the source (R108). -/
theorem realign (h : s.Running e) : s.realign.Running e :=
  { h with
    registers := by
      obtain ⟨hoff, hend, hul, hpos, hv, hwo⟩ := h.registers
      exact ⟨hoff, hend, hul, Nat.le_trans (Nat.sub_le _ _) hpos, by simp, hwo⟩
    staged := fun _ => Nat.zero_le _
    fromSource := ⟨Nat.zero_le _, fun j hj => absurd hj (Nat.not_lt_zero j)⟩ }

/-- What moves only the cursor and the soft-fault flag, within the reader's bounds. -/
theorem reader (h : s.Running e) (hs : s' = { s with S := s'.S, POS := s'.POS, V := s'.V, SOFT := s'.SOFT })
    (hb : Bounds s s') : s'.Running e := by
  obtain ⟨x, p, v, f, rfl⟩ : ∃ x p v f, s' = { s with S := x, POS := p, V := v, SOFT := f } := ⟨_, _, _, _, hs⟩
  exact { h with
    registers := by
      obtain ⟨hoff, hend, hul, hpos, hv, hwo⟩ := h.registers
      exact ⟨hoff, hend, hul, hb.pos hpos, hb.small, hwo⟩
    staged := fun hd => hb.tail hd (h.staged hd)
    fromSource := hb.coherent h.fromSource }

theorem moved {n : Nat} (h : s.Running e) (hm : Moved n s s') : s'.Running e := h.reader hm.same hm.bounds

theorem wrote {n : Nat} (h : s.Running e) (hw : Wrote n s s') : s'.Running e := by
  obtain ⟨m, w, rfl⟩ := hw.same.eq
  exact { h with
    registers := by
      obtain ⟨hoff, hend, hul, hpos, hv, hwo⟩ := h.registers
      exact ⟨hoff, hend, hul, hpos, hv, hw.room hwo⟩
    memories := by
      obtain ⟨hsrc, hout, hsrcIn, houtIn⟩ := h.memories
      exact ⟨hsrc, hw.wf hout, hsrcIn, fun c hc => (hw.listed c hc).elim (houtIn c) id⟩ }

end State.Running

/-! ### The engine's computations -/

/-- In a running call `m` leaves the engine state `e'`, or ends the call in a state that meets the invariant. -/
abbrev RunsTo {α : Type} (e e' : EState) (m : Engine α) : Prop :=
  Triple (State.Running e) (State.Running e') State.Inv m

namespace RunsTo

variable {α β : Type} {e₁ e₂ e₃ : EState}

theorem bind {m : Engine α} {f : α → Engine β} (hm : RunsTo e₁ e₂ m) (hf : ∀ a, RunsTo e₂ e₃ (f a)) :
    RunsTo e₁ e₃ (m >>= f) := Triple.bind hm hf

theorem get : RunsTo e e (MonadState.get : Engine State) := Triple.get

theorem pure (a : α) : RunsTo e e (Pure.pure a : Engine α) := Triple.pure a

theorem withEState (e e' : EState) : RunsTo e e' (modify (·.withEState e')) := fun _ h => h.withEState e'

theorem read {n : Nat} (hn : n ≤ 24) : RunsTo e e (Machine.read n) := fun _ h => by
  obtain ⟨-, -, -, -, hv, -⟩ := h.registers
  exact wp_read hn hv h.admitted.1 (fun _ _ _ hm => h.moved hm) fun _ hm => (h.moved hm).inv_raise rfl _

theorem longLength (k : BitVec 3) (sel : Selector) : RunsTo e e (Machine.longLength k sel) :=
  .bind .get fun s => .bind (.read (s.params.lengthTable.entry k sel).extraBits.is_le) fun _ => .pure _

theorem distance : RunsTo e e Machine.distance :=
  .bind (.read (by omega)) fun _ => .bind .get fun _ => .bind (.read (by omega)) fun _ =>
    .bind (.read (lowWidth_le _ _)) fun _ => .bind .get fun _ => .pure _

theorem setByte (v : Byte) (remaining : Nat) : RunsTo e e (Machine.setByte v remaining) := fun _ h =>
  (wp_setByte v remaining).mpr ⟨fun _ => h.inv_raise rfl _, fun hne hcap => h.wrote (.emit v hne hcap)⟩

theorem copy (n : Nat) (src : Int) : RunsTo e e (Machine.copy n src) := fun _ h =>
  wp_copy (fun _ hw _ => h.wrote hw) fun _ code info hw hcode =>
    (h.wrote hw).inv_raise (by obtain rfl | rfl := hcode <;> rfl) info

theorem resolve (idx : Nat) : RunsTo e e (Machine.resolve idx) := fun _ h =>
  (wp_resolve idx).mpr ⟨fun _ => h, fun _ => h.inv_raise rfl _⟩

theorem recordUse (y : Symbol) : RunsTo e e (Machine.recordUse y) := fun _ h => h.withDir (countUse_wf h.directory y)

theorem reorder : RunsTo e e (reorderBy Config.reorder) := fun _ h => h.withDir (Config.reorder_wf _)

theorem buildTable : RunsTo e e Machine.buildTable := fun s h => by
  obtain ⟨-, -, -, -, hv, -⟩ := h.registers
  have hspec := buildTable_spec hv h.admitted.1
  unfold wp
  split at hspec
  · obtain ⟨s', t, hrun, hcursor, -, hbounds, -, hfit, hlen, ht⟩ := hspec
    obtain ⟨x, p, v, rfl⟩ := hcursor.eq
    rw [hrun]
    exact (h.reader rfl hbounds).withTable ht (Table.lengthsFit_of_groupsFit hfit hlen)
  · next err _ =>
    obtain ⟨r, hrun, hends⟩ := hspec
    rw [hrun]
    cases err with
    | tableFormat slot rest =>
      obtain ⟨s', hcursor, -, hbounds, rfl⟩ := hends
      obtain ⟨x, p, v, rfl⟩ := hcursor.eq
      exact (h.reader rfl hbounds).inv_raise rfl _
    | truncated =>
      obtain ⟨s', hsame, -, hbounds, rfl⟩ := hends
      have hsoft : s'.SOFT = true := by rw [hsame]
      exact (h.reader (hsoft ▸ hsame) hbounds).inv_raise rfl _
    | outOfSync _ _ | unreachableSymbol _ => exact hends.elim

/-- The loop top: it counts the iteration, or ends the call (R161, R170). -/
theorem loopTop : RunsTo e e Machine.loopTop := fun s h => by
  rw [wp_loopTop]
  split
  · next hfull => exact h.inv_finish hfull
  split
  · exact h.inv_raise rfl _
  split
  · exact h.inv_raise rfl _
  · exact h.countIteration

theorem fetch : RunsTo e e Machine.fetch := by
  refine .bind (.read (by omega)) fun v => .bind .get fun s => .bind (.read (lenAt_le _ _)) fun off =>
    .bind (.resolve _) fun sym => ?_
  cases decodeSymbol sym (BitVec.ofNat 4 v) with
  | error e => exact fun _ _ => trivial
  | ok i => exact .bind (.recordUse sym) fun _ => .pure i

theorem nextInstr : RunsTo e e Machine.nextInstr := .bind .loopTop fun _ => .fetch

/-- A computation that leaves the engine decoding gives a step that keeps the invariant. -/
theorem outcome {m : Engine Unit} (hm : RunsTo .decoding .decoding m) (h : s.Running .decoding)
    (ht : outcomeOf m s = .next t) : t.Inv := Triple.outcome hm (fun _ => State.Running.inv) (fun _ => id) h ht

end RunsTo

/-! ### Instructions and turns -/

theorem exec_inv {i : Instr} (h : s.Running .decoding) (ht : exec i s = .next t) : t.Inv := by
  cases i with
  | lit b => exact RunsTo.outcome (.setByte b 1) h ht
  | matchShort k =>
    refine RunsTo.outcome ?_ h ht
    exact .bind (.withEState _ _) fun _ => .bind .distance fun _ => .bind (.copy _ _) fun _ => .withEState _ _
  | matchLong k sel =>
    refine RunsTo.outcome ?_ h ht
    exact .bind (.withEState _ _) fun _ => .bind (.longLength k sel) fun _ => .bind .distance fun _ =>
      .bind (.copy _ _) fun _ => .withEState _ _
  | tableSwap =>
    refine RunsTo.outcome ?_ h ht
    exact .bind (.withEState _ _) fun _ => .bind .reorder fun _ => .bind .buildTable fun _ => .withEState _ _
  | endSegment =>
    refine RunsTo.outcome ?_ h ht
    refine .bind (.withEState _ _) fun _ s₁ h₁ => wp_bind.mpr ?_
    obtain ⟨-, -, -, -, -, hwo⟩ := h₁.registers
    show wp (if _ then _ else _) _ _ s₁
    split
    · exact (h₁.realign).withEState _
    split
    · next hroom => exact h₁.inv_finish_desync hroom _
    · next hroom => exact h₁.inv_finish (by omega)

theorem engineTurn_inv (h : s.Inv) (ht : engineTurn s = .next t) : t.Inv :=
  engineTurn_post (fun _ => h)
    (fun hd => wp_mono (RunsTo.nextInstr s (h.running hd)) (fun _ _ hr _ hx => exec_inv hr hx) fun _ => id) ht

end Sys2Proof.Machine
end

section
/-! The invariant at reset, under every turn of the host, and so under every step. -/
namespace Sys2Proof.Machine

variable {s t : State}

/-! ### Reset -/

/-- The state after reset, with other memories, constants and fields of the model's own. -/
theorem inv_reset_with {src out : List Host.Cell} {p : Params} {agenda : List Turn} {lastRead : Word} {draws : Nat}
    (hp : p.WF) (hsrc : Memory.wf src ∧ ∀ c ∈ src, c.1 < p.srcSize) (hout : Memory.wf out ∧ ∀ c ∈ out, c.1 < p.outCapacity) :
    State.Inv { State.reset with
      SRCMEM := src, OUTMEM := out, params := p, agenda := agenda, lastRead := lastRead, draws := draws } where
  params := hp
  registers := (by decide : State.reset.RegistersFit)
  memories := ⟨hsrc.1, hout.1, hsrc.2, hout.2⟩
  table := Table.ofLengths_wf _
  lengths l hl := by
    obtain ⟨-, rfl⟩ := Vector.mem_replicate.mp (Vector.mem_toList_iff.mp hl)
    exact Fin.zero_le _
  directory := by
    show identityAssign.toList.Perm symbols
    rw [identityAssign, symbols, Vector.toList_mk]
  staged _ := Nat.zero_le 7
  boundary := .inl rfl
  condition := ⟨fun _ => rfl, fun h => (by cases h), fun h => (by cases h), fun _ => rfl⟩
  admitted h := by cases h
  fromSource h := by cases h

/-- Settles O48: the memories are empty and the parameters valid. -/
theorem resetMeetsTheInvariant : Obligations.ResetMeetsTheInvariant :=
  inv_reset_with Config.params_wf ⟨Memory.wf_nil, by simp⟩ ⟨Memory.wf_nil, by simp⟩

/-- A write to another byte of `SRCMEM` leaves a bit of the source range as it was. -/
theorem sourceBit_write {a k : Nat} (v : Byte) (h : s.OFF + k / 8 ≠ a) :
    State.sourceBit { s with SRCMEM := Memory.write s.SRCMEM a v } k = s.sourceBit k :=
  congrArg (fun b : Byte => b.getLsbD (7 - k % 8)) (Memory.read_write_ne v h)

namespace State.Inv

/-- Between two iterations only DECODING is BUSY (R28). -/
theorem decoding_of_busy (h : s.Inv) (hb : s.busy = true) : s.ESTATE = .decoding := by
  unfold State.busy at hb
  obtain he | he | he | he := h.boundary
  case inr.inl => exact he
  all_goals
    rw [he] at hb
    cases hb

/-- A reset of a running call draws only bytes of its output range, which exists (R64, R261). -/
theorem abandonOutput_fit (h : s.Inv) :
    Memory.wf s.abandonOutput.OUTMEM ∧ ∀ c ∈ s.abandonOutput.OUTMEM, c.1 < s.params.outCapacity := by
  obtain ⟨-, hout, -, houtIn⟩ := h.memories
  unfold State.abandonOutput
  split
  · next hb =>
    refine ⟨Memory.wf_scramble hout _ _, fun c hc => ?_⟩
    obtain hlt | hc := Memory.mem_scramble hc
    · exact Nat.lt_of_lt_of_le hlt (h.admitted (h.decoding_of_busy hb)).2
    · exact houtIn c hc
  · exact ⟨hout, houtIn⟩

theorem hardReset (h : s.Inv) : (Machine.hardReset s).Inv := by
  obtain ⟨hsrc, -, hsrcIn, -⟩ := h.memories
  refine inv_reset_with ?_ ?_ ?_
  · rw [abandonOutput_params]
    exact h.params
  · rw [abandonOutput_SRCMEM, abandonOutput_params]
    exact ⟨hsrc, hsrcIn⟩
  · rw [abandonOutput_params]
    exact h.abandonOutput_fit

/-! ### START -/

theorem latch_endCall (h : s.Inv) {code : Condition} {info : Word} {e : EState}
    (hb : (s.latch.endCall code info e).AtIterationBoundary) (hc : (s.latch.endCall code info e).ConditionFits)
    (ha : e = .decoding → s.latch.Admitted) : (s.latch.endCall code info e).Inv := by
  obtain ⟨htable, hlengths, -, hdir, -, -⟩ := h.params
  exact { h with
    registers := ⟨s.SRC_OFFSET.isLt, s.SRC_LENGTH.isLt, s.UNPACKED_LENGTH.isLt, Nat.zero_le _, by simp, Nat.zero_le _⟩
    table := htable
    lengths := hlengths
    directory := hdir
    staged := fun _ => Nat.zero_le 7
    boundary := hb
    condition := hc
    admitted := ha
    fromSource := fun _ => ⟨Nat.zero_le _, fun j hj => absurd hj (Nat.not_lt_zero j)⟩ }

theorem latch (h : s.Inv) (ha : s.latch.Admitted) : s.latch.Inv :=
  h.latch_endCall (code := .none) (info := 0) (e := .decoding) (.inr (.inl rfl))
    ⟨fun _ => rfl, by simp, by simp, fun _ => rfl⟩ fun _ => ha

theorem configFault (h : s.Inv) (info : Word) : (s.latch.endCall .configFault info .error).Inv :=
  h.latch_endCall (.inr (.inr (.inr rfl))) ⟨by simp, by simp, fun _ => rfl, by simp⟩ fun he => by cases he

/-! ### Writes of the memories -/

/-- A write outside the running call's source range changes none of the bytes that are staged (R71, R40). -/
theorem storeSrc (h : s.Inv) {a : Nat} (v : Byte) (ha : a < s.params.srcSize)
    (hfree : s.busy = true → ¬(s.OFF ≤ a ∧ a < s.OFF + s.END)) :
    ({ s with SRCMEM := Memory.write s.SRCMEM a v } : State).Inv :=
  { h with
    memories := by
      obtain ⟨hsrc, hout, hsrcIn, houtIn⟩ := h.memories
      refine ⟨Memory.wf_write hsrc a v, hout, fun c hc => ?_, houtIn⟩
      obtain ⟨rfl, -⟩ | hc := Memory.mem_write hc
      · exact ha
      · exact hsrcIn c hc
    fromSource := fun hd => by
      obtain ⟨-, -, -, hpos, -, -⟩ := h.registers
      obtain ⟨hv, hbits⟩ := h.fromSource hd
      have hbusy : s.busy = true := by
        rw [State.busy, show s.ESTATE = .decoding from hd]
        rfl
      have hout := hfree hbusy
      refine ⟨hv, fun j (hj : j < s.V) => ?_⟩
      have hne : s.OFF + (8 * s.POS - 1 - j) / 8 ≠ a := by omega
      exact (hbits j hj).trans (sourceBit_write v hne).symm }

theorem storeOut (h : s.Inv) {p : Nat} (v : Byte) (hp : p < s.params.outCapacity) :
    ({ s with OUTMEM := Memory.write s.OUTMEM p v } : State).Inv :=
  { h with
    memories := by
      obtain ⟨hsrc, hout, hsrcIn, houtIn⟩ := h.memories
      refine ⟨hsrc, Memory.wf_write hout p v, hsrcIn, fun c hc => ?_⟩
      obtain ⟨rfl, -⟩ | hc := Memory.mem_write hc
      · exact hp
      · exact houtIn c hc }

/-! ### Turns -/

theorem withLenient (h : s.Inv) (b : Bool) : (s.withLenient b).Inv := { h with }

theorem turnTaken (h : s.Inv) : s.turnTaken.Inv := { h with }

theorem hostEffect (h : s.Inv) (he : HostEffect s t) : t.Inv := by
  cases he with
  | registers lenient off len ul => exact { h with }
  | sees w d => exact { h with }
  | begins lenient hb hp ha => exact (h.withLenient lenient).latch ha
  | rejects lenient hb hp ha => exact (h.withLenient lenient).configFault _
  | storesSrc a v ha hfree => exact h.storeSrc v ha hfree
  | storesOut p v hp hfree => exact h.storeOut v hp
  | resets => exact h.hardReset

end State.Inv

/-- Settles O49: a turn of the engine by `engineTurn_inv`, a turn of the host by the effects it can have. -/
theorem everyStepKeepsTheInvariant : Obligations.EveryStepKeepsTheInvariant := by
  intro s t h hstep
  cases hturn : s.nextTurn with
  | engine => exact engineTurn_inv h.turnTaken (step_of_engineTurn hturn ▸ hstep)
  | host a => exact h.turnTaken.hostEffect (hostTurn_effect (step_of_hostTurn hturn ▸ hstep))

end Sys2Proof.Machine
end

section
/-! The engine never stops: in a running call every computation of the engine answers, with a value or with the end of the call
(R64, R84, R102). -/
namespace Sys2Proof.Machine

variable {s : State} {α β : Type}

/-- `m` answers in `s`: it yields a value or ends the call, so that it makes no access outside a memory and meets no case without
a meaning. -/
def Answers (m : Engine α) (s : State) : Prop :=
  (∃ a s', m s = .ok a s') ∨ ∃ s', m s = .error .callEnded s'

theorem Answers.bind {m : Engine α} {f : α → Engine β} (hm : Answers m s)
    (hf : ∀ a s', m s = .ok a s' → Answers (f a) s') : Answers (m >>= f) s := by
  obtain ⟨a, s', h⟩ | ⟨s', h⟩ := hm
  · rw [Answers, bind_of_ok h]
    exact hf a s' h
  · exact .inr ⟨s', bind_of_error h⟩

theorem Answers.outcomeOf {m : Engine Unit} (hm : Answers m s) : ∃ t, outcomeOf m s = .next t := by
  obtain ⟨_, s', h⟩ | ⟨s', h⟩ := hm
  · exact ⟨s', outcomeOf_ok h⟩
  · exact ⟨s', outcomeOf_ended h⟩

/-- A read answers where the staging register has room and the source range exists (R102, R64). -/
theorem Answers.read {n : Nat} (hn : n ≤ 24) (h : s.Readable) : Answers (Machine.read n) s := by
  obtain ⟨hv, hr⟩ := h
  by_cases hlen : n ≤ s.unread.length
  · obtain ⟨s', hrun, -⟩ := read_ok hn hv hr hlen
    exact .inl ⟨_, s', hrun⟩
  · obtain ⟨s', -, -, hrun⟩ := read_underflow hn hv hr (Nat.lt_of_not_le hlen)
    unfold Answers
    rw [hrun]
    cases s.LEN
    · exact .inr ⟨_, rfl⟩
    · exact .inl ⟨_, _, rfl⟩

/-- The table construction answers: the description is read to its end, or ends the call (R122 to R125). -/
theorem Answers.buildTable (h : s.Readable) : Answers Machine.buildTable s := by
  obtain ⟨hv, hr⟩ := h
  have hspec := buildTable_spec hv hr
  split at hspec
  · obtain ⟨s', t, hrun, -⟩ := hspec
    exact .inl ⟨_, _, hrun⟩
  · obtain ⟨r, hrun, -⟩ := hspec
    exact .inr ⟨r, hrun⟩

namespace State.Running

variable {e : EState}

theorem readable (h : s.Running e) : s.Readable := by
  obtain ⟨-, -, -, -, hv, -⟩ := h.registers
  exact ⟨hv, h.admitted.1⟩

/-- An output offset below the cursor exists (R64). -/
theorem lt_outCapacity {p : Nat} (h : s.Running e) (hp : p < s.WO) : p < s.params.outCapacity := by
  obtain ⟨-, -, -, -, -, hwo⟩ := h.registers
  exact Nat.lt_of_lt_of_le (Nat.lt_of_lt_of_le hp hwo) h.admitted.2

/-- While the output is not full, the offset at the cursor exists (R64). -/
theorem WO_lt_outCapacity (h : s.Running e) (hfull : s.WO ≠ s.UL) : s.WO < s.params.outCapacity := by
  obtain ⟨-, -, -, -, -, hwo⟩ := h.registers
  exact Nat.lt_of_lt_of_le (Nat.lt_of_le_of_ne hwo hfull) h.admitted.2

end State.Running

/-! ### The engine's computations -/

/-- In every state of a running call, in the engine state `e`, `m` answers. -/
def AnswersIn (e : EState) (m : Engine α) : Prop := ∀ s, s.Running e → Answers m s

/-- In a running call `m` answers, and leaves the engine state `e'` where it yields a value. -/
structure SafelyRunsTo (e e' : EState) (m : Engine α) : Prop where
  runs    : RunsTo e e' m
  answers : AnswersIn e m

variable {e e' : EState}

/-- A computation that runs to `e'` hands a running call on to what follows it. -/
theorem RunsTo.of_ok {m : Engine α} {a : α} {s' : State} (hm : RunsTo e e' m) (h : s.Running e) (hrun : m s = .ok a s') :
    s'.Running e' :=
  (wp_ok hrun).mp (hm s h)

theorem AnswersIn.bind {m : Engine α} {f : α → Engine β} (hm : SafelyRunsTo e e' m) (hf : ∀ a, AnswersIn e' (f a)) :
    AnswersIn e (m >>= f) := fun s h =>
  (hm.answers s h).bind fun a s' hrun => hf a s' (hm.runs.of_ok h hrun)

theorem AnswersIn.pure (a : α) : AnswersIn e (Pure.pure a : Engine α) := fun s _ => .inl ⟨a, s, rfl⟩

theorem AnswersIn.update (f : State → State) : AnswersIn e (modify f : Engine Unit) := fun s _ => .inl ⟨(), f s, rfl⟩

theorem AnswersIn.raise (c : Condition) (w : Word) : AnswersIn e (Machine.raise c w : Engine α) :=
  fun _ _ => .inr ⟨_, rfl⟩

theorem AnswersIn.finish (c : Condition) (w : Word) : AnswersIn e (Machine.finish c w : Engine α) :=
  fun _ _ => .inr ⟨_, rfl⟩

theorem AnswersIn.raisePrematureEOF : AnswersIn e (Machine.raisePrematureEOF : Engine α) :=
  fun _ _ => .inr ⟨_, rfl⟩

namespace SafelyRunsTo

theorem get : SafelyRunsTo e e (MonadState.get : Engine State) := ⟨.get, fun s _ => .inl ⟨s, s, rfl⟩⟩

theorem withEState (e e' : EState) : SafelyRunsTo e e' (modify (·.withEState e')) := ⟨.withEState e e', .update _⟩

theorem read {n : Nat} (hn : n ≤ 24) : SafelyRunsTo e e (Machine.read n) := ⟨.read hn, fun _ h => .read hn h.readable⟩

theorem longLength (k : BitVec 3) (sel : Selector) : SafelyRunsTo e e (Machine.longLength k sel) :=
  ⟨.longLength k sel,
    .bind .get fun s => .bind (.read (s.params.lengthTable.entry k sel).extraBits.is_le) fun _ => .pure _⟩

theorem distance : SafelyRunsTo e e Machine.distance :=
  ⟨.distance, .bind (.read (by omega)) fun _ => .bind .get fun _ => .bind (.read (by omega)) fun _ =>
    .bind (.read (lowWidth_le _ _)) fun _ => .bind .get fun _ => .pure _⟩

/-- A source byte of a copy is below the cursor, or ends the call (R191). -/
theorem getByte (p : Int) : SafelyRunsTo e e (Machine.getByte p) where
  runs _ h := (wp_getByte p).mpr ⟨fun _ => h.inv_raise rfl _, fun _ _ => h⟩
  answers s h := by
    by_cases hout : p < 0 ∨ p ≥ s.WO
    · exact .inr ⟨_, if_pos hout⟩
    · have hp : p.toNat < s.params.outCapacity := h.lt_outCapacity (by omega)
      exact .inl ⟨_, s, (if_neg hout).trans (if_pos hp)⟩

theorem setByte (v : Byte) (remaining : Nat) : SafelyRunsTo e e (Machine.setByte v remaining) where
  runs := .setByte v remaining
  answers s h := by
    by_cases hfull : s.WO = s.UL
    · exact .inr ⟨_, if_pos hfull⟩
    · exact .inl ⟨(), s.emit v, (if_neg hfull).trans (if_pos (h.WO_lt_outCapacity hfull))⟩

theorem copy (n : Nat) (src : Int) : SafelyRunsTo e e (Machine.copy n src) where
  runs := .copy n src
  answers := by
    induction n generalizing src with
    | zero => exact .pure ()
    | succ n ih => exact .bind (.getByte src) fun b => .bind (.setByte b (n + 1)) fun _ => ih (src + 1)

theorem reorder : SafelyRunsTo e e (reorderBy Config.reorder) := ⟨.reorder, .update _⟩

theorem buildTable : SafelyRunsTo e e Machine.buildTable := ⟨.buildTable, fun _ h => .buildTable h.readable⟩

theorem loopTop : SafelyRunsTo e e Machine.loopTop where
  runs := .loopTop
  answers := .bind .get fun s₁ => by
    split
    · exact .finish _ _
    split
    · exact .raisePrematureEOF
    split
    · exact .raise _ _
    · exact fun _ _ => .inl ⟨(), s₁.countIteration, rfl⟩

end SafelyRunsTo

/-- What follows a resolved index answers if it does for every symbol below `0x112`, since the directory yields no other
(R84, R141). -/
theorem AnswersIn.resolve_bind {f : Symbol → Engine β} (idx : Nat) (hf : ∀ y, y.toNat < nsym → AnswersIn e (f y)) :
    AnswersIn e (resolve idx >>= f) := fun s h => by
  by_cases hidx : idx < nsym
  · have hrun : resolve idx s = .ok s.DIR.ASSIGN[idx] s := dif_pos hidx
    rw [Answers, bind_of_ok hrun]
    exact hf _ (assign_lt h.directory hidx) s h
  · exact .inr ⟨_, bind_of_error (dif_neg hidx)⟩

theorem AnswersIn.fetch : AnswersIn e Machine.fetch := by
  refine .bind (.read (by omega)) fun v => .bind .get fun s => .bind (.read (lenAt_le _ _)) fun off =>
    .resolve_bind _ fun sym hsym => ?_
  obtain ⟨i, hi⟩ := decodeSymbol_ok_of_lt (BitVec.ofNat 4 v) hsym
  rw [hi]
  exact .bind ⟨.recordUse sym, .update _⟩ fun _ => .pure i

theorem AnswersIn.nextInstr : AnswersIn e Machine.nextInstr := .bind .loopTop fun _ => .fetch

/-! ### Instructions and turns -/

theorem AnswersIn.outcomeOf {m : Engine Unit} (hm : AnswersIn e m) (h : s.Running e) : ∃ t, outcomeOf m s = .next t :=
  (hm s h).outcomeOf

/-- In a running call every instruction answers. -/
theorem exec_answers (i : Instr) (h : s.Running .decoding) : ∃ t, exec i s = .next t := by
  cases i with
  | lit b => exact (SafelyRunsTo.setByte b 1).answers.outcomeOf h
  | matchShort k =>
    refine AnswersIn.outcomeOf ?_ h
    exact .bind (.withEState _ _) fun _ => .bind .distance fun _ => .bind (.copy _ _) fun _ => .update _
  | matchLong k sel =>
    refine AnswersIn.outcomeOf ?_ h
    exact .bind (.withEState _ _) fun _ => .bind (.longLength k sel) fun _ => .bind .distance fun _ =>
      .bind (.copy _ _) fun _ => .update _
  | tableSwap =>
    refine AnswersIn.outcomeOf ?_ h
    exact .bind (.withEState _ _) fun _ => .bind .reorder fun _ => .bind .buildTable fun _ => .update _
  | endSegment =>
    refine AnswersIn.outcomeOf ?_ h
    refine .bind (.withEState _ _) fun _ => .bind .get fun s₁ => ?_
    split
    · exact fun s₂ _ => .inl ⟨(), s₂.realign.withEState .decoding, rfl⟩
    split
    · exact .finish _ _
    · exact .finish _ _

/-- A turn of the engine answers: outside a call it changes nothing (R232), in a call the loop top and the symbol decode answer,
and so does the instruction they yield. -/
theorem engineTurn_answers (h : s.Inv) : ∃ t, engineTurn s = .next t := by
  obtain he | he | he | he := h.boundary
  case inr.inl =>
    have hr := h.running he
    rw [engineTurn_decoding he]
    obtain ⟨i, s', hrun⟩ | ⟨s', hrun⟩ := AnswersIn.nextInstr s hr
    · rw [hrun]
      exact exec_answers i (RunsTo.nextInstr.of_ok hr hrun)
    · rw [hrun]
      exact ⟨s', rfl⟩
  all_goals exact ⟨s, by rw [engineTurn, he]⟩

/-- Settles O50: a turn of the engine is `engineTurn` in a state that still meets the invariant. -/
theorem engineNeverStops : Obligations.EngineNeverStops := by
  intro s h hturn
  rw [SafeStep, step_of_engineTurn hturn]
  exact engineTurn_answers h.turnTaken

end Sys2Proof.Machine
end

section
/-! The statements about the host's accesses to the register block and the two memories. -/
namespace Sys2Proof.Machine

variable {s : State}

theorem accessRegister_misaligned {offset width : Nat} (h : width ≠ 4 ∨ offset % 4 ≠ 0)
    (effect : State → Host.Outcome State Fault Refusal) (s : State) :
    accessRegister offset width effect s = .refused (.misalignedRegister offset width) := if_pos h

/-- Settles O19: the alignment is tested before anything else (log 16). -/
theorem otherRegisterAccessesAreRefused : Obligations.OtherRegisterAccessesAreRefused := by
  intro s offset width v h
  exact ⟨accessRegister_misaligned h (writeWord offset v) s,
    accessRegister_misaligned h (fun s => .next (readWord offset s)) s⟩

theorem hostWriteSrc_refused {a : Nat} (v : Byte) (ha : a < s.params.srcSize)
    (hr : s.busy = true ∧ s.OFF ≤ a ∧ a < s.OFF + s.END) :
    hostWriteSrc a v s = .refused (.memoryWriteWhileBusy a) := by
  rw [hostWriteSrc, if_neg (Nat.not_le.mpr ha), if_pos hr]

theorem hostWriteSrc_lands {a : Nat} (v : Byte) (ha : a < s.params.srcSize)
    (hr : ¬(s.busy = true ∧ s.OFF ≤ a ∧ a < s.OFF + s.END)) :
    hostWriteSrc a v s = .next { s with SRCMEM := Memory.write s.SRCMEM a v } := by
  rw [hostWriteSrc, if_neg (Nat.not_le.mpr ha), if_neg hr]

theorem hostWriteOut_refused {p : Nat} (v : Byte) (hp : p < s.params.outCapacity) (hr : s.busy = true ∧ p < s.UL) :
    hostWriteOut p v s = .refused (.memoryWriteWhileBusy p) := by
  rw [hostWriteOut, if_neg (Nat.not_le.mpr hp), if_pos hr]

theorem hostWriteOut_lands {p : Nat} (v : Byte) (hp : p < s.params.outCapacity) (hr : ¬(s.busy = true ∧ p < s.UL)) :
    hostWriteOut p v s = .next { s with OUTMEM := Memory.write s.OUTMEM p v } := by
  rw [hostWriteOut, if_neg (Nat.not_le.mpr hp), if_neg hr]

theorem hostReadOut_idle {p : Nat} (hb : s.busy = false) (hp : p < s.params.outCapacity) :
    hostReadOut p s = .next (s.withLastRead ((Memory.read s.OUTMEM p).zeroExtend 32)) := by
  rw [hostReadOut, if_neg (Nat.not_le.mpr hp), if_neg (Bool.not_eq_true _ ▸ hb)]

/-- Settles O20: a write that lands is a `Memory.write`, which a read sees at its address and nowhere else. -/
theorem hostMemoryWrites : Obligations.HostMemoryWrites := by
  intro s a v hsrc hout
  refine ⟨fun ha => ⟨hostWriteSrc_refused v ha, fun hr => ?_⟩, fun ha => ⟨hostWriteOut_refused v ha, fun hr => ?_⟩⟩
  · exact ⟨_, hostWriteSrc_lands v ha hr, rfl, Memory.read_write_same hsrc a v, fun _ hne => Memory.read_write_ne v hne⟩
  · exact ⟨_, hostWriteOut_lands v ha hr, rfl, Memory.read_write_same hout a v, fun _ hne => Memory.read_write_ne v hne⟩

/-- Settles O21: outside a call `OUTMEM` is read as it stands. -/
theorem hostReadsTheOutput : Obligations.HostReadsTheOutput := by
  intro s p hb hp
  exact hostReadOut_idle hb hp

end Sys2Proof.Machine
end

section
/-! The slots of a well-formed table and the indices of a permutation: which selector and index the encoder finds (R89, R120). -/
namespace Sys2Proof

variable {t : Table} {d : Directory} {sel sel' : Selector} {idx : Nat}

/-! ### Slots -/

theorem cumulativeBase_succ (len : Vector (Fin 25) 16) {s : Nat} (h : s < 16) :
    cumulativeBase len (s + 1) = cumulativeBase len s + 2 ^ len[s].val := by
  have hs : s < len.toList.length := by simpa using h
  simp [cumulativeBase, List.take_succ_eq_append_getElem hs]

/-- The slots before slot `s` end at or before its base. -/
theorem cumulativeBase_mono (len : Vector (Fin 25) 16) {r s : Nat} (h : r ≤ s) :
    cumulativeBase len r ≤ cumulativeBase len s :=
  ((List.take_sublist_take_left h).map _).sum_le_sum fun _ _ => Nat.zero_le _

theorem Table.WF.baseAt_eq (ht : t.WF) (sel : Selector) : t.baseAt sel = cumulativeBase t.len sel.toNat :=
  ht ⟨sel.toNat, sel.isLt⟩

/-- A slot ends at or before the base of every later slot (R120). -/
theorem Table.WF.slot_end_le (ht : t.WF) (h : sel.toNat < sel'.toNat) :
    t.baseAt sel + 2 ^ t.lenAt sel ≤ t.baseAt sel' := by
  rw [ht.baseAt_eq, ht.baseAt_eq, Table.lenAt, ← cumulativeBase_succ t.len sel.isLt]
  exact cumulativeBase_mono t.len h

/-- The slots of a well-formed table are disjoint (R128 (b)). -/
theorem Table.WF.covers_unique (ht : t.WF) (h : t.Covers sel idx) (h' : t.Covers sel' idx) : sel = sel' := by
  obtain ⟨hlow, hhigh⟩ := h
  obtain ⟨hlow', hhigh'⟩ := h'
  refine BitVec.eq_of_toNat_eq ?_
  obtain hlt | heq | hlt := Nat.lt_trichotomy sel.toNat sel'.toNat
  · have := ht.slot_end_le hlt
    omega
  · exact heq
  · have := ht.slot_end_le hlt
    omega

/-- The encoder finds the slot that holds the index. -/
theorem Table.WF.slotOf_of_covers (ht : t.WF) (h : t.Covers sel idx) : t.slotOf idx = some sel := by
  have hmem : sel ∈ (List.range 16).map (BitVec.ofNat 4) :=
    List.mem_map.mpr ⟨sel.toNat, List.mem_range.mpr sel.isLt, by simp⟩
  cases hs : t.slotOf idx with
  | none => exact absurd h (by simpa using List.find?_eq_none.mp hs sel hmem)
  | some s =>
    have hcov : t.Covers s idx := by simpa using List.find?_some hs
    rw [ht.covers_unique hcov h]

/-! ### Indices -/

/-- The encoder finds the index of a symbol. -/
theorem Directory.WF.indexOf_ASSIGN (hd : d.WF) (h : idx < nsym) : d.indexOf d.ASSIGN[idx] = some idx := by
  refine List.findIdx?_eq_some_iff_getElem.mpr ⟨by simpa using h, by simp, fun j hj => ?_⟩
  have hne : d.ASSIGN[j] ≠ d.ASSIGN[idx] := fun heq => by
    have := assign_injective hd (by omega) h heq
    omega
  simpa using hne

end Sys2Proof
end

section
/-! What the decoder makes of bits, as equivalences with what the encoder writes: bits decode to fields exactly when they are the
fields written out, and the rest (R80, R85, R88). -/
namespace Sys2Proof

variable {p : Params} {t : Table} {d : Directory} {bits rest : List Bool}

theorem takeBits_eq_some_iff {n v : Nat} : takeBits n bits = some (v, rest) ↔ v < 2 ^ n ∧ bits = bitsOf n v ++ rest := by
  refine ⟨fun h => (takeBits_eq_some h).symm, ?_⟩
  rintro ⟨hv, rfl⟩
  exact takeBits_append hv rest

/-! ### The symbol code -/

/-- The selector under which the encoder codes the symbol at an index that a slot holds (R89). -/
theorem selectorOf_of_covers (ht : t.WF) (hd : d.WF) {sel : Selector} {idx : Nat} (hidx : idx < nsym)
    (h : t.Covers sel idx) : selectorOf t d d.ASSIGN[idx] = some sel := by
  rw [selectorOf, hd.indexOf_ASSIGN hidx, Option.bind_some, ht.slotOf_of_covers h]

theorem encodeCode_of_covers (ht : t.WF) (hd : d.WF) {sel : Selector} {idx : Nat} (hidx : idx < nsym)
    (h : t.Covers sel idx) : encodeCode t d d.ASSIGN[idx] =
      some (bitsOf 4 sel.toNat ++ bitsOf (t.lenAt sel) (idx - t.baseAt sel)) := by
  simp only [encodeCode, hd.indexOf_ASSIGN hidx, ht.slotOf_of_covers h]

/-- Bits hold a symbol code exactly when they begin with the selector of a slot and the offset of an index in it (R80). -/
theorem decodeCode_eq_ok {y : Symbol} {sel : Selector} :
    decodeCode t d bits = .ok (y, sel, rest) ↔ ∃ (idx : Nat) (h : idx < nsym), d.ASSIGN[idx] = y ∧ t.Covers sel idx ∧
      bits = bitsOf 4 sel.toNat ++ bitsOf (t.lenAt sel) (idx - t.baseAt sel) ++ rest := by
  constructor
  · intro h
    simp only [decodeCode] at h
    split at h
    · cases h
    next v bits₁ hsel =>
    split at h
    · cases h
    next off bits₂ hoff =>
    split at h
    case isFalse => cases h
    next hidx =>
    cases h
    obtain ⟨hv, rfl⟩ := takeBits_eq_some_iff.mp hsel
    obtain ⟨hlt, rfl⟩ := takeBits_eq_some_iff.mp hoff
    have hnat : (BitVec.ofNat 4 v).toNat = v := Nat.mod_eq_of_lt hv
    refine ⟨_, hidx, rfl, ⟨by omega, by omega⟩, ?_⟩
    rw [hnat, Nat.add_sub_cancel_left, List.append_assoc]
  · rintro ⟨idx, hidx, rfl, ⟨hlow, hhigh⟩, rfl⟩
    have hsel := takeBits_append sel.isLt (bitsOf (t.lenAt sel) (idx - t.baseAt sel) ++ rest)
    have hoff := takeBits_append (w := t.lenAt sel) (n := idx - t.baseAt sel) (by omega) rest
    simp only [decodeCode, List.append_assoc, hsel, BitVec.ofNat_toNat, BitVec.setWidth_eq, hoff,
      Nat.add_sub_cancel' hlow, dif_pos hidx]

/-- Bits hold an instruction's code exactly when they hold the code of a symbol that decodes to it. -/
theorem decodeInstr_eq_ok {i : Instr} :
    decodeInstr t d bits = .ok (i, rest) ↔
      ∃ y sel, decodeCode t d bits = .ok (y, sel, rest) ∧ decodeSymbol y sel = .ok i := by
  unfold decodeInstr
  constructor
  · intro h
    split at h
    · cases h
    next y sel rest' hcode =>
    split at h
    · cases h
    next j hj =>
    cases h
    exact ⟨y, sel, hcode, hj⟩
  · rintro ⟨y, sel, hcode, hj⟩
    simp only [hcode, hj]

/-! ### The distance fields -/

theorem decodeDistance_eq_ok {f : DistanceFields} :
    decodeDistance p bits = .ok (f, rest) ↔ f.WF p ∧ bits = encodeDistance p f ++ rest := by
  constructor
  · intro h
    unfold decodeDistance at h
    split at h
    · cases h
    next ds bits₁ hds =>
    split at h
    · cases h
    next hi bits₂ hhi =>
    split at h
    · cases h
    next lo bits₃ hlo =>
    cases h
    obtain ⟨hds3, rfl⟩ := takeBits_eq_some_iff.mp hds
    obtain ⟨hhi8, rfl⟩ := takeBits_eq_some_iff.mp hhi
    obtain ⟨hfit, rfl⟩ := takeBits_eq_some_iff.mp hlo
    refine ⟨hfit, ?_⟩
    simp only [encodeDistance, BitVec.toNat_ofNat, Nat.mod_eq_of_lt hds3, Nat.mod_eq_of_lt hhi8, List.append_assoc]
  · rintro ⟨hlo, rfl⟩
    simp only [decodeDistance, encodeDistance, List.append_assoc, takeBits_append f.ds.isLt, takeBits_append f.hi.isLt,
      BitVec.ofNat_toNat, BitVec.setWidth_eq, takeBits_append hlo]

/-! ### The unary groups -/

@[simp] theorem encodeGroups_nil : encodeGroups [] = [] := rfl

@[simp] theorem encodeGroups_cons (z : Nat) (zs : List Nat) :
    encodeGroups (z :: zs) = List.replicate z false ++ true :: encodeGroups zs := by
  simp [encodeGroups]

theorem LenCoding.lengthOf_mono (c : LenCoding) (lrun : Nat) {y z : Nat} (h : y ≤ z) :
    c.lengthOf lrun y ≤ c.lengthOf lrun z := by
  cases c
  · exact Nat.add_le_add_left h lrun
  · exact h

/-- A slot without zeros is no longer than the slot before it. -/
theorem LenCoding.lengthOf_zero_le (c : LenCoding) (lrun : Nat) : c.lengthOf lrun 0 ≤ lrun := by
  cases c
  · exact Nat.le_refl lrun
  · exact Nat.zero_le lrun

/-- A group of zeros within `P_MAX_CODE_LEN` is read to its end. -/
theorem decodeGroup_replicate {lrun slot n z : Nat} (hfit : p.lenCoding.lengthOf lrun (z + n) ≤ p.maxCodeLen.val) :
    decodeGroup p lrun slot z (List.replicate n false ++ true :: rest) = .ok (z + n, rest) := by
  induction n generalizing z with
  | zero => rfl
  | succ n ih =>
    have hsum : z + (n + 1) = z + 1 + n := by omega
    rw [hsum] at hfit ⊢
    have hone := Nat.le_trans (p.lenCoding.lengthOf_mono lrun (Nat.le_add_right (z + 1) n)) hfit
    rw [List.replicate_succ, List.cons_append, decodeGroup, if_neg (Nat.not_lt.mpr hone), ih hfit]

/-- What was read as a group is zeros and a one, and the slot's length, where it has a zero, is within `P_MAX_CODE_LEN`. -/
theorem eq_of_decodeGroup {lrun slot z z' : Nat} (h : decodeGroup p lrun slot z bits = .ok (z', rest)) :
    ∃ n, z' = z + n ∧ bits = List.replicate n false ++ true :: rest ∧
      (n = 0 ∨ p.lenCoding.lengthOf lrun z' ≤ p.maxCodeLen.val) := by
  induction bits generalizing z with
  | nil => cases h
  | cons b bits ih =>
    cases b with
    | true =>
      cases h
      exact ⟨0, rfl, rfl, .inl rfl⟩
    | false =>
      rw [decodeGroup] at h
      split at h
      · cases h
      next hone =>
      obtain ⟨n, rfl, rfl, hfit⟩ := ih h
      refine ⟨n + 1, by omega, rfl, .inr ?_⟩
      obtain rfl | hfit := hfit
      · exact Nat.le_of_not_lt hone
      · exact hfit

/-- Where the running length is within `P_MAX_CODE_LEN`, bits hold a unary group exactly when they are its zeros and a one, and
the slot's length is within it as well (R122, R124). -/
theorem decodeGroup_eq_ok {lrun slot z : Nat} (hl : lrun ≤ p.maxCodeLen.val) :
    decodeGroup p lrun slot 0 bits = .ok (z, rest) ↔
      p.lenCoding.lengthOf lrun z ≤ p.maxCodeLen.val ∧ bits = List.replicate z false ++ true :: rest := by
  constructor
  · intro h
    obtain ⟨n, rfl, rfl, hfit⟩ := eq_of_decodeGroup h
    rw [Nat.zero_add] at hfit ⊢
    refine ⟨?_, rfl⟩
    obtain rfl | hfit := hfit
    · exact Nat.le_trans (p.lenCoding.lengthOf_zero_le lrun) hl
    · exact hfit
  · rintro ⟨hfit, rfl⟩
    have h := decodeGroup_replicate (slot := slot) (z := 0) (rest := rest) (by rwa [Nat.zero_add])
    rwa [Nat.zero_add] at h

theorem decodeGroups_eq_ok {slots slot lrun : Nat} {zs : List Nat} (hl : lrun ≤ p.maxCodeLen.val) :
    decodeGroups p slots slot lrun bits = .ok (zs, rest) ↔
      zs.length = slots ∧ (∀ l ∈ slotLengths p.lenCoding lrun zs, l ≤ p.maxCodeLen.val) ∧
        bits = encodeGroups zs ++ rest := by
  induction slots generalizing slot lrun zs bits with
  | zero =>
    simp only [decodeGroups, Except.ok.injEq, Prod.mk.injEq, List.length_eq_zero_iff]
    constructor
    · rintro ⟨rfl, rfl⟩
      exact ⟨rfl, by simp [slotLengths], rfl⟩
    · rintro ⟨rfl, -, rfl⟩
      exact ⟨rfl, rfl⟩
  | succ slots ih =>
    rw [decodeGroups]
    constructor
    · intro h
      split at h
      · cases h
      next z bits₁ hgroup =>
      obtain ⟨hfit, rfl⟩ := (decodeGroup_eq_ok hl).mp hgroup
      split at h
      · cases h
      next zs' bits₂ hgroups =>
      cases h
      obtain ⟨hlen, hall, rfl⟩ := (ih hfit).mp hgroups
      exact ⟨by simp [hlen], List.forall_mem_cons.mpr ⟨hfit, hall⟩, by simp⟩
    · rintro ⟨hlen, hall, rfl⟩
      cases zs with
      | nil => cases hlen
      | cons z zs =>
        obtain ⟨hfit, hall⟩ := List.forall_mem_cons.mp hall
        have hgroup := (decodeGroup_eq_ok (slot := slot) (rest := encodeGroups zs ++ rest) hl).mpr ⟨hfit, rfl⟩
        have hgroups := (ih (slot := slot + 1) hfit).mpr ⟨Nat.succ.inj hlen, hall, rfl⟩
        rw [encodeGroups_cons, List.append_assoc, List.cons_append, hgroup]
        simp only [hgroups]

end Sys2Proof
end

section
/-! Whole instructions: encoding and decoding are inverse to each other (R80, R85, R88, R89). -/
namespace Sys2Proof

variable {p : Params} {t : Table} {d : Directory} {bits rest : List Bool}

/-- A symbol decodes to every instruction that it encodes, a long match under its own selector. -/
theorem decodeSymbol_of_encodeSymbol {i : Instr} {y : Symbol} {sel : Selector} (h : encodeSymbol i = y)
    (hsel : ∀ k sel', i = .matchLong k sel' → sel = sel') : decodeSymbol y sel = .ok i := by
  subst h
  cases i with
  | lit b => exact Laws.SymbolCode.lit b sel hsel
  | matchShort k => exact Laws.SymbolCode.matchShort k sel hsel
  | matchLong k sel' => exact Laws.SymbolCode.matchLong k sel' sel hsel
  | tableSwap => exact Laws.SymbolCode.tableSwap sel hsel
  | endSegment => exact Laws.SymbolCode.endSegment sel hsel

/-- What the dispatch receives of an instruction coded under selector `sel` (R163). -/
def StreamInstr.dispatched (sel : Selector) : StreamInstr → Instr
  | .lit b           => .lit b
  | .matchShort k _  => .matchShort k
  | .matchLong k _ _ => .matchLong k sel
  | .tableSwap _     => .tableSwap
  | .endSegment      => .endSegment

theorem encodeSymbol_dispatched (i : StreamInstr) (sel : Selector) : encodeSymbol (i.dispatched sel) = i.symbol := by
  cases i <;> rfl

/-- An instruction's symbol decodes to what the dispatch receives of it (R82). -/
theorem decodeSymbol_symbol (i : StreamInstr) (sel : Selector) : decodeSymbol i.symbol sel = .ok (i.dispatched sel) := by
  refine decodeSymbol_of_encodeSymbol (encodeSymbol_dispatched i sel) fun k sel' h => ?_
  cases i with
  | matchLong k lx f =>
    cases h
    rfl
  | _ => cases h

/-- The trailing fields of a table swap, read back into a vector. -/
theorem ofFn_getD_toList (zs : Vector Nat 16) : (Vector.ofFn fun s : Fin 16 => zs.toList.getD s.val 0) = zs := by
  ext i hi
  simp

theorem toList_ofFn_getD {zs : List Nat} (h : zs.length = 16) :
    (Vector.ofFn fun s : Fin 16 => zs.getD s.val 0).toList = zs := by
  refine List.ext_getElem (by simp [h]) fun i h₁ h₂ => ?_
  simp [h₂]

/-- Bits that begin with an instruction's symbol code and trailing fields decode to it. -/
theorem decodeStream_of_decodeCode {i : StreamInstr} {sel : Selector} (hfit : i.FieldsFit p sel)
    (hcode : decodeCode t d bits = .ok (i.symbol, sel, encodeTrailing p sel i ++ rest)) :
    decodeStream p t d bits = .ok (i, rest) := by
  have hinstr := decodeInstr_eq_ok.mpr ⟨_, _, hcode, decodeSymbol_symbol i sel⟩
  rw [decodeStream, hinstr]
  cases i with
  | lit b => rfl
  | matchShort k f => simp only [StreamInstr.dispatched, encodeTrailing, decodeDistance_eq_ok.mpr ⟨hfit, rfl⟩]
  | matchLong k lx f =>
    obtain ⟨hlx, hf⟩ := hfit
    simp only [StreamInstr.dispatched, encodeTrailing, List.append_assoc, takeBits_append hlx,
      decodeDistance_eq_ok.mpr ⟨hf, rfl⟩]
  | tableSwap zs =>
    have hgroups := (decodeGroups_eq_ok (slot := 0) (rest := rest) (Nat.zero_le p.maxCodeLen.val)).mpr
      ⟨zs.length_toList, hfit, rfl⟩
    simp only [StreamInstr.dispatched, encodeTrailing, hgroups, ofFn_getD_toList]
  | endSegment => rfl

/-- Bits that decode to an instruction begin with its symbol code and its trailing fields, which fit. -/
theorem decodeCode_of_decodeStream {i : StreamInstr} (h : decodeStream p t d bits = .ok (i, rest)) :
    ∃ sel, i.FieldsFit p sel ∧ decodeCode t d bits = .ok (i.symbol, sel, encodeTrailing p sel i ++ rest) := by
  cases hinstr : decodeInstr t d bits with
  | error e => simp [decodeStream, hinstr] at h
  | ok q =>
    obtain ⟨ins, trailing⟩ := q
    obtain ⟨y, sel, hcode, hins⟩ := decodeInstr_eq_ok.mp hinstr
    obtain rfl := encodeSymbol_of_decodeSymbol hins
    refine ⟨sel, ?_⟩
    rw [hcode]
    simp only [decodeStream, hinstr] at h
    cases ins with
    | lit b | endSegment =>
      cases h
      exact ⟨trivial, rfl⟩
    | matchShort k =>
      simp only at h
      split at h
      · cases h
      next f rest' hdist =>
      cases h
      obtain ⟨hf, rfl⟩ := decodeDistance_eq_ok.mp hdist
      exact ⟨hf, rfl⟩
    | matchLong k sel' =>
      obtain rfl := decodeSymbol_matchLong hins
      simp only at h
      split at h
      · cases h
      next lx rest₁ hlx =>
      split at h
      · cases h
      next f rest₂ hdist =>
      cases h
      obtain ⟨hlx', rfl⟩ := takeBits_eq_some_iff.mp hlx
      obtain ⟨hf, rfl⟩ := decodeDistance_eq_ok.mp hdist
      refine ⟨⟨hlx', hf⟩, ?_⟩
      rw [encodeTrailing, List.append_assoc]
      rfl
    | tableSwap =>
      simp only at h
      split at h
      · cases h
      next zs rest' hgroups =>
      cases h
      obtain ⟨hlen, hfit, rfl⟩ := (decodeGroups_eq_ok (Nat.zero_le _)).mp hgroups
      have hzs := toList_ofFn_getD hlen
      refine ⟨?_, ?_⟩
      · rw [StreamInstr.FieldsFit, hzs]
        exact hfit
      · rw [encodeTrailing, hzs]
        rfl

/-- The code of an instruction whose symbol stands at an index that a slot holds. -/
theorem encode_of_covers (ht : t.WF) (hd : d.WF) {i : StreamInstr} {sel : Selector} {idx : Nat} (hidx : idx < nsym)
    (hsym : d.ASSIGN[idx] = i.symbol) (hcov : t.Covers sel idx) :
    encode p t d i =
      some (bitsOf 4 sel.toNat ++ bitsOf (t.lenAt sel) (idx - t.baseAt sel) ++ encodeTrailing p sel i) := by
  rw [encode, ← hsym, selectorOf_of_covers ht hd hidx hcov, encodeCode_of_covers ht hd hidx hcov]
  rfl

/-- Settles O3: the slot that the instruction is well-formed under is the one the encoder finds, and the decoder reads its code
and its fields back. -/
theorem decodeOfEncode : Obligations.DecodeOfEncode := by
  rintro p t d i rest ht hd ⟨sel, ⟨idx, hsym, hcov⟩, hfit⟩
  refine ⟨_, encode_of_covers ht hd idx.isLt hsym hcov, decodeStream_of_decodeCode hfit ?_⟩
  exact decodeCode_eq_ok.mpr ⟨idx, idx.isLt, hsym, hcov, by rw [List.append_assoc]⟩

/-- Settles O4: the slot that the bits name is the one the encoder finds, and the fields read are the fields written. -/
theorem encodeOfDecode : Obligations.EncodeOfDecode := by
  intro p t d i bits rest ht hd h
  obtain ⟨sel, -, hcode⟩ := decodeCode_of_decodeStream h
  obtain ⟨idx, hidx, hsym, hcov, rfl⟩ := decodeCode_eq_ok.mp hcode
  exact ⟨_, encode_of_covers ht hd hidx hsym hcov, by rw [List.append_assoc _ (encodeTrailing p sel i)]⟩

end Sys2Proof
end

section
/-! The distance as one number (R87, R194). -/
namespace Sys2Proof.Machine

/-- The low part of a distance fits below the high part, so that the bitwise or of the two is their sum. -/
theorem or_shiftLeft_eq_add {lo w : Nat} (hi : Nat) (h : lo < 2 ^ w) : lo ||| hi <<< w = hi * 2 ^ w + lo := by
  rw [Nat.or_comm, ← Nat.shiftLeft_add_eq_or_of_lt h, Nat.shiftLeft_eq]

/-- Settles O6: the value by `or_shiftLeft_eq_add`, the bound since `hi` has 8 bits, the width since a table's extra bits are at
most 23. -/
theorem distanceIsOneNumber : Obligations.DistanceIsOneNumber := by
  intro p f hf
  have hlo : f.lo < 2 ^ p.lowWidth f.ds := hf
  have hw := lowWidth_le p f.ds
  refine ⟨?_, ?_, rfl, by omega⟩
  · rw [fieldsDistance, distanceOf, or_shiftLeft_eq_add _ hlo, Nat.shiftLeft_eq]
  · calc f.hi.toNat * 2 ^ p.lowWidth f.ds + f.lo
        < (f.hi.toNat + 1) * 2 ^ p.lowWidth f.ds := by rw [Nat.add_one_mul]; omega
      _ ≤ 2 ^ 8 * 2 ^ p.lowWidth f.ds := Nat.mul_le_mul_right _ f.hi.isLt
      _ = 2 ^ (8 + p.lowWidth f.ds) := (Nat.pow_add 2 8 _).symm

end Sys2Proof.Machine
end

section
/-! The only illegal encoding: an index at or above `0x112` (R83). -/
namespace Sys2Proof

variable {t : Table} {d : Directory} {bits rest : List Bool} {idx : Nat}

/-- The two ways in which bits hold no symbol code (R80, R83). -/
theorem decodeCode_error {e : DecodeError} (h : decodeCode t d bits = .error e) :
    e = .truncated ∨ ∃ idx rest, nsym ≤ idx ∧ e = .outOfSync idx rest := by
  simp only [decodeCode] at h
  split at h
  · cases h
    exact .inl rfl
  split at h
  · cases h
    exact .inl rfl
  split at h
  · cases h
  next hidx =>
  cases h
  exact .inr ⟨_, _, Nat.le_of_not_lt hidx, rfl⟩

/-- The symbol of a code is one the directory assigns. -/
theorem symbol_lt_of_decodeCode (hd : d.WF) {y : Symbol} {sel : Selector} (h : decodeCode t d bits = .ok (y, sel, rest)) :
    y.toNat < nsym := by
  obtain ⟨idx, hidx, rfl, -, -⟩ := decodeCode_eq_ok.mp h
  exact assign_lt hd hidx

/-- Bits hold no instruction's code when they hold no symbol code, or a symbol that does not decode. -/
theorem decodeInstr_error {e : DecodeError} (h : decodeInstr t d bits = .error e) :
    decodeCode t d bits = .error e ∨
      ∃ y sel rest, decodeCode t d bits = .ok (y, sel, rest) ∧ decodeSymbol y sel = .error e := by
  unfold decodeInstr at h
  split at h
  next hcode =>
    cases h
    exact .inl hcode
  next y sel rest hcode =>
    split at h
    · next hsym =>
      cases h
      exact .inr ⟨y, sel, rest, hcode, hsym⟩
    · cases h

theorem nsym_le_of_decodeInstr_outOfSync (h : decodeInstr t d bits = .error (.outOfSync idx rest)) : nsym ≤ idx := by
  obtain hcode | ⟨y, sel, _, -, hsym⟩ := decodeInstr_error h
  · obtain he | ⟨_, _, hidx, he⟩ := decodeCode_error hcode
    · cases he
    · cases he
      exact hidx
  · cases (decodeSymbol_error hsym).1

theorem decodeInstr_nil : decodeInstr t d [] = .error .truncated := rfl

end Sys2Proof

namespace Sys2Proof.Machine

variable {s : State} {idx : Nat} {rest : List Bool}

/-- A turn of the engine in a running call with an illegal index ahead (R83). -/
theorem engineTurn_outOfSync (he : s.ESTATE = .decoding) (hw : s.WO ≠ s.UL) (hc : s.capReached = false) (hr : s.Readable)
    (h : decodeInstr s.T s.DIR s.unread = .error (.outOfSync idx rest)) :
    ∃ s', engineTurn s = .next (s'.endCall .outOfSyncSymbol (BitVec.ofNat 32 idx) .error) ∧
      CursorOnly s.countIteration s' ∧ s'.unread = rest ∧ (s.V ≤ 7 → s'.V ≤ 7) := by
  have hne : s.unread ≠ [] := fun hnil => by
    rw [hnil, decodeInstr_nil] at h
    cases h
  obtain ⟨s', hfetch, hcursor, hunread, hstaged⟩ := fetch_outOfSync (s := s.countIteration) hr.1 hr.2 h
  refine ⟨s', ?_, hcursor, hunread, hstaged⟩
  rw [engineTurn_decoding he, nextInstr_of_begins hw (not_sourceEof_of_unread hne) hc, hfetch]

/-- Settles O28: a directory that is a permutation assigns only symbols that decode, which leaves the two errors of a symbol code;
the turn is `engineTurn_outOfSync`. -/
theorem illegalIndexEndsTheCall : Obligations.IllegalIndexEndsTheCall := by
  refine ⟨fun t d bits e hd h => ?_, fun s idx rest hturn he hw hc hr h => ⟨nsym_le_of_decodeInstr_outOfSync h, ?_⟩⟩
  · obtain hcode | ⟨y, sel, rest, hcode, hsym⟩ := decodeInstr_error h
    · exact decodeCode_error hcode
    · exact absurd (decodeSymbol_error hsym).2 (Nat.not_le.mpr (symbol_lt_of_decodeCode hd hcode))
  · obtain ⟨s', hrun, hcursor, hunread, hstaged⟩ := engineTurn_outOfSync (s := s.turnTaken) he hw hc hr h
    refine ⟨_, (step_of_engineTurn hturn).trans hrun, hunread, fun hV => ?_, ?_⟩
    · exact (sourceLeft_of_tail (hstaged hV)).trans (by rw [hunread])
    · obtain ⟨x, p, v, rfl⟩ := hcursor.eq
      rfl

end Sys2Proof.Machine
end

section
/-! The opcode table and the codes of the test configuration (R82; 95_test_vectors.md section 1). -/
namespace Sys2Proof

/-- A symbol that matches a row of the opcode table is the row's fixed bits with its fields in place (R82). -/
theorem encodeSymbol_of_mask : ∀ (y : Symbol) (sel : Selector),
    (y &&& 0x100 = 0x000 → encodeSymbol (.lit (y.extractLsb' 0 8)) = y) ∧
    (y &&& 0x1F8 = 0x100 → encodeSymbol (.matchShort (y.extractLsb' 0 3)) = y) ∧
    (y &&& 0x1F8 = 0x108 → encodeSymbol (.matchLong (y.extractLsb' 0 3) sel) = y) ∧
    (y &&& 0x1FF = 0x110 → encodeSymbol .tableSwap = y) ∧
    (y &&& 0x1FF = 0x111 → encodeSymbol .endSegment = y) := by
  decide +kernel

/-- Settles O1: a row's symbol is one that the encoder writes, and the dispatch reads it back. -/
theorem symbolClassesAreTheOpcodeTable : Obligations.SymbolClassesAreTheOpcodeTable := by
  intro y sel
  obtain ⟨hlit, hshort, hlong, hswap, hend⟩ := encodeSymbol_of_mask y sel
  exact ⟨fun h => decodeSymbol_of_encodeSymbol (hlit h) (by simp),
    fun h => decodeSymbol_of_encodeSymbol (hshort h) (by simp),
    fun h => decodeSymbol_of_encodeSymbol (hlong h) (by simp),
    fun h => decodeSymbol_of_encodeSymbol (hswap h) (by simp),
    fun h => decodeSymbol_of_encodeSymbol (hend h) (by simp)⟩

/-- Settles O2: the decoder run on each of the seven codes. -/
theorem writtenCodesDecode : Obligations.WrittenCodesDecode := by
  unfold Obligations.WrittenCodesDecode
  decide +kernel

end Sys2Proof
end

section
/-! The staged reader against the abstract cursor of R110: the bits ahead of the cursor are the source's from the cursor on. -/
namespace Sys2Proof

theorem valueOf_map_range (n : Nat) (f : Nat → Bool) :
    valueOf ((List.range n).map f) = ((List.range n).map fun j => (f j).toNat * 2 ^ (n - 1 - j)).sum := by
  induction n generalizing f with
  | zero => rfl
  | succ n ih =>
    rw [List.range_succ_eq_map, List.map_cons, valueOf_cons, List.map_map, ih]
    simp [Function.comp_def, Nat.sub_sub, Nat.add_comm 1]

theorem bitsOf_eq_map_range (w n : Nat) : bitsOf w n = (List.range w).map fun i => n.testBit (w - 1 - i) :=
  List.ext_getElem (by simp) fun i _ _ => by simp [getElem_bitsOf]

/-- Bit `k` of a byte string is bit `7 - (k mod 8)` of byte `k div 8` (R10, R110). -/
theorem bitsOfBytes_map_range (n : Nat) (f : Nat → Byte) :
    bitsOfBytes ((List.range n).map f) = (List.range (8 * n)).map fun k => (f (k / 8)).getLsbD (7 - k % 8) := by
  induction n with
  | zero => rfl
  | succ n ih =>
    have hlast : bitsOf 8 (f n).toNat = ((List.range 8).map (8 * n + ·)).map fun k => (f (k / 8)).getLsbD (7 - k % 8) := by
      rw [bitsOf_eq_map_range, List.map_map]
      refine List.map_congr_left fun i hi => ?_
      have hi := List.mem_range.mp hi
      simp only [Function.comp_apply, BitVec.testBit_toNat]
      rw [show (8 * n + i) / 8 = n by omega, show 7 - (8 * n + i) % 8 = 8 - 1 - i by omega]
    rw [List.range_succ, Nat.mul_succ, List.range_add (n := 8 * n), List.map_append (l₁ := List.range (8 * n)), ← ih,
      ← hlast]
    simp [bitsOfBytes]

end Sys2Proof

namespace Sys2Proof.Machine

variable {s : State} {n : Nat}

/-- What R110 asks of the staged cursor: a read is possible, and the staged bits are the source's. -/
structure State.FollowsSource (s : State) : Prop where
  readable : s.Readable
  staged   : s.StagedFromSource
  pos      : s.POS ≤ s.END

namespace State.FollowsSource

theorem cursor_add_length_unread (h : s.FollowsSource) : s.cursor + s.unread.length = 8 * s.END := by
  obtain ⟨hV, -⟩ := h.staged
  have hpos := h.pos
  rw [length_unread, cursor]
  omega

/-- The bits ahead of the cursor are `B(c), B(c+1), ...` up to the end of the source (R110). -/
theorem unread_eq (h : s.FollowsSource) :
    s.unread = (List.range (s.V + 8 * (s.END - s.POS))).map fun j => s.sourceBit (s.cursor + j) := by
  obtain ⟨hV, hbits⟩ := h.staged
  rw [unread, unstaged, bitsOf_eq_map_range, bitsOfBytes_map_range, List.range_add, List.map_append, List.map_map]
  congr 1
  · refine List.map_congr_left fun i hi => ?_
    have hi := List.mem_range.mp hi
    rw [BitVec.testBit_toNat, hbits _ (by omega), cursor]
    congr 1
    omega
  · refine List.map_congr_left fun k _ => ?_
    have hk : s.cursor + (s.V + k) = 8 * s.POS + k := by rw [cursor]; omega
    rw [Function.comp_apply, hk, sourceBit, show s.OFF + (8 * s.POS + k) / 8 = s.OFF + s.POS + k / 8 by omega,
      Nat.mul_add_mod]

/-- The value of the next `n` bits as R110 writes it. -/
theorem valueOf_take_unread (h : s.FollowsSource) (hlen : n ≤ s.unread.length) :
    valueOf (s.unread.take n) =
      ((List.range n).map fun j => (s.sourceBit (s.cursor + j)).toNat * 2 ^ (n - 1 - j)).sum := by
  have hn : n ≤ s.V + 8 * (s.END - s.POS) := by rwa [length_unread] at hlen
  rw [h.unread_eq, ← List.map_take, List.take_range, Nat.min_eq_left hn, valueOf_map_range]

/-- A read of bits that are there (R110): the value, and the cursor moved by `n`. -/
theorem readChecked_some (h : s.FollowsSource) (hn : n ≤ 24) (hlen : s.cursor + n ≤ 8 * s.END) :
    ∃ t, readChecked n s =
        .ok (some ((List.range n).map fun j => (s.sourceBit (s.cursor + j)).toNat * 2 ^ (n - 1 - j)).sum) t ∧
      t.cursor = s.cursor + n ∧ t.FollowsSource := by
  obtain ⟨hV, hr⟩ := h.readable
  have hunread : n ≤ s.unread.length := by
    have := h.cursor_add_length_unread
    omega
  obtain ⟨t, hrun, hcursor, -, hVt, -, hpos, -, hstaged⟩ := Machine.readChecked_some hn hV hr hunread
  obtain ⟨hst, hcur⟩ := hstaged h.staged
  refine ⟨t, by rw [hrun, h.valueOf_take_unread hunread], hcur, ⟨hVt, ?_⟩, hst, ?_⟩
  · rw [hcursor]
    exact hr
  · have hE : t.END = s.END := by rw [hcursor]
    rw [hE]
    exact hpos h.pos

/-- A read of more bits than are left (R103 to R105), on the abstract cursor. -/
theorem readChecked_none (h : s.FollowsSource) (hn : n ≤ 24) (hlen : 8 * s.END < s.cursor + n) :
    ∃ t, readChecked n s = (if s.LEN then .ok none t
        else .error .callEnded (t.endCall .prematureEOF (BitVec.ofNat 32 (s.UL - s.WO)) .error)) ∧
      t.SOFT = true ∧ t.cursor = (if s.params.underflowDrain then 8 * s.END else s.cursor) ∧
      t.unread = (if s.params.underflowDrain then [] else s.unread) ∧ t.FollowsSource := by
  obtain ⟨hV, hr⟩ := h.readable
  have hlength := h.cursor_add_length_unread
  obtain ⟨t, hunder, hstaged, hrun⟩ := Machine.readChecked_none hn hV hr (by omega)
  have hpos := hunder.pos h.pos
  have hVt := hunder.staged
  refine ⟨t, hrun, by rw [hunder.same], ?_, hunder.unread, ⟨hunder.small, ?_⟩, hstaged h.staged, ?_⟩
  · rw [cursor, hpos, hVt]
    split <;> omega
  · rw [hunder.same]
    exact hr
  · rw [hpos, hunder.same]

/-- `resetBitBuffer` moves the cursor to the next byte boundary (R108). -/
theorem realign (h : s.FollowsSource) :
    s.realign.cursor = 8 * ((s.cursor + 7) / 8) ∧ s.realign.FollowsSource := by
  obtain ⟨-, hr⟩ := h.readable
  obtain ⟨hV, -⟩ := h.staged
  have hpos := h.pos
  refine ⟨?_, ⟨Nat.zero_lt_succ _, hr⟩, ⟨Nat.zero_le _, fun j hj => absurd hj (Nat.not_lt_zero j)⟩, ?_⟩
  · simp only [cursor, realign_POS, realign_V]
    omega
  · simp only [realign_POS, realign_END]
    omega

/-- The reader's `eof()` on the abstract cursor (R106). -/
theorem sourceEof_iff (h : s.FollowsSource) : s.sourceEof = true ↔ s.cursor = 8 * s.END := by
  obtain ⟨hV, -⟩ := h.staged
  have hpos := h.pos
  simp only [sourceEof, cursor, Bool.and_eq_true, beq_iff_eq]
  omega

end State.FollowsSource

/-- Settles O7: the bits ahead of the cursor are the source's from the cursor on, and each of the reader's operations keeps them
so. -/
theorem readFollowsTheAbstractCursor : Obligations.ReadFollowsTheAbstractCursor := by
  intro s n hr hst hpos hn
  have h : s.FollowsSource := ⟨hr, hst, hpos⟩
  refine ⟨fun hlen => ?_, fun hlen => ?_, ?_, h.sourceEof_iff⟩
  · obtain ⟨t, hrun, hcur, ht⟩ := h.readChecked_some hn hlen
    exact ⟨t, by rw [read_run, hrun]; rfl, ⟨_, hrun⟩, hcur, ht.readable, ht.staged, ht.pos⟩
  · obtain ⟨t, hrun, hsoft, hcur, hunread, ht⟩ := h.readChecked_none hn hlen
    exact ⟨t, hrun, hsoft, hcur, hunread, ht.readable, ht.staged, ht.pos⟩
  · obtain ⟨hcur, ht⟩ := h.realign
    exact ⟨_, rfl, hcur, ht.readable, ht.staged, ht.pos⟩

end Sys2Proof.Machine
end

section
/-! Fields that the source ends inside of, in strict mode: the read that meets the end ends the call in PrematureEOF
(R105, R224). -/
namespace Sys2Proof

theorem takeBits_eq_none {n : Nat} {bits : List Bool} : takeBits n bits = none ↔ bits.length < n := by
  simp [takeBits]

end Sys2Proof

namespace Sys2Proof.Machine

variable {s s' t : State} {α β : Type}

/-- A read of bits that are there, told by `takeBits`. -/
theorem read_of_takeBits {n v : Nat} {rest : List Bool} (hn : n ≤ 24) (hr : s.Readable)
    (h : takeBits n s.unread = some (v, rest)) :
    ∃ s', read n s = .ok v s' ∧ CursorOnly s s' ∧ s'.unread = rest ∧ s'.Readable := by
  obtain ⟨hV, hsrc⟩ := hr
  obtain ⟨hu, hv⟩ := takeBits_eq_some h
  obtain ⟨s', hrun, hcursor, hrest, hV', -⟩ := read_bits hn hV hsrc hv hu
  exact ⟨s', hrun, hcursor, hrest, hV', by rw [hcursor]; exact hsrc⟩

/-- `t` is what a strict underflow makes of `s`: the call has ended in PrematureEOF with the soft-fault flag set, and nothing else
but the cursor has changed. -/
def CutOff (s t : State) : Prop :=
  t = { s with
    S := t.S, POS := t.POS, V := t.V, SOFT := true, ESTATE := .error, COND := .prematureEOF
    INFO := BitVec.ofNat 32 (s.UL - s.WO) }

theorem CutOff.of_cursorOnly (hc : CursorOnly s s') (h : CutOff s' t) : CutOff s t := by
  obtain ⟨x, p, v, rfl⟩ := hc.eq
  exact h

theorem Underflowed.cutOff (h : Underflowed s s') :
    CutOff s (s'.endCall .prematureEOF (BitVec.ofNat 32 (s.UL - s.WO)) .error) := by
  rw [CutOff, h.same]
  rfl

/-- From `s`, `m` ends the call by a strict underflow. -/
def EndsCutOff (m : Engine α) (s : State) : Prop := ∃ t, m s = .error .callEnded t ∧ CutOff s t

namespace EndsCutOff

theorem bind {m : Engine α} (f : α → Engine β) (h : EndsCutOff m s) : EndsCutOff (m >>= f) s := by
  obtain ⟨t, hrun, ht⟩ := h
  exact ⟨t, bind_of_error hrun, ht⟩

/-- A strict read whose bits are missing ends the call; else what follows it has to. -/
theorem read_bind {n : Nat} {f : Nat → Engine β} (hn : n ≤ 24) (hr : s.Readable) (hl : s.LEN = false)
    (hf : ∀ v rest s', takeBits n s.unread = some (v, rest) → CursorOnly s s' → s'.unread = rest → s'.Readable →
      EndsCutOff (f v) s') : EndsCutOff (read n >>= f) s := by
  cases htake : takeBits n s.unread with
  | none =>
    obtain ⟨s', hunder, -, hrun⟩ := read_underflow hn hr.1 hr.2 (takeBits_eq_none.mp htake)
    rw [hl] at hrun
    exact .bind f ⟨_, hrun, hunder.cutOff⟩
  | some p =>
    obtain ⟨v, rest⟩ := p
    obtain ⟨s', hrun, hcursor, hrest, hr'⟩ := read_of_takeBits hn hr htake
    obtain ⟨t, hrun', ht⟩ := hf v rest s' htake hcursor hrest hr'
    exact ⟨t, (bind_of_ok hrun).trans hrun', ht.of_cursorOnly hcursor⟩

/-- The distance sub-step on fields that are cut off (R194, R105). -/
theorem distance {e : DecodeError} (hr : s.Readable) (hl : s.LEN = false) (h : decodeDistance s.params s.unread = .error e) :
    EndsCutOff Machine.distance s := by
  refine .read_bind (by omega) hr hl fun ds bits₁ s₁ hds c₁ u₁ r₁ => ?_
  obtain ⟨x₁, p₁, v₁, rfl⟩ := c₁.eq
  refine .read_bind (by omega) r₁ hl fun hi bits₂ s₂ hhi c₂ u₂ r₂ => ?_
  obtain ⟨x₂, p₂, v₂, rfl⟩ := c₂.eq
  refine .read_bind (lowWidth_le _ _) r₂ hl fun lo bits₃ s₃ hlo _ _ _ => ?_
  rw [u₁] at hhi
  rw [u₂] at hlo
  simp [decodeDistance, hds, hhi, hlo] at h

/-- The length of a long match, and what follows it (R193): one read. -/
theorem longLength_bind {k : BitVec 3} {sel : Selector} {f : Nat → Engine β} (hr : s.Readable) (hl : s.LEN = false)
    (hf : ∀ lx rest s', takeBits (s.params.lengthTable.entry k sel).extraBits.val s.unread = some (lx, rest) →
      CursorOnly s s' → s'.unread = rest → s'.Readable →
      EndsCutOff (f (4 + ((s.params.lengthTable.entry k sel).base.val + lx))) s') :
    EndsCutOff (longLength k sel >>= f) s := by
  simp only [longLength, bind_assoc, pure_bind]
  exact .read_bind (s.params.lengthTable.entry k sel).extraBits.is_le hr hl hf

/-- The symbol decode on a code that is cut off (R162, R105). -/
theorem fetch (hr : s.Readable) (hl : s.LEN = false) (h : decodeInstr s.T s.DIR s.unread = .error .truncated) :
    EndsCutOff Machine.fetch s := by
  have hcode : decodeCode s.T s.DIR s.unread = .error .truncated := by
    obtain hcode | ⟨_, _, _, -, hsym⟩ := decodeInstr_error h
    · exact hcode
    · cases (decodeSymbol_error hsym).1
  refine .read_bind (by omega) hr hl fun v bits₁ s₁ hsel c₁ u₁ r₁ => ?_
  obtain ⟨x, p, y, rfl⟩ := c₁.eq
  refine .read_bind (lenAt_le _ _) r₁ hl fun off bits₂ s₂ hoff _ _ _ => ?_
  rw [u₁] at hoff
  simp only [decodeCode, hsel, hoff] at hcode
  split at hcode <;> cases hcode

theorem outcomeOf {m : Engine Unit} (h : EndsCutOff m s) : ∃ t, outcomeOf m s = .next t ∧ CutOff s t := by
  obtain ⟨t, hrun, ht⟩ := h
  exact ⟨t, outcomeOf_ended hrun, ht⟩

end EndsCutOff

/-- Settles O38: a match reads all its fields before it writes a byte, and the first that is missing ends the call. -/
theorem strictTruncatedMatchEndsTheCall : Obligations.StrictTruncatedMatchEndsTheCall := by
  intro k sel s hr hl
  refine ⟨fun h => ?_, fun h => ?_⟩
  · have hdist : EndsCutOff distance (s.withEState .backReference) := .distance hr hl h
    exact (hdist.bind _).outcomeOf
  · refine EndsCutOff.outcomeOf (s := s.withEState .backReference) (.longLength_bind hr hl fun lx rest s' hlx hc hu hr' => ?_)
    obtain ⟨x, p, v, rfl⟩ := hc.eq
    obtain hnone | ⟨lx', rest', hsome, hdist⟩ := h
    · cases hnone.symm.trans hlx
    · cases hsome.symm.trans hlx
      rw [← hu] at hdist
      exact .bind _ (.distance hr' hl hdist)

/-! ### Turns of the engine -/

/-- A turn of the engine begins an iteration: none of the loop top's checks ends the call (R161, R170). -/
structure State.Begins (s : State) : Prop where
  running : s.ESTATE = .decoding
  room    : s.WO ≠ s.UL
  source  : ¬(s.V = 0 ∧ s.POS = s.END)
  cap     : s.capReached = false

theorem State.Begins.turnTaken (h : s.Begins) : s.turnTaken.Begins := { h with }

theorem State.Begins.engineTurn_of_fetch_ok {i : Instr} (h : s.Begins) (hrun : fetch s.countIteration = .ok i t) :
    engineTurn s = exec i t := by
  rw [engineTurn_decoding h.running, nextInstr_of_begins h.room h.source h.cap, hrun]

theorem State.Begins.engineTurn_of_fetch_ended (h : s.Begins) (hrun : fetch s.countIteration = .error .callEnded t) :
    engineTurn s = .next t := by
  rw [engineTurn_decoding h.running, nextInstr_of_begins h.room h.source h.cap, hrun]

/-- A turn with the input exhausted before the output is full (R161). -/
theorem engineTurn_of_sourceEof (he : s.ESTATE = .decoding) (hw : s.WO ≠ s.UL) (heof : s.V = 0 ∧ s.POS = s.END) :
    engineTurn s = .next (s.endCall .prematureEOF (BitVec.ofNat 32 (s.UL - s.WO)) .error) := by
  have hfull : s.outputFull = false := by simp [State.outputFull, hw]
  have hsource : s.sourceEof = true := by simp [State.sourceEof, heof]
  have htop : loopTop s = .error .callEnded (s.endCall .prematureEOF (BitVec.ofNat 32 (s.UL - s.WO)) .error) := by
    simp [loopTop, hfull, hsource]
  have hnext : nextInstr s = _ := bind_of_error htop
  rw [engineTurn_decoding he, hnext]

/-- Settles O29: with no bit left the loop top may end the call; else the iteration begins, and the symbol decode ends
the call. -/
theorem strictTruncatedCodeEndsTheCall : Obligations.StrictTruncatedCodeEndsTheCall := by
  intro s hturn he hw hc hr hl h
  rw [step_of_engineTurn hturn]
  by_cases heof : s.V = 0 ∧ s.POS = s.END
  · exact ⟨_, engineTurn_of_sourceEof (s := s.turnTaken) he hw heof, rfl,
      fun hne => absurd heof (not_sourceEof_of_unread hne)⟩
  · have hbegins : s.Begins := ⟨he, hw, heof, hc⟩
    obtain ⟨t, hrun, ht⟩ := EndsCutOff.fetch (s := s.turnTaken.countIteration) hr hl h
    have hsoft : t.SOFT = true := by rw [ht]
    have hiter : t.ITER = s.ITER + 1 := by rw [ht]; rfl
    refine ⟨t, hbegins.turnTaken.engineTurn_of_fetch_ended hrun, ?_, fun _ => ⟨hsoft, hiter⟩⟩
    rw [hsoft, hiter]
    exact ht

end Sys2Proof.Machine
end

section
/-! Fields that the source ends inside of, in lenient mode: each missing field counts as 0 and the machine goes on
(R103, R104). -/
namespace Sys2Proof

/-- The distance that the fields at the head of a bit string give in lenient mode, and the bits left after them (R194, R103). -/
def lenientDistance (p : Params) (bits : List Bool) : Nat × List Bool :=
  let ds := Machine.lenientTake p.underflowDrain 3 bits
  let hi := Machine.lenientTake p.underflowDrain 8 ds.2
  let lo := Machine.lenientTake p.underflowDrain (p.lowWidth (BitVec.ofNat 3 ds.1)) hi.2
  (Machine.distanceOf p (BitVec.ofNat 3 ds.1) hi.1 lo.1, lo.2)

/-- The distance fields are not all there. -/
def distanceMissing (p : Params) (bits : List Bool) : Bool := (decodeDistance p bits).toOption.isNone

theorem lenientTake_of_some {drain : Bool} {n : Nat} {bits : List Bool} {r : Nat × List Bool} (h : takeBits n bits = some r) :
    Machine.lenientTake drain n bits = r := by
  rw [Machine.lenientTake, h, Option.getD_some]

theorem lenientTake_of_none {drain : Bool} {n : Nat} {bits : List Bool} (h : takeBits n bits = none) :
    (Machine.lenientTake drain n bits).1 = 0 := by
  rw [Machine.lenientTake, h, Option.getD_none]

theorem distanceMissing_iff {p : Params} {bits : List Bool} :
    distanceMissing p bits = true ↔ ∃ e, decodeDistance p bits = .error e := by
  unfold distanceMissing
  cases decodeDistance p bits <;> simp [Except.toOption]

/-- The distance fields are missing when one of the three lenient takes misses its bits. -/
theorem distanceMissing_eq (p : Params) (bits : List Bool) :
    distanceMissing p bits =
      let ds := Machine.lenientTake p.underflowDrain 3 bits
      let hi := Machine.lenientTake p.underflowDrain 8 ds.2
      ((takeBits 3 bits).isNone || (takeBits 8 ds.2).isNone ||
        (takeBits (p.lowWidth (BitVec.ofNat 3 ds.1)) hi.2).isNone) := by
  unfold distanceMissing decodeDistance
  cases hds : takeBits 3 bits with
  | none => rfl
  | some ds =>
    simp only [lenientTake_of_some hds]
    cases hhi : takeBits 8 ds.2 with
    | none => rfl
    | some hi =>
      simp only [lenientTake_of_some hhi]
      cases takeBits (p.lowWidth (BitVec.ofNat 3 ds.1)) hi.2 <;> rfl

end Sys2Proof

namespace Sys2Proof.Machine

variable {s₀ s t u : State} {bits bits' : List Bool} {soft soft' : Bool} {α β : Type}

/-- `s` is a state of a lenient call that reading has led to from `s₀`: the bits `bits` are ahead, the soft-fault flag is `soft`,
and nothing else but the cursor may differ. -/
structure LenientAt (s₀ : State) (bits : List Bool) (soft : Bool) (s : State) : Prop where
  readable : s.Readable
  lenient  : s.LEN = true
  unread   : s.unread = bits
  same     : s = { s₀ with S := s.S, POS := s.POS, V := s.V, SOFT := soft }

theorem LenientAt.refl (hr : s.Readable) (hl : s.LEN = true) : LenientAt s s.unread s.SOFT s := ⟨hr, hl, rfl, rfl⟩

/-- The same as an equation to substitute. -/
theorem LenientAt.eq (h : LenientAt s₀ bits soft s) : ∃ x p v, s = { s₀ with S := x, POS := p, V := v, SOFT := soft } :=
  ⟨_, _, _, h.same⟩

theorem LenientAt.params_eq (h : LenientAt s₀ bits soft s) : s.params = s₀.params := by rw [h.same]

/-- From `s`, `m` goes on with the value `a`, and leaves the bits `bits` ahead and the soft-fault flag at `soft`. -/
def GoesOn (s₀ : State) (m : Engine α) (a : α) (bits : List Bool) (soft : Bool) (s : State) : Prop :=
  ∃ t, m s = .ok a t ∧ LenientAt s₀ bits soft t

namespace GoesOn

theorem read {n : Nat} (hn : n ≤ 24) (h : LenientAt s₀ bits soft s) :
    GoesOn s₀ (Machine.read n) (lenientTake s₀.params.underflowDrain n bits).1
      (lenientTake s₀.params.underflowDrain n bits).2 (soft || (takeBits n bits).isNone) s := by
  obtain ⟨t, hrun, hrest, hr, ht⟩ := read_lenient hn h.readable h.lenient
  have hsoft : s.SOFT = soft := by rw [h.same]
  rw [h.params_eq, h.unread] at hrun hrest
  rw [hsoft, h.unread] at ht
  refine ⟨t, hrun, hr, ?_, hrest, ?_⟩
  · rw [ht]
    exact h.lenient
  · rw [ht, h.same]

/-- What goes on hands over to what follows it. -/
theorem bind {m : Engine α} {f : α → Engine β} {a : α} {b : β} (hm : GoesOn s₀ m a bits soft s)
    (hf : ∀ s', LenientAt s₀ bits soft s' → GoesOn s₀ (f a) b bits' soft' s') : GoesOn s₀ (m >>= f) b bits' soft' s := by
  obtain ⟨s', hrun, hs'⟩ := hm
  obtain ⟨t, hrun', ht⟩ := hf s' hs'
  exact ⟨t, (bind_of_ok hrun).trans hrun', ht⟩

theorem get_bind {f : State → Engine β} {b : β} (h : GoesOn s₀ (f s) b bits soft s) :
    GoesOn s₀ (get >>= f) b bits soft s := h

theorem pure (a : α) (h : LenientAt s₀ bits soft s) : GoesOn s₀ (Pure.pure a) a bits soft s := ⟨s, rfl, h⟩

/-- The distance sub-step in lenient mode (R194, R103, R104). -/
theorem distance (h : LenientAt s₀ bits soft s) :
    GoesOn s₀ Machine.distance ((s₀.WO : Int) - (lenientDistance s₀.params bits).1) (lenientDistance s₀.params bits).2
      (soft || distanceMissing s₀.params bits) s := by
  rw [distanceMissing_eq, ← Bool.or_assoc, ← Bool.or_assoc]
  refine .bind (.read (by omega) h) fun s₁ h₁ => .get_bind ?_
  rw [h₁.params_eq]
  refine .bind (.read (by omega) h₁) fun s₂ h₂ => .bind (.read (lowWidth_le _ _) h₂) fun s₃ h₃ => .get_bind ?_
  have hwo : s₃.WO = s₀.WO := by rw [h₃.same]
  rw [hwo]
  exact .pure _ h₃

/-- The length of a long match in lenient mode (R193, R103). -/
theorem longLength {k : BitVec 3} {sel : Selector} (h : LenientAt s₀ bits soft s) :
    let e := s₀.params.lengthTable.entry k sel
    let lx := lenientTake s₀.params.underflowDrain e.extraBits.val bits
    GoesOn s₀ (Machine.longLength k sel) (4 + (e.base.val + lx.1)) lx.2 (soft || (takeBits e.extraBits.val bits).isNone) s := by
  intro e lx
  refine .get_bind ?_
  rw [h.params_eq]
  exact .bind (.read e.extraBits.is_le h) fun s₁ h₁ => .pure _ h₁

end GoesOn

/-- Settles O8: three lenient reads, of which a missing field makes one underflow. -/
theorem lenientDistanceGoesOn : Obligations.LenientDistanceGoesOn := by
  intro s hr hl
  obtain ⟨t, hrun, ht⟩ := GoesOn.distance (.refl hr hl)
  have hsoft : t.SOFT = (s.SOFT || distanceMissing s.params s.unread) := by rw [ht.same]
  refine ⟨t, hrun, ht.unread, ?_, ?_⟩
  · rw [hsoft]
    exact ht.same
  · rw [hsoft, Bool.or_eq_true, distanceMissing_iff]

/-! ### The symbol decode -/

/-- The symbol decode in lenient mode (R162, R83, R103, R104): both reads go on, and the index they give is resolved or is out of
sync. -/
theorem fetch_lenient (h : LenientAt s₀ bits soft s) :
    let code := lenientTake s₀.params.underflowDrain 4 bits
    let sel := BitVec.ofNat 4 code.1
    let off := lenientTake s₀.params.underflowDrain (s₀.T.lenAt sel) code.2
    let idx := s₀.T.baseAt sel + off.1
    ∃ t, LenientAt s₀ off.2 (soft || (takeBits 4 bits).isNone || (takeBits (s₀.T.lenAt sel) code.2).isNone) t ∧
      (∀ (h : idx < nsym) (i : Instr), decodeSymbol s₀.DIR.ASSIGN[idx] sel = .ok i →
        fetch s = .ok i (t.withDir (countUse s₀.DIR (encodeSymbol i)))) ∧
      (nsym ≤ idx → fetch s = .error .callEnded (t.endCall .outOfSyncSymbol (BitVec.ofNat 32 idx) .error)) := by
  dsimp only
  obtain ⟨s₁, run₁, h₁⟩ := GoesOn.read (n := 4) (by omega) h
  obtain ⟨t, run₂, ht⟩ := GoesOn.read (lenAt_le s₀.T _) h₁
  have hT : s₁.T = s₀.T := by rw [h₁.same]
  have hD : t.DIR = s₀.DIR := by rw [ht.same]
  rw [← hT] at run₂
  have hfetch := fetch_run run₁ run₂
  rw [hT] at hfetch
  simp only [hD] at hfetch
  refine ⟨t, ht, fun hidx i hi => ?_, fun hidx => ?_⟩
  · rw [hfetch, dif_pos hidx, encodeSymbol_of_decodeSymbol hi, hi]
  · rw [hfetch, dif_neg (Nat.not_lt.mpr hidx)]

/-- Settles O30: bits ahead let the iteration begin, and its symbol decode is `fetch_lenient`. -/
theorem lenientTruncatedCodeGoesOn : Obligations.LenientTruncatedCodeGoesOn := by
  intro s hturn he hw hc hr hl hne
  have hbegins : s.turnTaken.Begins := ⟨he, hw, not_sourceEof_of_unread hne, hc⟩
  obtain ⟨t, ht, hsymbol, hsync⟩ := fetch_lenient (.refl (s := s.turnTaken.countIteration) hr hl)
  have hstep := step_of_engineTurn hturn
  refine ⟨fun hidx i hi => ⟨_, hstep.trans (hbegins.engineTurn_of_fetch_ok (hsymbol hidx i hi)), ht.unread, ?_⟩,
    fun hidx => ⟨_, hstep.trans (hbegins.engineTurn_of_fetch_ended (hsync hidx)), ht.unread, ?_⟩⟩
  · rw [State.withDir, ht.same]
    rfl
  · rw [State.endCall, ht.same]
    rfl

end Sys2Proof.Machine
end

section
/-! The matches in lenient mode (R192 to R198): the fields are read, each missing one as 0, and then the copy has one of its three
outcomes. -/
namespace Sys2Proof.Machine

variable {s u t : State} {n d : Nat} {α : Type}

theorem outcomeOf_bind_of_ok {m : Engine α} {f : α → Engine Unit} {a : α} (h : m s = .ok a u) :
    outcomeOf (m >>= f) s = outcomeOf (f a) u := by
  rw [outcomeOf, bind_of_ok h]
  rfl

/-! ### The copy, as the effect of a match whose fields are read -/

/-- A distance that is 0 or past the write offset (R198). -/
theorem copy_effect_of_outOfRange (hn : 1 ≤ n) (hd : d = 0 ∨ s.WO < d) :
    ∃ t, copy n ((s.WO : Int) - d) s = .error .callEnded t ∧ s.MatchEffect n d s.unread s.SOFT t := by
  obtain ⟨n, rfl⟩ := Nat.exists_eq_add_of_le' hn
  exact ⟨_, copy_outOfRange (by omega), rfl, fun _ => rfl, fun h₁ h₂ => by omega⟩

/-- Room for all the bytes (R195, R196). -/
theorem copy_effect_of_room (hm : Memory.wf s.OUTMEM) (hcap : s.UL ≤ s.params.outCapacity) (hd : 1 ≤ d) (hdw : d ≤ s.WO)
    (hroom : s.WO + n ≤ s.UL) :
    ∃ t, copy n ((s.WO : Int) - d) s = .ok () t ∧ s.MatchEffect n d s.unread s.SOFT (t.withEState .decoding) := by
  obtain ⟨t, hrun, hout, hwo, -, hcopied, hkept⟩ := copy_ok hm hd hdw hroom hcap
  obtain ⟨m, w, rfl⟩ := hout.eq
  obtain rfl : w = s.WO + n := hwo
  have hmin : min n (s.UL - s.WO) = n := by omega
  refine ⟨_, hrun, rfl, fun h => by omega, fun _ _ => ?_⟩
  rw [hmin]
  exact ⟨hcopied, hkept, fun _ => rfl, fun h => by omega⟩

/-- Room for fewer bytes than the match has (R197). -/
theorem copy_effect_of_exhausted (hm : Memory.wf s.OUTMEM) (hle : s.WO ≤ s.UL) (hcap : s.UL ≤ s.params.outCapacity)
    (hd : 1 ≤ d) (hdw : d ≤ s.WO) (hroom : s.UL < s.WO + n) :
    ∃ t, copy n ((s.WO : Int) - d) s = .error .callEnded t ∧ s.MatchEffect n d s.unread s.SOFT t := by
  obtain ⟨t, hrun, hout, hwo, -, hcopied, hkept⟩ := copy_exhausted hm hd hdw hle hroom hcap
  obtain ⟨m, w, rfl⟩ := hout.eq
  obtain rfl : w = s.UL := hwo
  have hmin : min n (s.UL - s.WO) = s.UL - s.WO := by omega
  have hend : s.WO + (s.UL - s.WO) = s.UL := by omega
  refine ⟨_, hrun, rfl, fun h => by omega, fun _ _ => ?_⟩
  rw [hmin, hend]
  exact ⟨hcopied, hkept, fun h => by omega, fun _ => rfl⟩

/-- The copy of a match and its return to DECODING (R192, R193). -/
theorem outcomeOf_copy (hn : 1 ≤ n) (hm : Memory.wf s.OUTMEM) (hle : s.WO ≤ s.UL) (hcap : s.UL ≤ s.params.outCapacity) :
    ∃ t, outcomeOf (copy n ((s.WO : Int) - d) >>= fun _ => modify (·.withEState .decoding)) s = .next t ∧
      s.MatchEffect n d s.unread s.SOFT t := by
  by_cases hd : d = 0 ∨ s.WO < d
  · obtain ⟨t, hrun, ht⟩ := copy_effect_of_outOfRange hn hd
    exact ⟨t, outcomeOf_ended (bind_of_error hrun), ht⟩
  have hd₁ : 1 ≤ d := by omega
  have hdw : d ≤ s.WO := by omega
  by_cases hroom : s.WO + n ≤ s.UL
  · obtain ⟨t, hrun, ht⟩ := copy_effect_of_room hm hcap hd₁ hdw hroom
    exact ⟨_, outcomeOf_bind_of_ok hrun, ht⟩
  · obtain ⟨t, hrun, ht⟩ := copy_effect_of_exhausted hm hle hcap hd₁ hdw (Nat.lt_of_not_le hroom)
    exact ⟨t, outcomeOf_ended (bind_of_error hrun), ht⟩

/-! ### The whole match -/

/-- Once the fields are read, the effect is that of a match of the length and distance they gave, told of the state in which the
match began. -/
theorem matchEffect_of_lenientAt {bits : List Bool} {soft : Bool} (hu : LenientAt (s.withEState .backReference) bits soft u)
    (h : u.MatchEffect n d u.unread u.SOFT t) : s.MatchEffect n d bits soft t := by
  have hbits := hu.unread
  obtain ⟨x, p, v, rfl⟩ := hu.eq
  rw [← hbits]
  exact h

/-- What follows the length of a match in lenient mode: the distance fields and the copy (R194 to R198). -/
theorem lenient_distance_copy {bits : List Bool} {soft : Bool} (hn : 4 ≤ n) (hm : Memory.wf s.OUTMEM) (hle : s.WO ≤ s.UL)
    (hcap : s.UL ≤ s.params.outCapacity) (hu : LenientAt (s.withEState .backReference) bits soft u) :
    ∃ t, outcomeOf (distance >>= fun src => copy n src >>= fun _ => modify (·.withEState .decoding)) u = .next t ∧
      s.MatchEffect n (lenientDistance s.params bits).1 (lenientDistance s.params bits).2
        (soft || distanceMissing s.params bits) t := by
  obtain ⟨w, hrun, hw⟩ := GoesOn.distance hu
  have hwm : Memory.wf w.OUTMEM := by rw [hw.same]; exact hm
  have hwle : w.WO ≤ w.UL := by rw [hw.same]; exact hle
  have hwcap : w.UL ≤ w.params.outCapacity := by rw [hw.same]; exact hcap
  obtain ⟨t, ht, heffect⟩ := outcomeOf_copy (n := n) (d := (lenientDistance s.params bits).1) (by omega) hwm hwle hwcap
  have hwo : w.WO = s.WO := by rw [hw.same]; rfl
  rw [hwo] at ht
  exact ⟨t, (outcomeOf_bind_of_ok hrun).trans ht, matchEffect_of_lenientAt hw heffect⟩

/-- Settles O55: a match reads its length and its distance, each missing field as 0, and then copies. -/
theorem lenientMatchesGoOn : Obligations.LenientMatchesGoOn := by
  intro k sel s hr hl hm hle hcap
  have hstart : LenientAt (s.withEState .backReference) s.unread s.SOFT (s.withEState .backReference) := .refl hr hl
  refine ⟨lenient_distance_copy (Nat.le_add_right _ _) hm hle hcap hstart, ?_, fun hmissing => ?_⟩
  · obtain ⟨u, hrun, hu⟩ := GoesOn.longLength (k := k) (sel := sel) hstart
    obtain ⟨t, ht, heffect⟩ := lenient_distance_copy (Nat.le_add_right _ _) hm hle hcap hu
    exact ⟨t, (outcomeOf_bind_of_ok hrun).trans ht, heffect⟩
  · rw [lenientTake_of_none hmissing, Nat.add_zero]

end Sys2Proof.Machine
end

section
/-! The indices that a well-formed table covers, and a table description that ends the call (R124, R125, R128). -/
namespace Sys2Proof

variable {p : Params} {bits rest : List Bool} {slot : Nat}

/-! ### The code space -/

/-- `s` slots hold at most `s * 2^24` indices (R128 (c)). -/
theorem cumulativeBase_le (len : Vector (Fin 25) 16) {s : Nat} (hs : s ≤ 16) : cumulativeBase len s ≤ s * 2 ^ 24 := by
  induction s with
  | zero => simp [cumulativeBase]
  | succ s ih =>
    have hbefore := ih (by omega)
    have hslot : 2 ^ len[s].val ≤ 2 ^ 24 := Nat.pow_le_pow_right (by decide) len[s].is_le
    rw [cumulativeBase_succ len (by omega)]
    omega

/-- The first `s` slots leave no gap: an index below their end lies in one of them (R128 (b)). -/
theorem exists_slot_of_lt_cumulativeBase (len : Vector (Fin 25) 16) {s idx : Nat} (hs : s ≤ 16)
    (h : idx < cumulativeBase len s) :
    ∃ r < s, cumulativeBase len r ≤ idx ∧ idx < cumulativeBase len (r + 1) := by
  induction s with
  | zero => exact absurd h (Nat.not_lt_zero idx)
  | succ s ih =>
    by_cases hbefore : idx < cumulativeBase len s
    · obtain ⟨r, hr, hcov⟩ := ih (by omega) hbefore
      exact ⟨r, by omega, hcov⟩
    · exact ⟨s, by omega, Nat.le_of_not_lt hbefore, h⟩

namespace Table.WF

variable {t : Table}

theorem slot_end_eq (ht : t.WF) (sel : Selector) :
    t.baseAt sel + 2 ^ t.lenAt sel = cumulativeBase t.len (sel.toNat + 1) := by
  rw [ht.baseAt_eq, Table.lenAt, cumulativeBase_succ t.len sel.isLt]

theorem covers_iff (ht : t.WF) {sel : Selector} {idx : Nat} :
    t.Covers sel idx ↔ cumulativeBase t.len sel.toNat ≤ idx ∧ idx < cumulativeBase t.len (sel.toNat + 1) := by
  rw [Table.Covers, ht.slot_end_eq, ht.baseAt_eq]

/-- The slots together hold exactly the indices below the end of the last one (R128 (b)). -/
theorem exists_covers_iff (ht : t.WF) {idx : Nat} : (∃ sel, t.Covers sel idx) ↔ idx < cumulativeBase t.len 16 := by
  constructor
  · rintro ⟨sel, hcov⟩
    exact Nat.lt_of_lt_of_le (ht.covers_iff.mp hcov).2 (cumulativeBase_mono t.len sel.isLt)
  · intro h
    obtain ⟨r, hr, hcov⟩ := exists_slot_of_lt_cumulativeBase t.len (Nat.le_refl 16) h
    exact ⟨BitVec.ofNatLT r hr, ht.covers_iff.mpr hcov⟩

end Table.WF

/-- Settles O5: the slots follow each other without a gap from 0 to the end of the last, which is the sum of 16 slots. -/
theorem slotsPartitionTheIndices : Obligations.SlotsPartitionTheIndices := by
  intro t ht
  have hend : t.baseAt 15 + 2 ^ t.lenAt 15 = cumulativeBase t.len 16 := ht.slot_end_eq 15
  rw [hend]
  exact ⟨cumulativeBase_le t.len (Nat.le_refl 16), fun _ => ⟨ht.exists_covers_iff.symm, fun _ _ => ht.covers_unique⟩⟩

/-! ### The slot that a description is too long in -/

theorem slot_of_decodeGroup_tableFormat {lrun slot' z : Nat}
    (h : decodeGroup p lrun slot z bits = .error (.tableFormat slot' rest)) : slot' = slot := by
  induction bits generalizing z with
  | nil => cases h
  | cons b bits ih =>
    cases b with
    | true => cases h
    | false =>
      rw [decodeGroup] at h
      split at h
      · cases h
        rfl
      · exact ih h

theorem slot_lt_of_decodeGroups_tableFormat {slots lrun slot' : Nat}
    (h : decodeGroups p slots slot lrun bits = .error (.tableFormat slot' rest)) : slot' < slot + slots := by
  induction slots generalizing slot lrun bits with
  | zero => cases h
  | succ slots ih =>
    rw [decodeGroups] at h
    split at h
    · next hgroup =>
      cases h
      have := slot_of_decodeGroup_tableFormat hgroup
      omega
    split at h
    · next hgroups =>
      cases h
      have := ih hgroups
      omega
    · cases h

end Sys2Proof

namespace Sys2Proof.Machine

variable {s : State} {e : DecodeError} (f : Directory → Directory)

/-- A description that does not decode ends a table swap in the condition it calls for, with the directory reordered before
(R144, R165). The reorder function is a variable, so that no comparison of states evaluates `P_REORDER`. -/
theorem tableSwapBy_of_decodeGroups_error (hr : s.Readable) (h : decodeGroups s.params 16 0 0 s.unread = .error e) :
    ∃ r, outcomeOf (tableSwapBy f) s = .next r ∧ EndsAs e ((s.withEState .tableSwap).withDir (f s.DIR)) r := by
  obtain ⟨hV, hsrc⟩ := hr
  let s₁ := (s.withEState .tableSwap).withDir (f s.DIR)
  have hspec := buildTable_spec (s := s₁) hV hsrc
  have h₁ : decodeGroups s₁.params 16 0 0 s₁.unread = .error e := h
  rw [h₁] at hspec
  obtain ⟨r, hrun, hends⟩ := hspec
  refine ⟨r, outcomeOf_ended ?_, hends⟩
  simp only [tableSwapBy, reorderBy, bind_modify]
  exact bind_of_error hrun

/-- A slot length above `P_MAX_CODE_LEN` (R124). With at most 7 bits staged, the bytes not staged are the whole bytes unread. -/
theorem tableSwapBy_tableFormat {slot : Nat} {rest : List Bool} (hr : s.Readable)
    (h : decodeGroups s.params 16 0 0 s.unread = .error (.tableFormat slot rest)) :
    ∃ t, outcomeOf (tableSwapBy f) s = .next t ∧ t.unread = rest ∧
      (s.params.underflowDrain = true → s.V ≤ 7 → t.sourceLeft = rest.length / 8) ∧
      t = { s with
        S := t.S, POS := t.POS, V := t.V, DIR := f s.DIR
        ESTATE := .error, COND := .tableFormatFault, INFO := BitVec.ofNat 32 slot } := by
  obtain ⟨_, hrun, s', hcursor, rfl, hbounds, rfl⟩ := tableSwapBy_of_decodeGroups_error f hr h
  refine ⟨_, hrun, rfl, fun hdrain hV => ?_, ?_⟩
  · exact sourceLeft_of_tail (s := s') (hbounds.tail hdrain hV)
  · obtain ⟨x, p, v, rfl⟩ := hcursor.eq
    rfl

/-- A description that the source ends inside of, in either mode (R125). -/
theorem tableSwapBy_truncated (hr : s.Readable) (h : decodeGroups s.params 16 0 0 s.unread = .error .truncated) :
    ∃ t, outcomeOf (tableSwapBy f) s = .next t ∧ t.unread = [] ∧
      t = { s with
        S := t.S, POS := t.POS, V := t.V, SOFT := true, DIR := f s.DIR
        ESTATE := .error, COND := .prematureEOF, INFO := BitVec.ofNat 32 (s.UL - s.WO) } := by
  obtain ⟨_, hrun, s', hsame, hnil, -, rfl⟩ := tableSwapBy_of_decodeGroups_error f hr h
  refine ⟨_, hrun, hnil, ?_⟩
  rw [hsame]
  rfl

/-- Settles O40: what the description decodes to says how the call ends, and the table is written only after all 16 slots. -/
theorem tableSwapFaults : Obligations.TableSwapFaults := by
  intro s hr
  exact ⟨fun _ _ h => ⟨by simpa using slot_lt_of_decodeGroups_tableFormat h, tableSwapBy_tableFormat Config.reorder hr h⟩,
    tableSwapBy_truncated Config.reorder hr⟩

end Sys2Proof.Machine
end

section
/-! The symbol directory (42_symbol_directory.md): what counting a symbol changes, and which computations leave the table and the
directory alone. -/
namespace Sys2Proof

theorem Machine.countUse_FREQ (d : Directory) {y : Symbol} (hy : y.toNat < nsym) :
    (Machine.countUse d y).FREQ = d.FREQ.set y.toNat (d.FREQ[y.toNat] + 1) := by
  rw [Machine.countUse, dif_pos hy]

/-- Counting a symbol adds one to its counter and to no other (R142). -/
theorem Machine.getElem_countUse_FREQ (d : Directory) {y z : Symbol} (hy : y.toNat < nsym) (hz : z.toNat < nsym) :
    (Machine.countUse d y).FREQ[z.toNat] = d.FREQ[z.toNat] + (if z = y then 1 else 0) := by
  simp only [Machine.countUse_FREQ d hy]
  by_cases h : z = y
  · subst h
    rw [Vector.getElem_set_self, if_pos rfl]
  · have hne : y.toNat ≠ z.toNat := fun he => h (BitVec.eq_of_toNat_eq he.symm)
    simp only [Vector.getElem_set_ne _ _ hne, if_neg h, Nat.add_zero]

/-- An instruction's bits code a symbol below `0x112`, whatever the directory assigns. -/
theorem encodeSymbol_lt_of_decodeInstr {t : Table} {d : Directory} {bits rest : List Bool} {i : Instr}
    (h : decodeInstr t d bits = .ok (i, rest)) : (encodeSymbol i).toNat < nsym := by
  obtain ⟨y, sel, -, hy⟩ := decodeInstr_eq_ok.mp h
  rw [encodeSymbol_of_decodeSymbol hy]
  exact lt_of_decodeSymbol hy

end Sys2Proof

namespace Sys2Proof.Machine

/-- Settles O41: the assignment `P_REORDER` returns is that of a permutation. -/
theorem reorderReturnsAPermutation : Obligations.ReorderReturnsAPermutation := Config.reorder_wf

/-- Settles O25: counting changes one counter, and the decode step of an instruction counts its symbol (`fetch_ok`). -/
theorem recordUseCountsTheSymbol : Obligations.RecordUseCountsTheSymbol := by
  refine ⟨fun d y z hy hz => ⟨countUse_ASSIGN d y, getElem_countUse_FREQ d hy hz⟩, fun s i rest hr h => ?_⟩
  obtain ⟨s', hrun, -⟩ := fetch_ok hr.1 hr.2 h
  exact ⟨encodeSymbol_lt_of_decodeInstr h, _, hrun, rfl⟩

variable {α β : Type} {s s₀ t : State} {P Q E : State → Prop}

/-- What a triple says of a computation that yields a value. -/
theorem Triple.of_ok {m : Engine α} {a : α} (hm : Triple P Q E m) (h : P s) (hrun : m s = .ok a t) : Q t :=
  (wp_ok hrun).mp (hm s h)

/-- What a triple says of a computation that ends the call. -/
theorem Triple.of_ended {m : Engine α} (hm : Triple P Q E m) (h : P s) (hrun : m s = .error .callEnded t) : E t := by
  simpa [wp, hrun] using hm s h

/-! ### Computations that keep the table and the directory -/

/-- The two states have the same table and the same directory, counters included. -/
structure SameTables (s t : State) : Prop where
  table     : t.T = s.T
  directory : t.DIR = s.DIR

/-- The two states have the same table and the same assignment (R144). -/
structure SameAssignment (s t : State) : Prop where
  table      : t.T = s.T
  assignment : t.DIR.ASSIGN = s.DIR.ASSIGN

theorem SameTables.refl (s : State) : SameTables s s := ⟨rfl, rfl⟩

theorem SameTables.readerOnly (h : SameTables s₀ s) (hr : ReaderOnly s t) : SameTables s₀ t := by
  obtain ⟨x, p, v, f, rfl, -⟩ := hr.eq
  exact ⟨h.table, h.directory⟩

theorem SameTables.wrote {n : Nat} (h : SameTables s₀ s) (hw : Wrote n s t) : SameTables s₀ t := by
  obtain ⟨m, w, rfl⟩ := hw.same.eq
  exact ⟨h.table, h.directory⟩

theorem SameTables.endCall (h : SameTables s₀ s) (c : Condition) (w : Word) (e : EState) :
    SameTables s₀ (s.endCall c w e) := ⟨h.table, h.directory⟩

theorem SameTables.countUse (h : SameTables s₀ s) (y : Symbol) :
    SameAssignment s₀ (s.withDir (Machine.countUse s.DIR y)) :=
  ⟨h.table, (countUse_ASSIGN s.DIR y).trans (congrArg Directory.ASSIGN h.directory)⟩

/-- Whatever `m` yields, and however it ends the call, the table and the directory are those of `s₀`. -/
abbrev KeepsTables (s₀ : State) (m : Engine α) : Prop := Triple (SameTables s₀) (SameTables s₀) (SameTables s₀) m

namespace KeepsTables

theorem bind {m : Engine α} {f : α → Engine β} (hm : KeepsTables s₀ m) (hf : ∀ a, KeepsTables s₀ (f a)) :
    KeepsTables s₀ (m >>= f) := Triple.bind hm hf

theorem get : KeepsTables s₀ (MonadState.get : Engine State) := Triple.get

theorem withEState (e : EState) : KeepsTables s₀ (modify (·.withEState e)) := fun _ h => ⟨h.table, h.directory⟩

theorem resetBitBuffer : KeepsTables s₀ Machine.resetBitBuffer := fun _ h => ⟨h.table, h.directory⟩

theorem finish (c : Condition) (w : Word) : KeepsTables s₀ (Machine.finish c w : Engine α) := fun _ h => h.endCall c w _

theorem of_readsOnly {m : Engine α} (hm : ReadsOnly m) : KeepsTables s₀ m := by
  refine fun s h => wp_mono (hm s) (fun _ _ hr => h.readerOnly hr) ?_
  rintro _ ⟨s', c, w, hr, rfl⟩
  exact (h.readerOnly hr).endCall c w _

theorem setByte (v : Byte) (remaining : Nat) : KeepsTables s₀ (Machine.setByte v remaining) := fun _ h =>
  (wp_setByte v remaining).mpr ⟨fun _ => h.endCall _ _ _, fun hne hcap => h.wrote (.emit v hne hcap)⟩

theorem copy (n : Nat) (src : Int) : KeepsTables s₀ (Machine.copy n src) := fun _ h =>
  wp_copy (fun _ hw _ => h.wrote hw) fun _ c w hw _ => (h.wrote hw).endCall c w _

theorem resolve (idx : Nat) : KeepsTables s₀ (Machine.resolve idx) := fun _ h =>
  (wp_resolve idx).mpr ⟨fun _ => h, fun _ => h.endCall _ _ _⟩

theorem loopTop : KeepsTables s₀ Machine.loopTop := fun s h => by
  rw [wp_loopTop]
  repeat' split
  case isFalse.isFalse.isFalse => exact ⟨h.table, h.directory⟩
  all_goals exact h.endCall _ _ _

end KeepsTables

/-- The symbol decode writes only the counter of its symbol, and nothing where it ends the call (R142, R224). -/
theorem fetch_keepsAssignment : Triple (SameTables s₀) (SameAssignment s₀) (SameTables s₀) fetch := by
  refine Triple.bind (KeepsTables.of_readsOnly (.read 4)) fun v => Triple.bind .get fun s =>
    Triple.bind (KeepsTables.of_readsOnly (.read _)) fun off => Triple.bind (KeepsTables.resolve _) fun sym => ?_
  cases decodeSymbol sym (BitVec.ofNat 4 v) with
  | error e => exact fun _ _ => trivial
  | ok i => exact Triple.bind (Triple.update fun _ h => h.countUse sym) fun _ => Triple.pure i

theorem nextInstr_keepsAssignment : Triple (SameTables s₀) (SameAssignment s₀) (SameTables s₀) nextInstr :=
  Triple.bind KeepsTables.loopTop fun _ => fetch_keepsAssignment

theorem outcomeOf_sameTables {m : Engine Unit} (hm : KeepsTables s m) (h : outcomeOf m s = .next t) : SameTables s t :=
  hm.outcome (fun _ => id) (fun _ => id) (.refl s) h

theorem exec_sameTables {i : Instr} (hi : i ≠ .tableSwap) (h : exec i s = .next t) : SameTables s t := by
  cases i with
  | lit b => exact outcomeOf_sameTables (.setByte b 1) h
  | matchShort k =>
    refine outcomeOf_sameTables ?_ h
    exact .bind (.withEState _) fun _ => .bind (.of_readsOnly .distance) fun _ => .bind (.copy _ _) fun _ =>
      .withEState _
  | matchLong k sel =>
    refine outcomeOf_sameTables ?_ h
    exact .bind (.withEState _) fun _ => .bind (.of_readsOnly (.longLength k sel)) fun _ =>
      .bind (.of_readsOnly .distance) fun _ => .bind (.copy _ _) fun _ => .withEState _
  | tableSwap => exact absurd rfl hi
  | endSegment =>
    refine outcomeOf_sameTables ?_ h
    refine .bind (.withEState _) fun _ => .bind .get fun _ => ?_
    split
    · exact .bind .resetBitBuffer fun _ => .withEState _
    split
    · exact .finish _ _
    · exact .finish _ _

/-- Settles O47: the loop top and the symbol decode by `nextInstr_keepsAssignment`, the instructions by `exec_sameTables`. -/
theorem onlyTableSwapChangesTheTables : Obligations.OnlyTableSwapChangesTheTables := by
  refine ⟨fun i s t hrun => ?_, fun s t hrun => ?_, fun i s t hi hrun => ?_⟩
  · have h := nextInstr_keepsAssignment.of_ok (.refl s) hrun
    exact ⟨h.table, h.assignment⟩
  · have h := nextInstr_keepsAssignment.of_ended (.refl s) hrun
    exact ⟨h.table, h.directory⟩
  · have h := exec_sameTables hi hrun
    exact ⟨h.table, h.directory⟩

end Sys2Proof.Machine
end

section
/-! The loop top and the turns of the engine it leads to (R161, R162, R170). -/
namespace Sys2Proof.Machine

variable {s t : State}

/-- The checks of the loop top, in order (R161, R170, R225). -/
theorem loopTop_run (s : State) : loopTop s =
    if s.WO = s.UL then .error .callEnded (s.endCall .none 0 .done)
    else if s.V = 0 ∧ s.POS = s.END then
      .error .callEnded (s.endCall .prematureEOF (BitVec.ofNat 32 (s.UL - s.WO)) .error)
    else if s.capReached then .error .callEnded (s.endCall .iterationCapExceeded (iterationInfo s.ITER) .error)
    else .ok () s.countIteration := by
  have hfull : s.outputFull = true ↔ s.WO = s.UL := by simp [State.outputFull]
  have hsource : s.sourceEof = true ↔ s.V = 0 ∧ s.POS = s.END := by simp [State.sourceEof]
  simp only [loopTop, bind_get, hfull, hsource]
  repeat' split
  all_goals rfl

theorem loopTop_of_begins (hw : s.WO ≠ s.UL) (hs : ¬(s.V = 0 ∧ s.POS = s.END)) (hc : s.capReached = false) :
    loopTop s = .ok () s.countIteration := by
  simp [loopTop_run, hw, hs, hc]

theorem loopTop_of_capReached (hw : s.WO ≠ s.UL) (hs : ¬(s.V = 0 ∧ s.POS = s.END)) (hc : s.capReached = true) :
    loopTop s = .error .callEnded (s.endCall .iterationCapExceeded (iterationInfo s.ITER) .error) := by
  simp [loopTop_run, hw, hs, hc]

theorem engineTurn_of_loopTop_ended (he : s.ESTATE = .decoding) (hrun : loopTop s = .error .callEnded t) :
    engineTurn s = .next t := by
  have hnext : nextInstr s = .error .callEnded t := bind_of_error hrun
  rw [engineTurn_decoding he, hnext]

/-- A turn with the output full (R161). -/
theorem engineTurn_of_outputFull (he : s.ESTATE = .decoding) (hw : s.WO = s.UL) :
    engineTurn s = .next (s.endCall .none 0 .done) :=
  engineTurn_of_loopTop_ended he ((loopTop_run s).trans (if_pos hw))

/-- Settles O24: bits that hold an instruction's code let the iteration begin, and `fetch_ok` reads the code. -/
theorem stepRunsTheDecodedInstruction : Obligations.StepRunsTheDecodedInstruction := by
  intro s i rest hturn he hw hc hr h
  have hne : s.unread ≠ [] := fun hnil => by
    rw [hnil, decodeInstr_nil] at h
    cases h
  have hbegins : s.turnTaken.Begins := ⟨he, hw, not_sourceEof_of_unread hne, hc⟩
  obtain ⟨s', hrun, hcursor, hrest, hV⟩ := fetch_ok (s := s.turnTaken.countIteration) hr.1 hr.2 h
  refine ⟨_, (step_of_engineTurn hturn).trans (hbegins.engineTurn_of_fetch_ok hrun), hrest, hV, ?_⟩
  obtain ⟨x, p, v, rfl⟩ := hcursor.eq
  rfl

/-- Settles O26: the first two checks of the loop top. -/
theorem loopTopEndsTheCall : Obligations.LoopTopEndsTheCall := by
  intro s hturn he
  have hstep := step_of_engineTurn hturn
  exact ⟨fun hw => hstep.trans (engineTurn_of_outputFull (s := s.turnTaken) he hw),
    fun hw hV hpos => hstep.trans (engineTurn_of_sourceEof (s := s.turnTaken) he hw ⟨hV, hpos⟩)⟩

/-- Settles O27: the third check of the loop top, which finds the cap reached exactly when its limit is at most `ITER`. -/
theorem iterationCapEndsTheCall : Obligations.IterationCapEndsTheCall := by
  refine ⟨rfl, fun s hw hs => ⟨fun cap hcap hle hturn he => ?_, fun cap hcap hlt => ?_, fun hnone => ?_⟩⟩
  · have hc : s.capReached = true := (capReached_some hcap).mpr hle
    exact ⟨iterationInfo s.ITER, iterationInfo_toNat, (step_of_engineTurn hturn).trans
      (engineTurn_of_loopTop_ended (s := s.turnTaken) he (loopTop_of_capReached hw hs hc))⟩
  · have hc : s.capReached = false :=
      Bool.eq_false_iff.mpr fun hreached => Nat.not_le.mpr hlt ((capReached_some hcap).mp hreached)
    exact loopTop_of_begins hw hs hc
  · exact loopTop_of_begins hw hs (capReached_none hnone)

end Sys2Proof.Machine
end

section
/-! LIT, END_SEGMENT and TABLE_SWAP: what each does, and what it leaves alone (R164 to R166). -/
namespace Sys2Proof.Machine

variable {s t : State}

/-! ### LIT -/

theorem execLit_of_room (b : Byte) (hw : s.WO ≠ s.UL) (hcap : s.WO < s.params.outCapacity) :
    execLit b s = .next (s.emit b) :=
  outcomeOf_ok ((if_neg hw).trans (if_pos hcap))

/-- Settles O32: with room in the output LIT is `emit`. -/
theorem litAppendsItsByte : Obligations.LitAppendsItsByte := by
  intro b s hm hw hcap
  exact ⟨_, execLit_of_room b hw hcap, rfl, Memory.read_write_same hm s.WO b, fun _ hp => Memory.read_write_ne b hp⟩

/-- Everything LIT can do where it answers (R164, R190). -/
theorem execLit_eq_next {b : Byte} (h : execLit b s = .next t) :
    (s.WO = s.UL ∧ t = s.endCall .outputBufferExhausted 1 .error) ∨ (s.WO ≠ s.UL ∧ t = s.emit b) :=
  wp_outcomeOf
    (P := fun t => (s.WO = s.UL ∧ t = s.endCall .outputBufferExhausted 1 .error) ∨ (s.WO ≠ s.UL ∧ t = s.emit b))
    ((wp_setByte b 1).mpr ⟨fun hw => .inl ⟨hw, rfl⟩, fun hw _ => .inr ⟨hw, rfl⟩⟩) h

/-- Settles O44: the end of a call leaves the output and the tables alone, and `emit` writes at `WO`. -/
theorem litFrame : Obligations.LitFrame := by
  intro b s t h
  obtain ⟨hw, rfl⟩ | ⟨-, rfl⟩ := execLit_eq_next h
  · exact ⟨rfl, rfl, rfl, rfl, rfl, rfl, fun hne => absurd hw hne, fun _ _ => rfl⟩
  · exact ⟨rfl, rfl, rfl, rfl, rfl, rfl, fun _ => ⟨rfl, rfl, rfl⟩, fun p hp => Memory.read_write_ne b (by omega)⟩

/-! ### END_SEGMENT -/

/-- The computation of END_SEGMENT as one case distinction (R166). -/
theorem execEndSegment_run (s : State) : execEndSegment s =
    if s.sourceLeft > s.params.segmentThreshold ∧ s.WO < s.UL then .next (s.realign.withEState .decoding)
    else if s.WO < s.UL then .next (s.endCall .streamDesyncAtEnd (BitVec.ofNat 32 (s.UL - s.WO)) .done)
    else .next (s.endCall .none 0 .done) := by
  let s₁ := s.withEState .endOfStream
  by_cases hboundary : s.sourceLeft > s.params.segmentThreshold ∧ s.WO < s.UL
  · rw [if_pos hboundary]
    exact outcomeOf_ok (congrFun (if_pos hboundary) s₁)
  rw [if_neg hboundary]
  by_cases hroom : s.WO < s.UL
  · rw [if_pos hroom]
    exact outcomeOf_ended ((congrFun (if_neg hboundary) s₁).trans (congrFun (if_pos hroom) s₁))
  · rw [if_neg hroom]
    exact outcomeOf_ended ((congrFun (if_neg hboundary) s₁).trans (congrFun (if_neg hroom) s₁))

/-- Settles O42: the three cases of `execEndSegment_run`. -/
theorem endSegmentRealignsOrEnds : Obligations.EndSegmentRealignsOrEnds := by
  intro s
  refine ⟨fun h => ?_, fun ⟨hleft, hroom⟩ => ?_, fun hroom => ?_⟩
  · exact (execEndSegment_run s).trans (if_pos h)
  · exact (execEndSegment_run s).trans ((if_neg fun h => hleft h.1).trans (if_pos hroom))
  · exact (execEndSegment_run s).trans ((if_neg fun h => hroom h.2).trans (if_neg hroom))

/-! ### TABLE_SWAP -/

/-- A description that decodes: the table it describes is installed, with the directory reordered before (R144, R165, R126). The
reorder function is a variable, so that no comparison of states evaluates `P_REORDER`. -/
theorem tableSwapBy_of_decodeGroups_ok (f : Directory → Directory) {zs : List Nat} {rest : List Bool} (hr : s.Readable)
    (h : decodeGroups s.params 16 0 0 s.unread = .ok (zs, rest)) :
    ∃ t, outcomeOf (tableSwapBy f) s = .next t ∧ t.unread = rest ∧
      t = { s with S := t.S, POS := t.POS, V := t.V, T := t.T, DIR := f s.DIR, ESTATE := .decoding } ∧
      t.T.len.toList.map Fin.val = slotLengths s.params.lenCoding 0 zs ∧ t.T.WF := by
  obtain ⟨hV, hsrc⟩ := hr
  let s₁ := (s.withEState .tableSwap).withDir (f s.DIR)
  have hspec := buildTable_spec (s := s₁) hV hsrc
  have h₁ : decodeGroups s₁.params 16 0 0 s₁.unread = .ok (zs, rest) := h
  rw [h₁] at hspec
  obtain ⟨s', T, hrun, hcursor, hrest, -, -, -, hlen, hwf⟩ := hspec
  refine ⟨(s'.withTable T).withEState .decoding, outcomeOf_ok ?_, hrest, ?_, hlen, hwf⟩
  · simp only [tableSwapBy, reorderBy, bind_modify]
    exact bind_of_ok hrun
  · obtain ⟨x, p, v, rfl⟩ := hcursor.eq
    rfl

/-- Settles O39: a description is what decodes to its zero counts. -/
theorem tableSwapInstallsTheTable : Obligations.TableSwapInstallsTheTable := by
  intro zs rest s hr hfit hunread
  have h : decodeGroups s.params 16 0 0 s.unread = .ok (zs.toList, rest) :=
    (decodeGroups_eq_ok (Nat.zero_le _)).mpr ⟨zs.length_toList, hfit, hunread⟩
  exact tableSwapBy_of_decodeGroups_ok Config.reorder hr h

/-- What a table swap leaves alone, however far it gets (R165): no byte is written, the soft-fault flag is not cleared, and the
call goes on without a condition, or ends in ERROR with the old table. -/
structure TableSwapFrame (s t : State) : Prop where
  offset  : t.WO = s.WO
  output  : t.OUTMEM = s.OUTMEM
  soft    : s.SOFT = true → t.SOFT = true
  outcome : (t.ESTATE = .decoding ∧ t.COND = s.COND ∧ t.INFO = s.INFO) ∨ (t.ESTATE = .error ∧ t.T = s.T)

theorem tableSwapBy_frame (f : Directory → Directory) (h : outcomeOf (tableSwapBy f) s = .next t) :
    TableSwapFrame s t := by
  refine wp_outcomeOf ?_ h
  simp only [tableSwapBy, reorderBy, buildTable, wp_bind, wp_modify, wp_get]
  refine wp_mono (ReadsOnly.buildSlots _ _ _ _ _ _ _) (fun T s' hr => ?_) ?_
  · obtain ⟨x, p, v, g, rfl, hsoft⟩ := hr.eq
    exact ⟨rfl, rfl, hsoft, .inl ⟨rfl, rfl, rfl⟩⟩
  · rintro _ ⟨s', c, w, hr, rfl⟩
    obtain ⟨x, p, v, g, rfl, hsoft⟩ := hr.eq
    exact ⟨rfl, rfl, hsoft, .inr ⟨rfl, rfl⟩⟩

/-- Settles O46: TABLE_SWAP by its frame, END_SEGMENT by the three states it can answer. -/
theorem controlFrame : Obligations.ControlFrame := by
  intro s t
  refine ⟨fun h => ?_, fun h => ?_⟩
  · obtain ⟨hoffset, houtput, hsoft, houtcome⟩ := tableSwapBy_frame Config.reorder h
    have hread : ∀ p, Memory.read t.OUTMEM p = Memory.read s.OUTMEM p := fun p => by rw [houtput]
    obtain ⟨he, hcond⟩ | ⟨he, htable⟩ := houtcome
    · exact ⟨hoffset, hsoft, fun _ => hcond, .inl he, by simp [he], hread⟩
    · exact ⟨hoffset, hsoft, by simp [he], .inr he, fun _ => htable, hread⟩
  · have h : execEndSegment s = .next t := h
    rw [execEndSegment_run] at h
    repeat' split at h
    all_goals
      cases h
      simp

end Sys2Proof.Machine
end

section
/-! What an iteration that goes on has used up: bits of the source, or room in the output (R169). -/
namespace Sys2Proof

/-- A unary group has a bit at least (R88). -/
theorem length_le_length_encodeGroups (zs : List Nat) : zs.length ≤ (encodeGroups zs).length := by
  induction zs with
  | nil => rfl
  | cons z zs ih =>
    simp only [encodeGroups_cons, List.length_append, List.length_cons]
    omega

end Sys2Proof

namespace Sys2Proof.Machine

variable {s s₀ s' t : State} {α β : Type}

/-- The call has ended (R167, R223). -/
abbrev State.Ended (s : State) : Prop := s.ESTATE = .done ∨ s.ESTATE = .error

theorem wp.and {m : Engine α} {Q Q' : α → State → Prop} {E E' : State → Prop} (h : wp m Q E s) (h' : wp m Q' E' s) :
    wp m (fun a t => Q a t ∧ Q' a t) (fun t => E t ∧ E' t) s := by
  unfold wp at *
  split at h <;> simp_all

/-! ### Reading -/

/-- What has happened between the two states may have taken bits, but wrote no byte; the reader still works. -/
structure ReadFrom (s₀ s : State) : Prop where
  readable : s.Readable
  bits     : s.unread.length ≤ s₀.unread.length
  offset   : s.WO = s₀.WO

theorem ReadFrom.refl (h : s.Readable) : ReadFrom s s := ⟨h, Nat.le_refl _, rfl⟩

theorem ReadFrom.trans (h : ReadFrom s₀ s) (h' : ReadFrom s s') : ReadFrom s₀ s' :=
  ⟨h'.readable, Nat.le_trans h'.bits h.bits, h'.offset.trans h.offset⟩

/-- A read takes its bits, or they were not there and an underflow that drains leaves none (R100, R103, R104). -/
theorem wp_read_bits {n : Nat} (hn : n ≤ 24) (hr : s.Readable) :
    wp (read n) (fun _ s' => ReadFrom s s' ∧ (s'.unread.length + n ≤ s.unread.length ∨
      s.unread.length < n ∧ (s.params.underflowDrain = true → s'.unread.length = 0))) State.Ended s := by
  obtain ⟨hV, hsrc⟩ := hr
  by_cases hlen : n ≤ s.unread.length
  · obtain ⟨s', hrun, hcursor, hrest, hV', -⟩ := read_ok hn hV hsrc hlen
    have hbits : s'.unread.length = s.unread.length - n := by rw [hrest, List.length_drop]
    rw [wp_ok hrun]
    exact ⟨⟨⟨hV', by rw [hcursor]; exact hsrc⟩, by omega, by rw [hcursor]⟩, .inl (by omega)⟩
  · obtain ⟨s', hunder, -, hrun⟩ := read_underflow hn hV hsrc (Nat.lt_of_not_le hlen)
    have hbits : s'.unread.length ≤ s.unread.length ∧ (s.params.underflowDrain = true → s'.unread.length = 0) := by
      rw [hunder.unread]
      split <;> simp_all
    unfold wp
    rw [hrun]
    cases s.LEN
    · exact .inr rfl
    · exact ⟨⟨⟨hunder.small, by rw [hunder.same]; exact hsrc⟩, hbits.1, by rw [hunder.same]⟩,
        .inr ⟨Nat.lt_of_not_le hlen, hbits.2⟩⟩

/-- Whatever `m` yields, since `s₀` bits may have been taken and no byte was written. -/
abbrev OnlyReads (s₀ : State) (m : Engine α) : Prop := Triple (ReadFrom s₀) (ReadFrom s₀) State.Ended m

namespace OnlyReads

theorem bind {m : Engine α} {f : α → Engine β} (hm : OnlyReads s₀ m) (hf : ∀ a, OnlyReads s₀ (f a)) :
    OnlyReads s₀ (m >>= f) := Triple.bind hm hf

theorem get : OnlyReads s₀ (MonadState.get : Engine State) := Triple.get

theorem pure (a : α) : OnlyReads s₀ (Pure.pure a : Engine α) := Triple.pure a

theorem withEState (e : EState) : OnlyReads s₀ (modify (·.withEState e)) :=
  fun _ h => ⟨h.readable, h.bits, h.offset⟩

theorem reorderBy (f : Directory → Directory) : OnlyReads s₀ (Machine.reorderBy f) :=
  fun _ h => ⟨h.readable, h.bits, h.offset⟩

theorem recordUse (y : Symbol) : OnlyReads s₀ (Machine.recordUse y) := fun _ h => ⟨h.readable, h.bits, h.offset⟩

theorem resolve (idx : Nat) : OnlyReads s₀ (Machine.resolve idx) := fun _ h =>
  (wp_resolve idx).mpr ⟨fun _ => h, fun _ => .inr rfl⟩

theorem read {n : Nat} (hn : n ≤ 24) : OnlyReads s₀ (Machine.read n) := fun _ h =>
  wp_mono (wp_read_bits hn h.readable) (fun _ _ h' => h.trans h'.1) fun _ => id

theorem distance : OnlyReads s₀ Machine.distance :=
  .bind (.read (by omega)) fun _ => .bind .get fun _ => .bind (.read (by omega)) fun _ =>
    .bind (.read (lowWidth_le _ _)) fun _ => .bind .get fun _ => .pure _

end OnlyReads

/-! ### The symbol decode -/

/-- The symbol decode has taken the selector's four bits, or the source ended inside of them (R162). -/
structure Fetched (s₀ s : State) : Prop extends ReadFrom s₀ s where
  taken : s.unread.length + 4 ≤ s₀.unread.length ∨
    s.unread.length < 4 ∧ (s₀.params.underflowDrain = true → s.unread.length = 0)

theorem wp_fetch_bits (hr : s.Readable) : wp fetch (fun _ s' => Fetched s s') State.Ended s := by
  rw [fetch, wp_bind]
  refine wp_mono (wp_read_bits (by omega) hr) (fun v s₁ ⟨hread, htaken⟩ => ?_) fun _ => id
  refine wp_mono (Q := fun _ => ReadFrom s₁) (E := State.Ended) ?_ (fun _ s' h => ⟨hread.trans h, ?_⟩) fun _ => id
  · refine OnlyReads.bind .get (fun s => .bind (.read (lenAt_le _ _)) fun off => .bind (.resolve _) fun sym => ?_) s₁
      (.refl hread.readable)
    cases decodeSymbol sym (BitVec.ofNat 4 v) with
    | error e => exact fun _ _ => trivial
    | ok i => exact .bind (.recordUse sym) fun _ => .pure i
  have hbits := h.bits
  have hbits₁ := hread.bits
  obtain htaken | ⟨hfew, hdrain⟩ := htaken
  · exact .inl (by omega)
  · exact .inr ⟨by omega, fun hd => by have := hdrain hd; omega⟩

/-! ### The instructions -/

/-- The call goes on after an instruction that wrote a byte, or had eight bits of the source ahead of it. -/
structure Advanced (s₀ s : State) : Prop where
  bits     : s.unread.length ≤ s₀.unread.length
  progress : s₀.WO < s.WO ∨ 8 ≤ s₀.unread.length

/-- From a state that reading has led to from `s₀`, `m` advances, or ends the call. -/
abbrev Advances (s₀ : State) (m : Engine Unit) : Prop := Triple (ReadFrom s₀) (Advanced s₀) State.Ended m

/-- A copy writes all its bytes, or ends the call (R195, R197, R198). -/
theorem Advances.copy {n : Nat} (hn : 1 ≤ n) (src : Int) : Advances s₀ (Machine.copy n src) := fun s h =>
  wp_copy
    (fun s' hw hwo => by
      have hoffset := h.offset
      obtain ⟨m, w, rfl⟩ := hw.same.eq
      exact ⟨h.bits, .inl (by omega)⟩)
    fun _ _ _ _ _ => .inr rfl

/-- A table description has a bit for each of its 16 slots at least, or ends the call (R122). -/
theorem Advances.buildTable : Advances s₀ Machine.buildTable := fun s h => by
  obtain ⟨hV, hsrc⟩ := h.readable
  have hspec := buildTable_spec hV hsrc
  unfold wp
  split at hspec
  · next zs rest hdecode =>
    obtain ⟨s', T, hrun, -, rfl, -⟩ := hspec
    obtain ⟨hlen, -, hunread⟩ := (decodeGroups_eq_ok (Nat.zero_le _)).mp hdecode
    have hgroups := length_le_length_encodeGroups zs
    have hsum := congrArg List.length hunread
    rw [List.length_append] at hsum
    have hbits := h.bits
    have hkept : (s'.withTable T).unread = s'.unread := rfl
    rw [hrun]
    exact ⟨by rw [hkept]; omega, .inr (by omega)⟩
  · next err _ =>
    obtain ⟨r, hrun, hends⟩ := hspec
    rw [hrun]
    cases err with
    | tableFormat slot rest =>
      obtain ⟨s', -, -, -, rfl⟩ := hends
      exact .inr rfl
    | truncated =>
      obtain ⟨s', -, -, -, rfl⟩ := hends
      exact .inr rfl
    | outOfSync _ _ | unreachableSymbol _ => exact hends.elim

/-- The rest of an instruction, which leaves the engine decoding. -/
abbrev Completes (s₀ : State) (m : Engine Unit) : Prop :=
  Triple (ReadFrom s₀) (fun t => t.ESTATE = .decoding ∧ Advanced s₀ t) State.Ended m

namespace Completes

theorem bind {m : Engine α} {f : α → Engine Unit} (hm : OnlyReads s₀ m) (hf : ∀ a, Completes s₀ (f a)) :
    Completes s₀ (m >>= f) := Triple.bind hm hf

theorem of_advances {m : Engine Unit} (hm : Advances s₀ m) :
    Completes s₀ (m >>= fun _ => modify (·.withEState .decoding)) :=
  Triple.bind hm fun _ => Triple.update fun _ h => ⟨rfl, h.bits, h.progress⟩

theorem outcomeOf {m : Engine Unit} (hm : Completes s m) (hr : s.Readable) (h : outcomeOf m s = .next t) :
    t.Ended ∨ t.ESTATE = .decoding ∧ Advanced s t :=
  Triple.outcome hm (fun _ => Or.inr) (fun _ => Or.inl) (.refl hr) h

theorem matchShort (k : BitVec 3) : Completes s₀ (do
    modify (·.withEState .backReference)
    let src ← distance
    copy (shortLength k) src
    modify (·.withEState .decoding)) :=
  .bind (.withEState _) fun _ => .bind .distance fun src => .of_advances (.copy (by rw [shortLength]; omega) src)

theorem matchLong (k : BitVec 3) (sel : Selector) : Completes s₀ (do
    modify (·.withEState .backReference)
    let n ← longLength k sel
    let src ← distance
    copy n src
    modify (·.withEState .decoding)) := by
  simp only [longLength, bind_assoc, pure_bind]
  exact .bind (.withEState _) fun _ => .bind .get fun s =>
    .bind (.read (s.params.lengthTable.entry k sel).extraBits.is_le) fun _ => .bind .distance fun src =>
      .of_advances (.copy (by omega) src)

theorem tableSwapBy (f : Directory → Directory) : Completes s₀ (Machine.tableSwapBy f) :=
  .bind (.withEState _) fun _ => .bind (.reorderBy f) fun _ => .of_advances .buildTable

end Completes

theorem realign_bits (s : State) : s.realign.unread.length ≤ s.unread.length := by
  simp only [length_unread, State.realign_V, State.realign_POS, State.realign_END]
  omega

/-- In a running call every instruction advances, or ends the call. -/
theorem exec_advances {i : Instr} (hr : s.Running .decoding) (h : exec i s = .next t) :
    t.Ended ∨ t.ESTATE = .decoding ∧ Advanced s t := by
  cases i with
  | lit b =>
    obtain ⟨-, rfl⟩ | ⟨-, rfl⟩ := execLit_eq_next h
    · exact .inl (.inr rfl)
    · exact .inr ⟨hr.estate, Nat.le_refl _, .inl (Nat.lt_succ_self _)⟩
  | matchShort k => exact (Completes.matchShort k).outcomeOf hr.readable h
  | matchLong k sel => exact (Completes.matchLong k sel).outcomeOf hr.readable h
  | tableSwap => exact (Completes.tableSwapBy Config.reorder).outcomeOf hr.readable h
  | endSegment =>
    have h : execEndSegment s = .next t := h
    rw [execEndSegment_run] at h
    split at h
    · next hboundary =>
      obtain ⟨hleft, -⟩ := hboundary
      cases h
      have hbits : 8 ≤ s.unread.length := by
        rw [length_unread]
        rw [State.sourceLeft] at hleft
        omega
      exact .inr ⟨rfl, realign_bits s, .inr hbits⟩
    split at h <;> cases h <;> exact .inl (.inl rfl)

/-! ### Turns -/

/-- An iteration that went on: the source was not at its end, and either the selector's four bits were taken, or they were not
there and a byte was written (R162, R169). -/
structure IterationDone (s t : State) : Prop where
  decoding : t.ESTATE = .decoding
  source   : 0 < s.unread.length
  bits     : t.unread.length ≤ s.unread.length
  progress : t.unread.length + 4 ≤ s.unread.length ∨
    s.WO < t.WO ∧ (s.params.underflowDrain = true → t.unread.length = 0)

theorem Fetched.iterationDone (hsource : 0 < s₀.unread.length) (h : Fetched s₀ s) (hd : t.ESTATE = .decoding)
    (ht : Advanced s t) : IterationDone s₀ t := by
  have hoffset := h.offset
  have hbits := h.bits
  have hbits' := ht.bits
  refine ⟨hd, hsource, Nat.le_trans hbits' hbits, ?_⟩
  obtain htaken | ⟨hfew, hdrain⟩ := h.taken
  · exact .inl (by omega)
  · obtain hwrote | hleft := ht.progress
    · exact .inr ⟨by omega, fun hd => by have := hdrain hd; omega⟩
    · omega

/-- A turn of the engine in a running call ends it, or is an iteration that went on. -/
theorem engineTurn_iterationDone (hr : s.Running .decoding) (h : engineTurn s = .next t) : t.Ended ∨ IterationDone s t := by
  refine engineTurn_post (P := fun t => t.Ended ∨ IterationDone s t) (fun hne => absurd hr.estate hne) (fun _ => ?_) h
  rw [nextInstr, wp_bind, wp_loopTop]
  split
  · exact .inl (.inl rfl)
  split
  · exact .inl (.inr rfl)
  split
  · exact .inl (.inr rfl)
  next hnotEof _ =>
  have hsource : 0 < s.unread.length := by
    obtain ⟨-, -, -, hpos, -⟩ := hr.registers
    rw [length_unread]
    omega
  have hbegun : s.countIteration.Running .decoding := hr.countIteration
  refine wp_mono ((RunsTo.fetch _ hbegun).and (wp_fetch_bits hbegun.readable)) (fun i s' hf t ht => ?_) fun _ he => .inl he.2
  obtain ⟨hr', hf⟩ := hf
  have hdone : t.Ended ∨ IterationDone s.countIteration t :=
    (exec_advances hr' ht).imp_right fun ⟨hd, hadvanced⟩ => hf.iterationDone hsource hd hadvanced
  exact hdone.imp_right fun hdone => { hdone with }

end Sys2Proof.Machine
end

section
/-! Every call ends (R169, R271). -/
namespace Sys2Proof.Machine

variable {s t : State}

/-- A running call whose turns to come are all the engine's. -/
structure State.LeftAlone (s : State) : Prop where
  inv      : s.Inv
  decoding : s.ESTATE = .decoding
  agenda   : ∀ turn ∈ s.agenda, turn = .engine

theorem State.LeftAlone.nextTurn (h : s.LeftAlone) : s.nextTurn = .engine := by
  rw [State.nextTurn]
  cases hagenda : s.agenda with
  | nil => rfl
  | cons turn turns => exact h.agenda turn (by simp [hagenda])

/-- One turn of a call that is left alone: it ends the call, or is an iteration that went on; it counts one iteration at most. -/
theorem State.LeftAlone.step (h : s.LeftAlone) : ∃ t, step s = .next t ∧
    t.params = s.params ∧ t.UL = s.UL ∧ s.WO ≤ t.WO ∧ t.ITER ≤ s.ITER + 1 ∧
    (t.Ended ∨ t.LeftAlone ∧ IterationDone s t) := by
  obtain ⟨t, hstep⟩ := engineNeverStops s h.inv h.nextTurn
  have hturn : engineTurn s.turnTaken = .next t := (step_of_engineTurn h.nextTurn).symm.trans hstep
  have hinv : t.Inv := everyStepKeepsTheInvariant s t h.inv hstep
  have hframe : t.params = s.params ∧ t.UL = s.UL ∧ s.WO ≤ t.WO ∧ t.ITER ≤ s.ITER + 1 ∧ t.agenda = s.agenda.tail := by
    obtain he | he := engineTurn_engineEffect hturn
    all_goals
      have hlow := he.low
      rw [he.same]
      exact ⟨rfl, rfl, hlow, by simp, rfl⟩
  obtain ⟨hparams, hul, hwo, hiter, hagenda⟩ := hframe
  refine ⟨t, hstep, hparams, hul, hwo, hiter, ?_⟩
  obtain hended | hdone := engineTurn_iterationDone (h.inv.turnTaken.running h.decoding) hturn
  · exact .inl hended
  · exact .inr ⟨⟨hinv, hdone.decoding, fun turn hmem => h.agenda turn (List.mem_of_mem_tail (hagenda ▸ hmem))⟩,
      { hdone with }⟩

theorem run_succ {k : Nat} (h : step s = .next t) : core.run (k + 1) s = core.run k t := by
  have h : core.step s = .next t := h
  simp only [Host.Core.run, h]

/-- A call whose every turn ends it or makes `μ` smaller ends within `μ + 1` turns, and counts no more iterations than turns. -/
theorem run_ends {P : State → Prop} (μ : State → Nat)
    (hstep : ∀ s, P s → ∃ t, step s = .next t ∧ t.ITER ≤ s.ITER + 1 ∧ (t.Ended ∨ P t ∧ μ t < μ s)) (h : P s) :
    ∃ k t, k ≤ μ s + 1 ∧ core.run k s = .next t ∧ t.Ended ∧ t.ITER ≤ s.ITER + k := by
  induction hμ : μ s using Nat.strong_induction_on generalizing s with
  | _ m ih =>
    subst hμ
    obtain ⟨t, hs, hiter, hended | ⟨ht, hlt⟩⟩ := hstep s h
    · exact ⟨1, t, Nat.le_add_left 1 _, run_succ hs, hended, hiter⟩
    · obtain ⟨k, u, hk, hrun, hended, hiter'⟩ := ih (μ t) hlt ht rfl
      exact ⟨k + 1, u, by omega, (run_succ hs).trans hrun, hended, by omega⟩

/-- Under draining underflows an iteration takes four bits, or all that are left. -/
theorem run_ends_of_drain (h : s.LeftAlone) (hdrain : s.params.underflowDrain = true) :
    ∃ k t, k ≤ (s.unread.length + 3) / 4 + 1 ∧ core.run k s = .next t ∧ t.Ended ∧ t.ITER ≤ s.ITER + k := by
  refine run_ends (P := fun s => s.LeftAlone ∧ s.params.underflowDrain = true) (fun s => (s.unread.length + 3) / 4)
    (fun s ⟨h, hdrain⟩ => ?_) ⟨h, hdrain⟩
  obtain ⟨t, hstep, hparams, -, -, hiter, hnext⟩ := h.step
  refine ⟨t, hstep, hiter, hnext.imp_right fun ⟨ht, hdone⟩ => ⟨⟨ht, hparams ▸ hdrain⟩, ?_⟩⟩
  have hsource := hdone.source
  show (t.unread.length + 3) / 4 < (s.unread.length + 3) / 4
  obtain htaken | ⟨-, hnone⟩ := hdone.progress
  · omega
  · have := hnone hdrain
    omega

/-- Under either setting an iteration takes a bit or writes a byte. -/
theorem run_ends_of_leftAlone (h : s.LeftAlone) :
    ∃ k t, k ≤ s.unread.length + (s.UL - s.WO) + 1 ∧ core.run k s = .next t ∧ t.Ended ∧ t.ITER ≤ s.ITER + k := by
  refine run_ends (P := State.LeftAlone) (fun s => s.unread.length + (s.UL - s.WO)) (fun s h => ?_) h
  obtain ⟨t, hstep, -, hul, hwo, hiter, hnext⟩ := h.step
  refine ⟨t, hstep, hiter, hnext.imp_right fun ⟨ht, hdone⟩ => ⟨ht, ?_⟩⟩
  have hbits := hdone.bits
  have hprogress := hdone.progress
  obtain ⟨-, -, -, -, -, hroom⟩ := ht.inv.registers
  show t.unread.length + (t.UL - t.WO) < s.unread.length + (s.UL - s.WO)
  omega

/-- Settles O54: at its start a call has `8*END` bits ahead. -/
theorem everyCallEnds : Obligations.EveryCallEnds := by
  intro s hinv hagenda hd hpos hV hwo hiter
  have h : s.LeftAlone := ⟨hinv, hd, hagenda⟩
  have hbits : s.unread.length = 8 * s.END := by rw [length_unread, hpos, hV]; omega
  refine ⟨fun hdrain => ?_, ?_⟩
  · obtain ⟨k, t, hk, hrun, hended, hcount⟩ := run_ends_of_drain h hdrain
    exact ⟨k, t, by omega, hrun, hended, by omega⟩
  · obtain ⟨k, t, hk, hrun, hended, -⟩ := run_ends_of_leftAlone h
    exact ⟨k, t, by omega, hrun, hended⟩

end Sys2Proof.Machine
end

section
/-! LIT on a full output, and the matches whose fields are ahead: how each ends, and what every match leaves alone (R190 to R199). -/
namespace Sys2Proof.Machine

variable {s u u' t : State} {n d : Nat} {rest : List Bool} {i : Instr}

/-! ### LIT -/

theorem execLit_of_full (b : Byte) (hw : s.WO = s.UL) :
    execLit b s = .next (s.endCall .outputBufferExhausted 1 .error) :=
  outcomeOf_ended (if_pos hw)

/-- Settles O33: `setByte` tests for a full output first. -/
theorem litOnAFullOutput : Obligations.LitOnAFullOutput := fun b _ hw => execLit_of_full b hw

/-! ### From the fields of a match to its copy -/

/-- `i` gets from `s` to a copy of `n` bytes at distance `d`, with the bits `rest` ahead; until then only the cursor moves, and the
engine is in BACK_REFERENCE (R192, R193). -/
def ReachesCopy (s : State) (i : Instr) (n d : Nat) (rest : List Bool) : Prop :=
  ∃ u, CursorOnly (s.withEState .backReference) u ∧ u.unread = rest ∧
    exec i s = outcomeOf (copy n ((u.WO : Int) - d) >>= fun _ => modify (·.withEState .decoding)) u

/-- What follows the length of a match whose distance fields are ahead (R194). -/
theorem distance_reaches_copy (n : Nat) {f : DistanceFields} (hr : u.Readable) (hf : f.WF u.params)
    (hu : u.unread = encodeDistance u.params f ++ rest) :
    ∃ u', CursorOnly u u' ∧ u'.unread = rest ∧
      outcomeOf (distance >>= fun src => copy n src >>= fun _ => modify (·.withEState .decoding)) u =
        outcomeOf (copy n ((u'.WO : Int) - fieldsDistance u.params f) >>= fun _ => modify (·.withEState .decoding)) u' := by
  obtain ⟨u', hrun, hcursor, hrest, -⟩ := distance_ok hr.1 hr.2 hf hu
  have hwo : u'.WO = u.WO := by rw [hcursor]
  exact ⟨u', hcursor, hrest, by rw [outcomeOf_bind_of_ok hrun, hwo]⟩

theorem matchShort_reachesCopy (k : BitVec 3) {f : DistanceFields} (hr : s.Readable) (hf : f.WF s.params)
    (hu : s.unread = encodeDistance s.params f ++ rest) :
    ReachesCopy s (.matchShort k) (4 + k.toNat) (fieldsDistance s.params f) rest :=
  distance_reaches_copy (u := s.withEState .backReference) _ hr hf hu

/-- The length of a long match whose extra bits are ahead (R193, R199). -/
theorem longLength_ok (k : BitVec 3) (sel : Selector) {lx : Nat} (hr : s.Readable)
    (hlx : lx < 2 ^ (s.params.lengthTable.entry k sel).extraBits.val)
    (hu : s.unread = bitsOf (s.params.lengthTable.entry k sel).extraBits.val lx ++ rest) :
    ∃ s', longLength k sel s = .ok (4 + ((s.params.lengthTable.entry k sel).base.val + lx)) s' ∧ CursorOnly s s' ∧
      s'.unread = rest ∧ s'.Readable := by
  obtain ⟨s', hrun, hcursor, hrest, hr'⟩ := read_of_takeBits (Fin.is_le _) hr (hu ▸ takeBits_append hlx rest)
  exact ⟨s', bind_of_ok hrun, hcursor, hrest, hr'⟩

theorem matchLong_reachesCopy (k : BitVec 3) (sel : Selector) {lx : Nat} {f : DistanceFields} (hr : s.Readable)
    (hf : f.WF s.params) (hlx : lx < 2 ^ (s.params.lengthTable.entry k sel).extraBits.val)
    (hu : s.unread =
      bitsOf (s.params.lengthTable.entry k sel).extraBits.val lx ++ encodeDistance s.params f ++ rest) :
    ReachesCopy s (.matchLong k sel) (4 + ((s.params.lengthTable.entry k sel).base.val + lx))
      (fieldsDistance s.params f) rest := by
  rw [List.append_assoc] at hu
  obtain ⟨u, hrun, hcursor, hrest, hr'⟩ := longLength_ok (s := s.withEState .backReference) k sel hr hlx hu
  have hparams : u.params = s.params := by rw [hcursor]; rfl
  obtain ⟨u', hcursor', hrest', hrun'⟩ :=
    distance_reaches_copy (4 + ((s.params.lengthTable.entry k sel).base.val + lx)) hr' (hparams ▸ hf) (hparams ▸ hrest)
  rw [hparams] at hrun'
  exact ⟨u', hcursor.trans hcursor', hrest', (outcomeOf_bind_of_ok hrun).trans hrun'⟩

/-! ### The effect of such a match -/

/-- A copy whose distance is out of range, in any state (R198). -/
theorem outcomeOf_copy_outOfRange (hn : 1 ≤ n) (hd : d = 0 ∨ s.WO < d) :
    ∃ t, outcomeOf (copy n ((s.WO : Int) - d) >>= fun _ => modify (·.withEState .decoding)) s = .next t ∧
      s.MatchEffect n d s.unread s.SOFT t := by
  obtain ⟨t, hrun, ht⟩ := copy_effect_of_outOfRange hn hd
  exact ⟨t, outcomeOf_ended (bind_of_error hrun), ht⟩

/-- The effect of the copy is that of the whole match, told of the state in which the match began. -/
theorem matchEffect_of_cursorOnly (hu : CursorOnly (s.withEState .backReference) u)
    (h : u.MatchEffect n d u.unread u.SOFT t) : s.MatchEffect n d u.unread s.SOFT t := by
  obtain ⟨x, p, v, rfl⟩ := hu.eq
  exact h

namespace ReachesCopy

theorem effect_of_outOfRange (h : ReachesCopy s i n d rest) (hn : 1 ≤ n) (hd : d = 0 ∨ s.WO < d) :
    ∃ t, exec i s = .next t ∧ s.MatchEffect n d rest s.SOFT t := by
  obtain ⟨u, hcursor, rfl, hexec⟩ := h
  have hwo : u.WO = s.WO := by rw [hcursor]; rfl
  obtain ⟨t, hrun, ht⟩ := outcomeOf_copy_outOfRange hn (hwo ▸ hd)
  exact ⟨t, hexec.trans hrun, matchEffect_of_cursorOnly hcursor ht⟩

theorem effect (h : ReachesCopy s i n d rest) (hn : 1 ≤ n) (hm : Memory.wf s.OUTMEM) (hle : s.WO ≤ s.UL)
    (hcap : s.UL ≤ s.params.outCapacity) : ∃ t, exec i s = .next t ∧ s.MatchEffect n d rest s.SOFT t := by
  obtain ⟨u, hcursor, rfl, hexec⟩ := h
  have hm' : Memory.wf u.OUTMEM := by rw [hcursor]; exact hm
  have hle' : u.WO ≤ u.UL := by rw [hcursor]; exact hle
  have hcap' : u.UL ≤ u.params.outCapacity := by rw [hcursor]; exact hcap
  obtain ⟨t, hrun, ht⟩ := outcomeOf_copy (d := d) hn hm' hle' hcap'
  exact ⟨t, hexec.trans hrun, matchEffect_of_cursorOnly hcursor ht⟩

/-- Room for all the bytes: the copy is made, and the call goes on (R195, R196). -/
theorem copies (h : ReachesCopy s i n d rest) (hn : 1 ≤ n) (hm : Memory.wf s.OUTMEM) (hd : 1 ≤ d) (hdw : d ≤ s.WO)
    (hroom : s.WO + n ≤ s.UL) (hcap : s.UL ≤ s.params.outCapacity) :
    ∃ t, exec i s = .next t ∧ t.unread = rest ∧
      t = { s with S := t.S, POS := t.POS, V := t.V, OUTMEM := t.OUTMEM, WO := s.WO + n, ESTATE := .decoding } ∧
      (∀ j < n, Memory.read t.OUTMEM (s.WO + j) = Memory.read s.OUTMEM (s.WO - d + j % d)) ∧
      (∀ p, p < s.WO ∨ s.WO + n ≤ p → Memory.read t.OUTMEM p = Memory.read s.OUTMEM p) := by
  obtain ⟨t, hexec, hrest, -, hcopy⟩ := h.effect hn hm (by omega) hcap
  obtain ⟨hcopied, hkept, hgoesOn, -⟩ := hcopy hd hdw
  rw [show min n (s.UL - s.WO) = n by omega] at hcopied hkept
  exact ⟨t, hexec, hrest, hgoesOn hroom, hcopied, hkept⟩

/-- Room for fewer bytes: the output is filled up, and the call ends (R197, R224). -/
theorem exhausts (h : ReachesCopy s i n d rest) (hm : Memory.wf s.OUTMEM) (hd : 1 ≤ d) (hdw : d ≤ s.WO)
    (hle : s.WO ≤ s.UL) (hroom : s.UL < s.WO + n) (hcap : s.UL ≤ s.params.outCapacity) :
    ∃ t, exec i s = .next t ∧ t.unread = rest ∧
      t = { s with
        S := t.S, POS := t.POS, V := t.V, OUTMEM := t.OUTMEM, WO := s.UL
        ESTATE := .error, COND := .outputBufferExhausted, INFO := BitVec.ofNat 32 (n - (s.UL - s.WO)) } ∧
      (∀ j < s.UL - s.WO, Memory.read t.OUTMEM (s.WO + j) = Memory.read s.OUTMEM (s.WO - d + j % d)) ∧
      (∀ p, p < s.WO ∨ s.UL ≤ p → Memory.read t.OUTMEM p = Memory.read s.OUTMEM p) := by
  obtain ⟨t, hexec, hrest, -, hcopy⟩ := h.effect (by omega) hm hle hcap
  obtain ⟨hcopied, hkept, -, hends⟩ := hcopy hd hdw
  rw [show min n (s.UL - s.WO) = s.UL - s.WO by omega] at hcopied hkept
  rw [Nat.add_sub_cancel' hle] at hkept
  exact ⟨t, hexec, hrest, hends hroom, hcopied, hkept⟩

/-- A distance out of range: no byte is written, and the call ends (R198). -/
theorem faults (h : ReachesCopy s i n d rest) (hn : 1 ≤ n) (hd : d = 0 ∨ s.WO < d) :
    ∃ t, exec i s = .next t ∧ t.unread = rest ∧
      t = { s with
        S := t.S, POS := t.POS, V := t.V, ESTATE := .error, COND := .backRefOutOfRange
        INFO := BitVec.ofInt 32 ((s.WO : Int) - d) } := by
  obtain ⟨t, hexec, hrest, hfaults, -⟩ := h.effect_of_outOfRange hn hd
  exact ⟨t, hexec, hrest, hfaults hd⟩

end ReachesCopy

/-- Settles O34: the distance is read, and the copy has room. -/
theorem matchShortCopies : Obligations.MatchShortCopies := by
  intro k f rest s hr hm hf hu hd hdw hroom hcap
  exact (matchShort_reachesCopy k hr hf hu).copies (by omega) hm hd hdw hroom hcap

/-- Settles O35: the length and the distance are read, and the copy has room. -/
theorem matchLongCopies : Obligations.MatchLongCopies := by
  intro k sel lx f rest s hr hm e n hlx hf hu hd hdw hroom hcap
  exact (matchLong_reachesCopy k sel hr hf hlx hu).copies (by omega) hm hd hdw hroom hcap

/-- Settles O36: the copy's first source byte is out of range. -/
theorem matchOutOfRangeFaults : Obligations.MatchOutOfRangeFaults := by
  intro k sel lx f rest s hr e faulted hf hd
  exact ⟨fun hu => (matchShort_reachesCopy k hr hf hu).faults (by omega) hd,
    fun hlx hu => (matchLong_reachesCopy k sel hr hf hlx hu).faults (by omega) hd⟩

/-- Settles O37: the copy meets the end of the output. -/
theorem matchExhaustsTheOutput : Obligations.MatchExhaustsTheOutput := by
  intro k sel lx f rest s hr hm e d exhausted hf hd hdw hle hcap
  exact ⟨fun hroom hu => (matchShort_reachesCopy k hr hf hu).exhausts hm hd hdw hle hroom hcap,
    fun hroom hlx hu => (matchLong_reachesCopy k sel hr hf hlx hu).exhausts hm hd hdw hle hroom hcap⟩

/-! ### What a match of `n` bytes leaves alone, however far it gets -/

/-- A match stores at most `n` bytes, from `WO` on; the tables stay and the soft-fault flag is not cleared; the call goes on without
a condition, or ends in ERROR (R192, R193). -/
structure CopyFrame (n : Nat) (s t : State) : Prop where
  table     : t.T = s.T
  directory : t.DIR = s.DIR
  soft      : s.SOFT = true → t.SOFT = true
  low       : s.WO ≤ t.WO
  high      : t.WO ≤ s.WO + n
  outside   : ∀ p, ¬(s.WO ≤ p ∧ p < s.WO + n) → Memory.read t.OUTMEM p = Memory.read s.OUTMEM p
  outcome   : (t.ESTATE = .decoding ∧ t.COND = s.COND ∧ t.INFO = s.INFO) ∨ t.ESTATE = .error

namespace CopyFrame

/-- Reading and then writing at most `n` bytes stays within the frame, if the call then goes on. -/
theorem of_decoding (hr : ReaderOnly (s.withEState .backReference) u) (hw : Wrote n u u') :
    CopyFrame n s (u'.withEState .decoding) := by
  obtain ⟨x, p, v, g, rfl, hsoft⟩ := hr.eq
  obtain ⟨hsame, hlow, hhigh, -, houtside, -, -⟩ := hw
  simp only [State.withEState_WO] at hlow hhigh houtside
  obtain ⟨m, w, rfl⟩ := hsame.eq
  exact ⟨rfl, rfl, hsoft, hlow, hhigh, fun p hp => houtside p (by omega), .inl ⟨rfl, rfl, rfl⟩⟩

/-- Ending the call in ERROR instead of going on keeps the frame. -/
theorem of_ended {c : Condition} {w : Word} (hr : ReaderOnly (s.withEState .backReference) u) (hw : Wrote n u u') :
    CopyFrame n s (u'.endCall c w .error) :=
  { of_decoding hr hw with outcome := .inr rfl }

/-- What follows the length of a match, in any state (R194 to R198). -/
theorem wp_distance_copy (hr : ReaderOnly (s.withEState .backReference) u) :
    wp (distance >>= fun src => copy n src >>= fun _ => modify (·.withEState .decoding))
      (fun _ => CopyFrame n s) (CopyFrame n s) u := by
  simp only [wp_bind, wp_modify]
  refine wp_mono (ReadsOnly.distance u) (fun src u₁ hr₁ => ?_) ?_
  · exact wp_copy (fun u₂ hw _ => of_decoding (hr.trans hr₁) hw) (fun u₂ c w hw _ => of_ended (hr.trans hr₁) hw)
  · rintro _ ⟨u₁, c, w, hr₁, rfl⟩
    exact of_ended (hr.trans hr₁) ((Wrote.refl u₁).weaken (Nat.zero_le n))

theorem matchShort {k : BitVec 3} (h : exec (.matchShort k) s = .next t) : CopyFrame (shortLength k) s t :=
  wp_outcomeOf (wp_distance_copy (.refl _)) h

/-- A long match that gets its length has the frame of a match of that length, and another writes nothing. -/
theorem matchLong {k : BitVec 3} {sel : Selector} (h : exec (.matchLong k sel) s = .next t) :
    (∃ n u, longLength k sel (s.withEState .backReference) = .ok n u ∧ CopyFrame n s t) ∨
    (∃ e u, longLength k sel (s.withEState .backReference) = .error e u ∧ CopyFrame 0 s t) := by
  have hreads := ReadsOnly.longLength k sel (s.withEState .backReference)
  have h : outcomeOf (longLength k sel >>= fun n => distance >>= fun src => copy n src >>= fun _ =>
    modify (·.withEState .decoding)) (s.withEState .backReference) = .next t := h
  cases hlen : longLength k sel (s.withEState .backReference) with
  | ok n u =>
    rw [wp_ok hlen] at hreads
    rw [outcomeOf_bind_of_ok hlen] at h
    exact .inl ⟨n, u, rfl, wp_outcomeOf (wp_distance_copy hreads) h⟩
  | error e u =>
    refine .inr ⟨e, u, rfl, ?_⟩
    obtain hok | hended := outcomeOf_eq_next h
    · cases (bind_of_error hlen).symm.trans hok
    · cases (bind_of_error hlen).symm.trans hended
      simp only [wp, hlen] at hreads
      obtain ⟨u', c, w, hr, rfl⟩ := hreads
      exact of_ended hr (.refl u')

end CopyFrame

/-- Settles O45: a short match has the frame of its length, a long one that of the length it gets, if it gets one. -/
theorem matchFrame : Obligations.MatchFrame := by
  intro k sel s t kept
  have hkept {n : Nat} (h : CopyFrame n s t) : kept := by
    obtain ⟨htable, hdirectory, hsoft, hlow, -, -, hcond | herror⟩ := h
    · exact ⟨htable, hdirectory, hsoft, hlow, fun _ => hcond.2, .inl hcond.1⟩
    · exact ⟨htable, hdirectory, hsoft, hlow, by simp [herror], .inr herror⟩
  refine ⟨fun h => ?_, fun h => ?_⟩
  · have hframe := CopyFrame.matchShort h
    exact ⟨hkept hframe, hframe.high, hframe.outside⟩
  · obtain ⟨n, u, hlen, hframe⟩ | ⟨e, u, hlen, hframe⟩ := CopyFrame.matchLong h
    · refine ⟨hkept hframe, fun n' u' hok => ?_, fun e' u' herror => ?_⟩
      · cases hlen.symm.trans hok
        exact ⟨hframe.high, hframe.outside⟩
      · cases hlen.symm.trans herror
    · refine ⟨hkept hframe, fun n' u' hok => ?_, fun _ _ _ => ?_⟩
      · cases hlen.symm.trans hok
      · exact ⟨Nat.le_antisymm hframe.high hframe.low, fun p => hframe.outside p (by omega)⟩

end Sys2Proof.Machine
end

section
/-! A turn of the engine on two states that differ in output not yet written (R227, R68), and outside a call (R232). -/
namespace Sys2Proof.Machine

variable {α β : Type} {s s' : State}

/-- The two states differ in the output memory alone, and there only in bytes not yet written. -/
inductive SameWritten : State → State → Prop
  | intro {s : State} (m : List Host.Cell) (hs : Memory.wf s.OUTMEM) (hm : Memory.wf m)
      (hread : ∀ p < s.WO, Memory.read m p = Memory.read s.OUTMEM p) : SameWritten s { s with OUTMEM := m }

/-- Two computations yield the same value, or stop alike, in states that differ in output not yet written. -/
inductive SameResult : EStateM.Result Stop State α → EStateM.Result Stop State α → Prop
  | ok {u u' : State} (a : α) (h : SameWritten u u') : SameResult (.ok a u) (.ok a u')
  | error {u u' : State} (e : Stop) (h : SameWritten u u') : SameResult (.error e u) (.error e u')

/-- What `m` does does not depend on output bytes not yet written. -/
def IgnoresUnwritten (m : Engine α) : Prop := ∀ s s', SameWritten s s' → SameResult (m s) (m s')

/-! ### Updates of the state -/

/-- An update that neither looks at the output memory nor moves the write offset. -/
theorem SameWritten.update {f : State → State} (hf : ∀ s m, f { s with OUTMEM := m } = { f s with OUTMEM := m })
    (hw : ∀ s, (f s).WO = s.WO) (h : SameWritten s s') : SameWritten (f s) (f s') := by
  obtain ⟨m, hs, hm, hread⟩ := h
  have hout : (f s).OUTMEM = s.OUTMEM := (congrArg State.OUTMEM (hf s s.OUTMEM) :)
  rw [hf s m]
  exact ⟨m, by rwa [hout], hm, by rwa [hw, hout]⟩

theorem SameWritten.endCall (c : Condition) (w : Word) (e : EState) (h : SameWritten s s') :
    SameWritten (s.endCall c w e) (s'.endCall c w e) :=
  h.update (f := (·.endCall c w e)) (fun _ _ => rfl) fun _ => rfl

theorem SameWritten.read (h : SameWritten s s') {p : Nat} (hp : p < s.WO) :
    Memory.read s'.OUTMEM p = Memory.read s.OUTMEM p := by
  obtain ⟨m, hs, hm, hread⟩ := h
  exact hread p hp

/-- The byte that both states write at `WO` is then the same in both. -/
theorem SameWritten.emit (v : Byte) (h : SameWritten s s') : SameWritten (s.emit v) (s'.emit v) := by
  obtain ⟨m, hs, hm, hread⟩ := h
  refine ⟨Memory.write m s.WO v, Memory.wf_write hs _ _, Memory.wf_write hm _ _, fun p hp => ?_⟩
  rw [State.emit_WO] at hp
  rw [State.emit_OUTMEM, Memory.read_write hm, Memory.read_write hs]
  split
  · rfl
  · exact hread p (by omega)

/-! ### Computations -/

namespace IgnoresUnwritten

theorem of_forall {m : Engine α}
    (hm : ∀ s out, SameWritten s { s with OUTMEM := out } → SameResult (m s) (m { s with OUTMEM := out })) :
    IgnoresUnwritten m := by
  rintro s _ ⟨out, hs, hout, hread⟩
  exact hm s out ⟨out, hs, hout, hread⟩

theorem pure (a : α) : IgnoresUnwritten (Pure.pure a : Engine α) := fun _ _ => .ok a

theorem bind {m : Engine α} {f : α → Engine β} (hm : IgnoresUnwritten m) (hf : ∀ a, IgnoresUnwritten (f a)) :
    IgnoresUnwritten (m >>= f) := by
  intro s s' h
  have hres := hm s s' h
  rw [bind_run, bind_run]
  cases hms : m s <;> cases hms' : m s' <;> rw [hms, hms'] at hres <;> cases hres
  case ok.ok a _ _ h' => exact hf a _ _ h'
  case error.error e _ _ h' => exact .error e h'

/-- Reading the state, for a continuation that does not look at the output memory of the state it is given. -/
theorem get_bind {f : State → Engine β} (hsame : ∀ s m, f { s with OUTMEM := m } = f s)
    (hf : ∀ s, IgnoresUnwritten (f s)) : IgnoresUnwritten ((MonadState.get : Engine State) >>= f) := by
  refine of_forall fun s m h => ?_
  rw [bind_get, bind_get, hsame s m]
  exact hf s s _ h

theorem update {f : State → State} (hf : ∀ s m, f { s with OUTMEM := m } = { f s with OUTMEM := m })
    (hw : ∀ s, (f s).WO = s.WO) : IgnoresUnwritten (modify f) := fun _ _ h => .ok () (h.update hf hw)

theorem withEState (e : EState) : IgnoresUnwritten (modify (·.withEState e)) := update (fun _ _ => rfl) fun _ => rfl

theorem raise (c : Condition) (w : Word) : IgnoresUnwritten (Machine.raise c w : Engine α) :=
  fun _ _ h => .error .callEnded (h.endCall c w .error)

theorem finish (c : Condition) (w : Word) : IgnoresUnwritten (Machine.finish c w : Engine α) :=
  fun _ _ h => .error .callEnded (h.endCall c w .done)

theorem stopFault (r : Fault) : IgnoresUnwritten (Machine.stopFault r : Engine α) := fun _ _ => .error (.fault r)

theorem refuse (r : Refusal) : IgnoresUnwritten (Machine.refuse r : Engine α) := fun _ _ => .error (.refused r)

theorem raisePrematureEOF : IgnoresUnwritten (Machine.raisePrematureEOF : Engine α) := by
  refine of_forall fun s m h => ?_
  exact raise .prematureEOF (BitVec.ofNat 32 s.getLeftSize) s _ h

/-! ### Memory accesses and the copy -/

theorem srcRead (a : Nat) : IgnoresUnwritten (Machine.srcRead a) := by
  refine of_forall fun s m h => ?_
  unfold Machine.srcRead
  split
  · exact .ok _ h
  · exact stopFault _ s _ h

/-- A byte at or above `WO` is never looked at (R191). -/
theorem getByte (p : Int) : IgnoresUnwritten (Machine.getByte p) := by
  refine of_forall fun s m h => ?_
  unfold Machine.getByte
  split
  · exact raise _ _ s _ h
  next hp =>
  unfold outRead
  split
  · rw [h.read (by omega : p.toNat < s.WO)]
    exact .ok _ h
  · exact stopFault _ s _ h

theorem setByte (v : Byte) (remaining : Nat) : IgnoresUnwritten (Machine.setByte v remaining) := by
  refine of_forall fun s m h => ?_
  unfold Machine.setByte
  split
  · exact raise _ _ _ _ h
  split
  · exact .ok () (h.emit v)
  · exact stopFault _ _ _ h

theorem copy (n : Nat) (src : Int) : IgnoresUnwritten (Machine.copy n src) := by
  induction n generalizing src with
  | zero => exact .pure ()
  | succ n ih => exact .bind (.getByte src) fun b => .bind (.setByte b (n + 1)) fun _ => ih (src + 1)

/-! ### The bit reader and what is made of it -/

theorem refill (n fuel : Nat) : IgnoresUnwritten (Machine.refill n fuel) := by
  induction fuel with
  | zero => exact .pure ()
  | succ fuel ih =>
    refine .get_bind (fun _ _ => rfl) fun s => ?_
    split
    · exact .bind (.srcRead _) fun _ => .bind (.update (fun _ _ => rfl) fun _ => rfl) fun _ => ih
    · exact .pure ()

theorem underflow : IgnoresUnwritten Machine.underflow := by
  refine .bind (.update (fun _ _ => rfl) fun _ => rfl) fun _ => .get_bind (fun _ _ => rfl) fun s => ?_
  split
  · exact .pure ()
  · exact .raisePrematureEOF

theorem readChecked (n : Nat) : IgnoresUnwritten (Machine.readChecked n) := by
  refine .bind (.refill n n) fun _ => of_forall fun s m h => ?_
  rw [bind_get, bind_get]
  split
  · exact bind .underflow (fun _ => .pure none) _ _ h
  · exact .ok _ (h.update (f := (·.consume n)) (fun _ _ => rfl) fun _ => rfl)

theorem read (n : Nat) : IgnoresUnwritten (Machine.read n) := .bind (.readChecked n) fun _ => .pure _

theorem distance : IgnoresUnwritten Machine.distance :=
  .bind (.read 3) fun _ => .get_bind (fun _ _ => rfl) fun _ => .bind (.read 8) fun _ => .bind (.read _) fun _ =>
    .get_bind (fun _ _ => rfl) fun _ => .pure _

theorem longLength (k : BitVec 3) (sel : Selector) : IgnoresUnwritten (Machine.longLength k sel) :=
  .get_bind (fun _ _ => rfl) fun _ => .bind (.read _) fun _ => .pure _

theorem unaryGroup (p : Params) (lrun slot fuel z : Nat) :
    IgnoresUnwritten (Machine.unaryGroup p lrun slot fuel z) := by
  induction fuel generalizing z with
  | zero => exact .raise _ _
  | succ fuel ih =>
    refine .bind (.readChecked 1) fun r => ?_
    cases r with
    | none => exact .raisePrematureEOF
    | some b =>
      dsimp only
      split
      · exact .pure z
      split
      · exact .raise _ _
      · exact ih (z + 1)

theorem buildSlots (p : Params) (slots slot lrun run : Nat) (new : Table) :
    IgnoresUnwritten (Machine.buildSlots p slots slot lrun run new) := by
  induction slots generalizing slot lrun run new with
  | zero => exact .pure new
  | succ slots ih => exact .bind (.unaryGroup _ _ _ _ _) fun _ => ih _ _ _ _

theorem buildTable : IgnoresUnwritten Machine.buildTable :=
  .get_bind (fun _ _ => rfl) fun _ => .bind (.buildSlots _ _ _ _ _ _) fun _ => .update (fun _ _ => rfl) fun _ => rfl

/-! ### The loop top and the symbol decode -/

theorem resolve (idx : Nat) : IgnoresUnwritten (Machine.resolve idx) := by
  refine of_forall fun s m h => ?_
  unfold Machine.resolve
  split
  · exact .ok _ h
  · exact raise _ _ s _ h

theorem loopTop : IgnoresUnwritten Machine.loopTop := by
  refine of_forall fun s m h => ?_
  have hcap : ({ s with OUTMEM := m } : State).capReached = s.capReached := rfl
  simp only [loopTop_run, hcap]
  split
  · exact .error _ (h.endCall _ _ _)
  split
  · exact .error _ (h.endCall _ _ _)
  split
  · exact .error _ (h.endCall _ _ _)
  · exact .ok () (h.update (f := State.countIteration) (fun _ _ => rfl) fun _ => rfl)

theorem fetch : IgnoresUnwritten Machine.fetch := by
  refine .bind (.read 4) fun v => .get_bind (fun _ _ => rfl) fun s => .bind (.read _) fun off =>
    .bind (.resolve _) fun sym => ?_
  cases decodeSymbol sym (BitVec.ofNat 4 v) with
  | error e => exact .refuse _
  | ok i => exact .bind (.update (fun _ _ => rfl) fun _ => rfl) fun _ => .pure i

theorem nextInstr : IgnoresUnwritten Machine.nextInstr := .bind .loopTop fun _ => .fetch

/-! ### Control instructions -/

theorem tableSwapBy (f : Directory → Directory) : IgnoresUnwritten (Machine.tableSwapBy f) :=
  .bind (.withEState _) fun _ => .bind (.update (fun _ _ => rfl) fun _ => rfl) fun _ => .bind .buildTable fun _ =>
    .withEState _

end IgnoresUnwritten

/-! ### Instructions and turns -/

/-- Where the first outcome is a next state, so is the second, and the two differ in output not yet written. -/
def SameAnswer (o o' : Host.Outcome State Fault Refusal) : Prop :=
  ∀ t, o = .next t → ∃ t', o' = .next t' ∧ SameWritten t t'

theorem SameAnswer.next (h : SameWritten s s') : SameAnswer (.next s) (.next s') := by
  rintro _ ⟨⟩
  exact ⟨s', rfl, h⟩

theorem IgnoresUnwritten.outcomeOf {m : Engine Unit} (hm : IgnoresUnwritten m) (h : SameWritten s s') :
    SameAnswer (outcomeOf m s) (outcomeOf m s') := by
  have hres := hm s s' h
  intro t ht
  obtain hrun | hrun := outcomeOf_eq_next ht <;> rw [hrun] at hres
  · cases hrun' : m s' <;> rw [hrun'] at hres <;> cases hres
    next h' => exact ⟨_, outcomeOf_ok hrun', h'⟩
  · cases hrun' : m s' <;> rw [hrun'] at hres <;> cases hres
    next h' => exact ⟨_, outcomeOf_ended hrun', h'⟩

theorem exec_sameAnswer (i : Instr) (h : SameWritten s s') : SameAnswer (exec i s) (exec i s') := by
  cases i with
  | lit b => exact (IgnoresUnwritten.setByte b 1).outcomeOf h
  | matchShort k =>
    refine IgnoresUnwritten.outcomeOf ?_ h
    exact .bind (.withEState _) fun _ => .bind .distance fun _ => .bind (.copy _ _) fun _ => .withEState _
  | matchLong k sel =>
    refine IgnoresUnwritten.outcomeOf ?_ h
    exact .bind (.withEState _) fun _ => .bind (.longLength k sel) fun _ => .bind .distance fun _ =>
      .bind (.copy _ _) fun _ => .withEState _
  | tableSwap => exact (IgnoresUnwritten.tableSwapBy _).outcomeOf h
  | endSegment =>
    refine IgnoresUnwritten.outcomeOf ?_ h
    refine .bind (.withEState _) fun _ => .get_bind (fun _ _ => rfl) fun _ => ?_
    split
    · exact .bind (.update (fun _ _ => rfl) fun _ => rfl) fun _ => .withEState _
    split <;> exact .finish _ _

/-- In IDLE, DONE and ERROR the engine's turn leaves the state as it is (R232). -/
theorem engineTurn_of_outside (h : s.ESTATE = .idle ∨ s.ESTATE = .done ∨ s.ESTATE = .error) :
    engineTurn s = .next s := by
  obtain h | h | h := h <;> simp only [engineTurn, h]

theorem engineTurn_sameAnswer (h : SameWritten s s') : SameAnswer (engineTurn s) (engineTurn s') := by
  have he : s'.ESTATE = s.ESTATE := by cases h; rfl
  cases hs : s.ESTATE with
  | idle | done | error =>
    rw [engineTurn_of_outside (by simp [hs]), engineTurn_of_outside (by simp [he, hs])]
    exact .next h
  | tableSwap | backReference | endOfStream =>
    intro t ht
    simp only [engineTurn, hs] at ht
    cases ht
  | decoding =>
    have hres := IgnoresUnwritten.nextInstr s s' h
    rw [engineTurn_decoding hs, engineTurn_decoding (he.trans hs)]
    cases hn : nextInstr s <;> cases hn' : nextInstr s' <;> rw [hn, hn'] at hres <;> cases hres
    case ok.ok i _ _ hi => exact exec_sameAnswer i hi
    case error.error e _ _ hend =>
      cases e with
      | callEnded => exact .next hend
      | fault _ | refused _ => rintro _ ⟨⟩

/-- Settles O53: the engine's turn keeps the relation `SameWritten` between the two states. -/
theorem callIgnoresOldOutput : Obligations.CallIgnoresOldOutput := by
  intro s m hturn hm hs hread t ht
  have h : SameWritten s { s with OUTMEM := m } := ⟨m, hs, hm, hread⟩
  have hsame := engineTurn_sameAnswer (h.update (f := State.turnTaken) (fun _ _ => rfl) fun _ => rfl)
  rw [step_of_engineTurn hturn] at ht
  obtain ⟨_, ht', ⟨m', -, hm', hread'⟩⟩ := hsame t ht
  exact ⟨m', (step_of_engineTurn (s := { s with OUTMEM := m }) hturn).trans ht', hm', hread'⟩

/-- Settles O31: an engine turn takes itself off the agenda, and outside a call it does no more. -/
theorem idleEngineDoesNothing : Obligations.IdleEngineDoesNothing := fun s hturn hs =>
  (step_of_engineTurn hturn).trans (engineTurn_of_outside (s := s.turnTaken) hs)

end Sys2Proof.Machine
end

section
/-! Reset and hazards: a START of invalid constants, a hardware reset, and what no other move of the host changes of a running
call (R260 to R266, R71). -/
namespace Sys2Proof.Machine

variable {s t : State}

/-! ### START -/

theorem start_invalidConstants (hp : ¬s.params.WF) : start s = .refused .invalidConstants := if_neg hp

/-- Settles O12: outside a call a START bit reaches `start`, which tests the constants first. -/
theorem startNeedsValidConstants : Obligations.StartNeedsValidConstants := by
  intro s v hp hv hb
  rw [hostTurn_writeCtrl, writeCtrl_start hb hv]
  exact start_invalidConstants hp

/-! ### Hardware reset -/

@[simp] theorem abandonOutput_agenda (s : State) : s.abandonOutput.agenda = s.agenda := by
  unfold State.abandonOutput
  split <;> rfl

@[simp] theorem abandonOutput_lastRead (s : State) : s.abandonOutput.lastRead = s.lastRead := by
  unfold State.abandonOutput
  split <;> rfl

/-- A reset draws anew only the output range of a running call (R261). -/
theorem read_abandonOutput {p : Nat} (h : s.busy = false ∨ s.UL ≤ p) :
    Memory.read s.abandonOutput.OUTMEM p = Memory.read s.OUTMEM p := by
  unfold State.abandonOutput
  split
  · next hb => exact Memory.read_scramble_of_ge (h.resolve_left (by simp [hb]))
  · rfl

/-- Settles O22: `State.abandonOutput` changes nothing that a reset keeps but the abandoned output range and the draws. -/
theorem hardwareResetKeepsTheMemories : Obligations.HardwareResetKeepsTheMemories := by
  intro s
  refine ⟨hardReset s, rfl, ?_, fun p hp => read_abandonOutput hp⟩
  simp only [hardReset, abandonOutput_SRCMEM, abandonOutput_params, abandonOutput_agenda, abandonOutput_lastRead]

/-! ### The other moves while a call runs

`HostEffect` does not say which move had which effect, and so cannot leave the reset out: here each other move has its own lemma. -/

/-- From `s` to `t` only the host's registers, its latest read, the draws and bytes outside the call's ranges may differ. -/
structure CallKept (s t : State) : Prop where
  frame  : t = { s with
    LENIENT := t.LENIENT, SRC_OFFSET := t.SRC_OFFSET, SRC_LENGTH := t.SRC_LENGTH, UNPACKED_LENGTH := t.UNPACKED_LENGTH
    SRCMEM := t.SRCMEM, OUTMEM := t.OUTMEM, lastRead := t.lastRead, draws := t.draws }
  source : ∀ a, s.OFF ≤ a → a < s.OFF + s.END → Memory.read t.SRCMEM a = Memory.read s.SRCMEM a
  output : ∀ p < s.UL, Memory.read t.OUTMEM p = Memory.read s.OUTMEM p

namespace CallKept

/-- A register access that begins no call: a write of the inputs or of LENIENT, or a read. -/
theorem registers (lenient : Bool) (off len ul seen : Word) (drawn : Nat) : CallKept s
    { s with
      LENIENT := lenient, SRC_OFFSET := off, SRC_LENGTH := len, UNPACKED_LENGTH := ul, lastRead := seen, draws := drawn } :=
  ⟨rfl, fun _ _ _ => rfl, fun _ _ => rfl⟩

/-- A START bit is ignored while a call runs (R31, R266), and the inputs are latched already. -/
theorem writeWord {offset : Nat} {v : Word} (hb : s.busy = true) (h : writeWord offset v s = .next t) : CallKept s t := by
  unfold Machine.writeWord at h
  split at h
  case h_1 =>
    rw [writeCtrl_busy hb] at h
    cases h
    exact registers ..
  all_goals
    cases h
    exact registers ..

theorem readWord (offset : Nat) (hb : s.busy = true) : CallKept s (readWord offset s) := by
  unfold Machine.readWord
  split
  case h_2 | h_6 | h_7 | h_8 =>
    rw [readResult_busy hb]
    exact registers ..
  all_goals exact registers ..

/-- A write of `SRCMEM` that answers is outside the call's source range (R71). -/
theorem hostWriteSrc {a : Nat} {v : Byte} (hb : s.busy = true) (h : hostWriteSrc a v s = .next t) : CallKept s t := by
  unfold Machine.hostWriteSrc at h
  split at h
  · cases h
  split at h
  · cases h
  next hfree =>
  cases h
  refine ⟨rfl, fun a' hlo hhi => Memory.read_write_ne v ?_, fun _ _ => rfl⟩
  rintro rfl
  exact hfree ⟨hb, hlo, hhi⟩

/-- A write of `OUTMEM` that answers is outside the call's output range (R71). -/
theorem hostWriteOut {p : Nat} {v : Byte} (hb : s.busy = true) (h : hostWriteOut p v s = .next t) : CallKept s t := by
  unfold Machine.hostWriteOut at h
  split at h
  · cases h
  split at h
  · cases h
  next hfree =>
  cases h
  refine ⟨rfl, fun _ _ _ => rfl, fun p' hp' => Memory.read_write_ne v ?_⟩
  rintro rfl
  exact hfree ⟨hb, hp'⟩

theorem hostReadOut {p : Nat} (h : hostReadOut p s = .next t) : CallKept s t := by
  unfold Machine.hostReadOut at h
  split at h
  · cases h
  split at h <;>
  · cases h
    exact registers ..

theorem hostTurn {a : HostAction} (hb : s.busy = true) (ha : a ≠ .hardReset) (h : hostTurn a s = .next t) :
    CallKept s t := by
  cases a with
  | writeReg offset width v => exact writeWord hb (accessRegister_eq_next h)
  | readReg offset width =>
    cases accessRegister_eq_next h
    exact readWord offset hb
  | writeSrc a v => exact hostWriteSrc hb h
  | writeOut p v => exact hostWriteOut hb h
  | readOut p => exact hostReadOut h
  | hardReset => exact absurd rfl ha

end CallKept

/-- Settles O23: the frame of `CallKept` holds every register of the call, and its two other clauses the bytes. -/
theorem hostCannotTouchARunningCall : Obligations.HostCannotTouchARunningCall := by
  intro s t a hb ha h
  obtain ⟨hframe, hsource, houtput⟩ := CallKept.hostTurn hb ha h
  rw [hframe]
  exact ⟨rfl, rfl, rfl, rfl, rfl, rfl, rfl, rfl, rfl, rfl, rfl, rfl, rfl, rfl, rfl, rfl, hsource, houtput⟩

end Sys2Proof.Machine
end
